-- ==== Sys2Proof/Word.lean ====
section
/-! DEFINITION. The words of the fourier core: register words, data-memory words, complex values and twiddle pairs. -/

namespace Sys2Proof

/-- A host-visible register word and a data-memory word address (R7). -/
abbrev Word := BitVec 32

/-- One byte of the host's byte view of a data-memory word (R40). -/
abbrev Byte := BitVec 8

/-- The encoding of an IEEE-754 binary64 value: sign bit 63, exponent bits 62:52, fraction bits 51:0 (R63). -/
abbrev F64 := BitVec 64

/-- A complex value: a pair of binary64 values (R10, R63). -/
@[ext] structure Cplx where
  re : F64
  im : F64
deriving DecidableEq, Repr, Inhabited

/-- A twiddle-ROM entry `(c, s)` (R27, R75). -/
structure Twiddle where
  c : F64
  s : F64
deriving DecidableEq, Repr, Inhabited

/-- The free 64-bit values one command may use, one for each position in the command (`NAN_PAYLOAD` of R6).
A position is a path of numbers, so that no two operations of a command share a value. -/
abbrev Draws := List Nat → BitVec 64

/-- The free values of the sub-computation number `i`. -/
def Draws.sub (κ : Draws) (i : Nat) : Draws := fun p => κ (i :: p)

/-- `+0.0` (R10). -/
def posZero : F64 := 0x0000000000000000

/-- `-0.0`. -/
def negZero : F64 := 0x8000000000000000

/-- `1.0`. -/
def oneF64 : F64 := 0x3FF0000000000000

/-- Positive infinity. -/
def posInf : F64 := 0x7FF0000000000000

/-- `(+0.0, +0.0)`, the zero every fill writes (R66). -/
def zeroC : Cplx := ⟨posZero, posZero⟩

end Sys2Proof
end

