-- ==== Sys2Proof/Config.lean ====
section
/-! DEFINITION. What the spec fixes once (`MAX_IR`) and what it leaves to the device (R6, U6, U10 to U13): opaque constants without a body,
so that nothing proved of the model can lean on a value the spec does not give (logs 1, 2, 4, 5: DESIGN CHOICE, safe). -/

namespace Sys2Proof

/-- `MAX_IR` (R6, R90): impulse responses are truncated to this many samples. -/
def maxIr : Nat := 1920000

/-- The OPEN units of a device, as arguments of the meanings (R6: "The model takes the following parameters as arguments").
`tw` gives the twiddle-ROM entries but entry 0 (R75), `hypot` the modulus of finite operands (R76), `markerResidual` is
`MARKER_RESIDUAL` (R92), and `draw` gives the free values: of the `n`-th drawing event, at a position (R65, R23, R120). -/
structure Units where
  tw : Nat → Nat → Twiddle
  hypot : F64 → F64 → F64
  markerResidual : Bool
  draw : Nat → List Nat → BitVec 64

/-- The free values of drawing event number `n`. -/
def Units.supply (u : Units) (n : Nat) : Draws := u.draw n

namespace Config

/-- `log2 NMAX - 8`: `NMAX` is a power of two with `256 <= NMAX <= 2^31` (R6, U13). -/
opaque nmaxLog2Above8 : Fin 24

/-- `NCTX - 2`: `2 <= NCTX <= 16` (R6, U13). -/
opaque nctxAbove2 : Fin 15

/-- `MMAX - 11`: `MMAX >= 11`, and `CAP_MMAX` shows it in 32 bits (R6, R21, U13; log 21: DEDUCED). -/
opaque mmaxAbove11 : Fin 4294967285

/-- `KMAX - 33`: `KMAX >= 33`, and `CAP_KMAX` shows it in 32 bits (R6, R21, U13; log 21: DEDUCED). -/
opaque kmaxAbove33 : Fin 4294967263

/-- `DMEM_WORDS - 1`: `1 <= DMEM_WORDS <= 2^32` (R6, R21, U13). -/
opaque dmemLast : Fin 4294967296

/-- `TW`: the twiddle-ROM contents `(N, k)` for `k != 0` (R75, U10). -/
opaque twRom : Nat → Nat → Twiddle

/-- `HYPOT`: the modulus of finite operands (R76, U11); `modulus` keeps it within `HYPOT_OK`. -/
opaque hypotUnit : F64 → F64 → F64

/-- `MARKER_RESIDUAL` (R92, U12). -/
opaque markerResidual : Bool

/-- The free values of the model: NaN signs and payloads (R65, U6), busy `C_*` reads (R23, U5), words of an abandoned command's
output buffer (R120, U7). The first argument is the counter `State.draws`, the second the position within that event (log 5: DESIGN
CHOICE). -/
opaque freeValue : Nat → List Nat → BitVec 64

/-- The units of this device. -/
def units : Units :=
  { tw := twRom, hypot := hypotUnit, markerResidual := markerResidual, draw := freeValue }

end Config

end Sys2Proof
end

