-- ==== Sys2Proof/Machine/State.lean ====
section
/-! DEFINITION. Everything the spec gives the machine (R14), as plain data, the value it has after reset (R36), and the reasons a step can stop. -/

namespace Sys2Proof.Machine

/-- The error codes of `STATUS.ERR` (R108); codes 10 to 15 are never written, so they have no constructor. -/
inductive Err where
  | ok
  | invalidLength
  | invalidBlockSize
  | emptyImpulseResponse
  | invalidChannel
  | lengthMismatch
  | illegalCommand
  | notConfigured
  | capacityExceeded
  | addressRange
deriving DecidableEq, Repr

/-- The stored fields of `STATUS` (R17); its reserved bits read 0. `busy` is the sequencer's `BUSY` too (R35). -/
structure Status where
  busy : Bool
  err : Err
  undef : Bool
  ovr : Bool
deriving DecidableEq, Repr

/-- What the read-only capability registers hold (R20, R21): `CAP[4:0]`, `CAP[11:8]`, `CAP_MMAX`, `CAP_KMAX` and `CAP_DMEM`.
No command and no host access changes them. -/
structure Caps where
  nmaxLog2 : BitVec 5
  nctxLast : BitVec 4
  mmax : Word
  kmax : Word
  dmemLast : Word
deriving DecidableEq, Repr

/-- One convolver context (R28 to R31). Channel numbers are naturals: `CONV_NEW` stores none that is negative (log 17:
DEDUCED, safe). -/
structure Context where
  configured : Bool
  B : Nat
  F : Nat
  SEG : Nat
  M : Nat
  K : Nat
  STEP : Nat
  channel : Nat
  numChannels : Nat
  inputBuf : List F64
  outputBuf : List Cplx
  tempBuf : List Cplx
  overlapBuf : List F64
  inputSegments : List (List Cplx)
  impulseSegments : List (List Cplx)
  inputPos : Nat
  inputSegmentPos : Nat
deriving DecidableEq, Repr

/-- A context that no `CONV_NEW` has configured (R28, R36). R36 gives its fields no value: the zeros are the model's (log 11: DESIGN
CHOICE, unsafe in form, unobservable). -/
def Context.blank : Context :=
  { configured := false, B := 0, F := 0, SEG := 0, M := 0, K := 0, STEP := 0, channel := 0,
    numChannels := 0, inputBuf := [], outputBuf := [], tempBuf := [], overlapBuf := [], inputSegments := [],
    impulseSegments := [], inputPos := 0, inputSegmentPos := 0 }

/-- The data memory in the host's byte view (R34, R40): word `a` is the bytes at `8a .. 8a+7`. Addresses rise strictly, and an
address that is not listed holds no value (log 6: DESIGN CHOICE, safe). -/
abbrev Memory := List Host.Cell

/-- The canonical form: addresses strictly rising. -/
def Memory.wf : Memory → Bool
  | [] => true
  | [_] => true
  | (a, _) :: (b, v) :: rest => decide (a < b) && Memory.wf ((b, v) :: rest)

/-- What the outside world can do to the block (R13, R119): register accesses by byte offset and width in bits, accesses to
data-memory words, and the reset input. -/
inductive Access where
  | regWrite (offset : Nat) (width : Nat) (value : Word)
  | regRead (offset : Nat) (width : Nat)
  | dmemWrite (addr : Word) (value : F64)
  | dmemRead (addr : Word)
  | assertReset
  | releaseReset
  | powerOn
deriving DecidableEq, Repr

/-- One pending access of the outside world. `early` says that it lands while a running command is still busy; an access that is
not early waits for the end of the running command (R129: the time a command takes is not specified; log 9: DEDUCED, safe). -/
structure HostEvent where
  early : Bool
  access : Access
deriving DecidableEq, Repr

/-- What the last host read returned (log 18: DESIGN CHOICE). -/
inductive Reply where
  | empty
  | reg (value : Word)
  | word (value : F64)
deriving DecidableEq, Repr

/-- The state of the machine (R14). -/
structure State where
  /-- `STATUS` (R17). -/
  status : Status
  /-- `A0` to `A4` (R18). -/
  a : Vector Word 5
  /-- `CSEL[3:0]` (R22). -/
  csel : BitVec 4
  /-- The capability registers (R20, R21). -/
  caps : Caps
  /-- The latched command word (R16, R35). -/
  cmd : Word
  /-- The latched arguments (R19, R35). -/
  args : Vector Word 5
  /-- The convolver contexts (R28); those at and above `NCTX` do not exist and stay blank. -/
  ctxs : Vector Context 16
  /-- The data memory (R34). -/
  dmem : Memory
  /-- The level of the reset input (R119). -/
  inReset : Bool
  /-- The model's own: the accesses the outside world still makes, oldest first. -/
  pending : List HostEvent
  /-- The model's own: what the last host read returned. -/
  reply : Reply
  /-- The model's own: how many drawing events have happened; the argument of `Units.draw`. -/
  draws : Nat
deriving DecidableEq, Repr

/-- Why the machine stops with a fault. -/
inductive Fault where
  /-- A command or a host read reads a data-memory word that holds no value (R121, U2). Safe: the block would go on with whatever
  the memory holds (log 6). -/
  | unwrittenWord
  /-- The host accesses a data-memory word at or above `DMEM_WORDS` (R34; log 7: DESIGN CHOICE). Safe: no such word exists. -/
  | noSuchWord
  /-- `CONV_RUN` on a context whose `inputPos` is not below its block size: its loop would never end (R96). Safe: no state that
  meets the invariants of R32 gets there (log 16: DESIGN CHOICE). -/
  | endlessLoop
deriving DecidableEq, Repr

/-- Why the model refuses a step. -/
inductive Refusal where
  /-- An instruction without a meaning yet, by its mnemonic. Safe. -/
  | notModelled (mnemonic : String)
  /-- The host accesses the data memory while a command is busy (R124, U3). Safe: it is not a step of the model. -/
  | hostDmemWhileBusy
  /-- The host accesses a register with a width other than 32 bits, or at an offset that is not a multiple of 4 or not in the
  window (R24, U4; log 18). Safe: it is not a step of the model. -/
  | badRegisterAccess
deriving DecidableEq, Repr

/-- `STATUS` after reset (R36). -/
def Status.reset : Status := { busy := false, err := .ok, undef := false, ovr := false }

/-- The capability registers of this device (R20, R21, R36). -/
def Caps.device : Caps :=
  { nmaxLog2 := BitVec.ofNat 5 (Config.nmaxLog2Above8.val + 8)
    nctxLast := BitVec.ofNat 4 (Config.nctxAbove2.val + 1)
    mmax := BitVec.ofNat 32 (Config.mmaxAbove11.val + 11)
    kmax := BitVec.ofNat 32 (Config.kmaxAbove33.val + 33)
    dmemLast := BitVec.ofNat 32 Config.dmemLast.val }

/-- The machine right after a power-on reset (R36, R119, R121). `cmd` and `args` have no value in R36: their zeros are the model's
(log 10: DESIGN CHOICE, unsafe in form, unobservable), and so are the values of the model's own fields (logs 5, 18). -/
def State.reset : State :=
  { status := Status.reset
    a := Vector.replicate 5 0
    csel := 0
    caps := Caps.device
    cmd := 0
    args := Vector.replicate 5 0
    ctxs := Vector.replicate 16 Context.blank
    dmem := []
    inReset := false
    pending := []
    reply := .empty
    draws := 0 }

end Sys2Proof.Machine
end

