-- ==== Sys2Proof/Machine/Flags.lean ====
section
/-! DEFINITION. The `STATUS` register: the error codes (R108), the word the host reads (R17), and every update of a flag. -/

namespace Sys2Proof.Machine

/-- `code(E)` (R108). -/
def Err.code : Err → BitVec 4
  | .ok => 0
  | .invalidLength => 1
  | .invalidBlockSize => 2
  | .emptyImpulseResponse => 3
  | .invalidChannel => 4
  | .lengthMismatch => 5
  | .illegalCommand => 6
  | .notConfigured => 7
  | .capacityExceeded => 8
  | .addressRange => 9

/-- The 32-bit word of `STATUS` (R17): BUSY bit 0, ERR bits 7:4, UNDEF bit 8, OVR bit 9, every other bit 0. -/
def Status.word (f : Status) : Word :=
  BitVec.ofNat 32 (f.busy.toNat + 2 ^ 4 * f.err.code.toNat + 2 ^ 8 * f.undef.toNat + 2 ^ 9 * f.ovr.toNat)

/-- An accepted `CMD` write sets `BUSY` (R16). -/
def Status.start (f : Status) : Status := { f with busy := true }

/-- The end of a command clears `BUSY` and writes `ERR` (R17, R107). -/
def Status.finish (f : Status) (e : Err) : Status := { f with busy := false, err := e }

/-- `UNDEF` is sticky: a command with undefined source behaviour sets it (R17, R113). -/
def Status.setUndef (f : Status) : Status := { f with undef := true }

/-- `OVR` is sticky: a `CMD` write while busy sets it (R16, R113). -/
def Status.setOvr (f : Status) : Status := { f with ovr := true }

end Sys2Proof.Machine
end

