-- ==== Sys2Proof/Machine/Float64.lean ====
section
/-! DEFINITION. IEEE-754 binary64 arithmetic (R10, R63 to R67): exact integer computation, then one rounding to nearest, ties to even.
A finite magnitude is counted in UNITS of 2^-1074, the smallest subnormal, so every finite value is a whole number of units. -/

namespace Sys2Proof.Machine

/-- The number of units in 1.0. -/
def unitsPerOne : Nat := 2 ^ 1074

/-- Bits 62:52 (R63). -/
def expField (x : F64) : Nat := x.toNat / 2 ^ 52 % 2 ^ 11

/-- Bits 51:0 (R63). -/
def fracField (x : F64) : Nat := x.toNat % 2 ^ 52

/-- Bit 63 (R63). -/
def signBit (x : F64) : Bool := decide (2 ^ 63 ≤ x.toNat)

/-- Any NaN (R10). -/
def isNaN (x : F64) : Bool := decide (expField x = 2047 ∧ fracField x ≠ 0)

/-- Either infinity. -/
def isInf (x : F64) : Bool := decide (expField x = 2047 ∧ fracField x = 0)

/-- Neither NaN nor infinity. -/
def isFinite (x : F64) : Bool := decide (expField x ≠ 2047)

/-- Either zero: the IEEE comparison with 0 (R92). -/
def isZero (x : F64) : Bool := decide (x.toNat % 2 ^ 63 = 0)

/-- The units of a finite encoding magnitude (bits 62:0): subnormals count their fraction, normals carry the hidden bit (R66: no flush to zero). -/
def unitsOfBits (b : Nat) : Nat :=
  if b < 2 ^ 52 then b else (2 ^ 52 + b % 2 ^ 52) * 2 ^ (b / 2 ^ 52 - 1)

/-- The magnitude of a finite value in units. -/
def magUnits (x : F64) : Nat := unitsOfBits (x.toNat % 2 ^ 63)

/-- A finite value in units, with its sign. -/
def toUnits (x : F64) : Int := if signBit x then -(magUnits x : Int) else (magUnits x : Int)

/-- The rational number a finite encoding stands for. -/
def toRat (x : F64) : Rat := (toUnits x : Rat) / (unitsPerOne : Rat)

/-- The magnitude bits of positive infinity. -/
def infBits : Nat := 2047 * 2 ^ 52

/-- The magnitude bits of `num/den` units rounded to nearest, ties to even (R64); overflow gives infinity (R66). -/
def roundBits (num den : Nat) : Nat :=
  let k := Nat.log2 (num / den) - 52
  let d := den * 2 ^ k
  let q := num / d
  let r := num % d
  let up := if d < 2 * r then 1 else if 2 * r = d then q % 2 else 0
  min (k * 2 ^ 52 + (q + up)) infBits

/-- An encoding from a sign and magnitude bits. -/
def packF64 (neg : Bool) (bits : Nat) : F64 := BitVec.ofNat 64 ((if neg then 2 ^ 63 else 0) + bits)

/-- A NaN whose sign and payload are the free value `d` (R65, U6); the payload is never zero, since that would be an infinity. -/
def nanOf (d : BitVec 64) : F64 :=
  packF64 (signBit d) (infBits + (if fracField d = 0 then 1 else fracField d))

/-- `fneg`: flips the sign bit, also of a NaN (R10, R65). -/
def fneg (x : F64) : F64 := x ^^^ negZero

/-- `fadd` (R10, R64 to R66); `d` is the free value a NaN result is made of. -/
def fadd (d : BitVec 64) (x y : F64) : F64 :=
  if isNaN x || isNaN y then nanOf d
  else if isInf x then (if isInf y && signBit x != signBit y then nanOf d else x)
  else if isInf y then y
  else
    let t := toUnits x + toUnits y
    if t = 0 then packF64 (signBit x && signBit y) 0
    else packF64 (decide (t < 0)) (roundBits t.natAbs 1)

/-- `fsub` (R10): IEEE-754 subtraction is the addition of the negated operand. -/
def fsub (d : BitVec 64) (x y : F64) : F64 := fadd d x (fneg y)

/-- `fmul` (R10, R64 to R66). -/
def fmul (d : BitVec 64) (x y : F64) : F64 :=
  let neg := signBit x != signBit y
  if isNaN x || isNaN y then nanOf d
  else if isInf x || isInf y then (if isZero x || isZero y then nanOf d else packF64 neg infBits)
  else packF64 neg (roundBits (magUnits x * magUnits y) unitsPerOne)

/-- `fdiv` (R10, R64 to R66). -/
def fdiv (d : BitVec 64) (x y : F64) : F64 :=
  let neg := signBit x != signBit y
  if isNaN x || isNaN y then nanOf d
  else if isInf x then (if isInf y then nanOf d else packF64 neg infBits)
  else if isInf y then packF64 neg 0
  else if isZero y then (if isZero x then nanOf d else packF64 neg infBits)
  else packF64 neg (roundBits (magUnits x * unitsPerOne) (magUnits y))

/-- `f64(n)`: the binary64 value of a natural number (R10). -/
def f64 (n : Nat) : F64 := packF64 false (roundBits (n * unitsPerOne) 1)

end Sys2Proof.Machine
end

