-- ==== Sys2Proof/Machine/Numerics.lean ====
section
/-! DEFINITION. The utility functions (R69 to R72), the complex multiplier (R73, R74), the twiddle-ROM read (R75) and the modulus (R76). -/

namespace Sys2Proof.Machine

/-- `isPowerOfTwo` (R69). -/
def isPowerOfTwo (v : Nat) : Bool := decide (v ≠ 0 ∧ v &&& (v - 1) = 0)

/-- `nextPowerOfTwo` (R70): the smallest `2^k` that is at least `v`. -/
def nextPowerOfTwo (v : Nat) : Nat := if v ≤ 1 then 1 else 2 ^ (Nat.log2 (v - 1) + 1)

/-- `log2` (R71): the number of right shifts that take `v` to 1. -/
def log2 (v : Nat) : Nat := Nat.log2 v

/-- `reverseBits` (R72): bit `b` of `v` goes to bit `bits - 1 - b`. For `v >= 2^bits`, which no command reaches and U18 leaves open, the
higher bits of `v` are dropped (log 27: DESIGN CHOICE, safe). -/
def reverseBits (v : Nat) : Nat → Nat
  | 0 => 0
  | bits + 1 => v % 2 * 2 ^ bits + reverseBits (v / 2) bits

/-- `cadd` (R10). -/
def cadd (κ : Draws) (a b : Cplx) : Cplx :=
  { re := fadd (κ [0]) a.re b.re, im := fadd (κ [1]) a.im b.im }

/-- `csub` (R10). -/
def csub (κ : Draws) (a b : Cplx) : Cplx :=
  { re := fsub (κ [0]) a.re b.re, im := fsub (κ [1]) a.im b.im }

/-- `cmul`, the complex multiplier (R73): four products, one difference, one sum, each rounded; no infinity recovery. -/
def cmul (κ : Draws) (a b : Cplx) : Cplx :=
  { re := fsub (κ [0]) (fmul (κ [1]) a.re b.re) (fmul (κ [2]) a.im b.im)
    im := fadd (κ [3]) (fmul (κ [4]) a.re b.im) (fmul (κ [5]) a.im b.re) }

/-- `conjtw`, the butterfly's conjugate-twiddle product (R74). -/
def conjtw (κ : Draws) (a : Cplx) (t : Twiddle) : Cplx :=
  { re := fadd (κ [0]) (fmul (κ [1]) a.re t.c) (fmul (κ [2]) a.im t.s)
    im := fadd (κ [3]) (fmul (κ [4]) (fneg a.re) t.s) (fmul (κ [5]) a.im t.c) }

/-- A complex value with its imaginary part negated (R84 step 1). -/
def conjC (a : Cplx) : Cplx := { re := a.re, im := fneg a.im }

/-- `TW(N, k)`, the twiddle-ROM read (R27, R75): entry 0 is `(1.0, +0.0)` in every ROM, the others are the device's. -/
def romEntry (u : Units) (N k : Nat) : Twiddle :=
  if k = 0 then { c := oneF64, s := posZero } else u.tw N k

/-- The integer square root of `v < 4^bits`, digit by digit. -/
def isqrt (v : Nat) : Nat → Nat
  | 0 => 0
  | bits + 1 =>
    let r := 2 * isqrt (v / 4) bits
    if (r + 1) * (r + 1) ≤ v then r + 1 else r

/-- The magnitude bits of `sqrt s` units rounded to nearest, ties to even, for a square `s` of units. -/
def roundSqrtBits (s : Nat) : Nat :=
  let k := Nat.log2 s / 2 - 52
  let q := isqrt (s / 4 ^ k) 54
  let mid := (2 * q + 1) * 2 ^ k
  let up := if mid * mid < 4 * s then 1 else if mid * mid = 4 * s then q % 2 else 0
  min (k * 2 ^ 52 + (q + up)) infBits

/-- `HYPOT_REF` on finite operands (R76): the correctly rounded root of the exact sum of squares. -/
def hypotRef (x y : F64) : F64 :=
  packF64 false (roundSqrtBits (magUnits x * magUnits x + magUnits y * magUnits y))

/-- The units of one ulp at a finite encoding magnitude: the distance to the next larger encoding. -/
def ulpUnits (bits : Nat) : Nat := 2 ^ (bits / 2 ^ 52 - 1)

/-- `HYPOT_OK` for one result on finite operands (R76): not negative, not a NaN, and within 1 ulp of the root of the sum of squares.
One ulp is the distance to the next larger encoding, and infinity counts as the value one ulp above the largest finite one (log 3:
DEDUCED). -/
def hypotOk (x y r : F64) : Bool :=
  let s := magUnits x * magUnits x + magUnits y * magUnits y
  if signBit r || isNaN r then false
  else if isInf r then
    let m := unitsOfBits (infBits - 1)
    decide (m * m ≤ s)
  else
    let m := magUnits r
    let e := ulpUnits (r.toNat % 2 ^ 63)
    decide ((m - e) * (m - e) ≤ s ∧ s ≤ (m + e) * (m + e))

/-- `HYPOT` (R76): an infinite operand gives `+Inf` even beside a NaN; else a NaN operand gives a NaN; else the device's
modulus, which is within `HYPOT_OK`. -/
def modulus (u : Units) (d : BitVec 64) (x y : F64) : F64 :=
  if isInf x || isInf y then posInf
  else if isNaN x || isNaN y then nanOf d
  else if hypotOk x y (u.hypot x y) then u.hypot x y else hypotRef x y

end Sys2Proof.Machine
end

