-- ==== Sys2Proof/Machine/Operands.lean ====
section
/-! DEFINITION. What a command reads beside memory: the latched arguments (R19, R57), the device's parameters as its capability
registers show them (R20, R21), and the range checks of the buffers it names (R44). -/

namespace Sys2Proof.Machine

/-- `zext(A[i])`: a latched argument as an unsigned number (R57). -/
def State.arg (s : State) (i : Fin 5) : Nat := s.args[i].toNat

/-- `s32(A[i])`: a latched argument as a two's-complement number (R57). -/
def State.argSigned (s : State) (i : Fin 5) : Int := s.args[i].toInt

/-- `NMAX` (R20). -/
def Caps.nmax (c : Caps) : Nat := 2 ^ c.nmaxLog2.toNat

/-- `NCTX` (R20). -/
def Caps.nctx (c : Caps) : Nat := c.nctxLast.toNat + 1

/-- `DMEM_WORDS` (R21). -/
def Caps.dmemWords (c : Caps) : Nat := c.dmemLast.toNat + 1

/-- The ranges of the device's parameters (R6). -/
def Caps.legal (c : Caps) : Bool :=
  decide (8 ≤ c.nmaxLog2.toNat ∧ 1 ≤ c.nctxLast.toNat ∧ 11 ≤ c.mmax.toNat ∧ 33 ≤ c.kmax.toNat)

/-- `InRangeReal(base, n)` (R44). -/
def inRangeReal (s : State) (base n : Nat) : Bool := decide (n = 0 ∨ base + n ≤ s.caps.dmemWords)

/-- `InRangeComplex(base, n)` (R44). -/
def inRangeComplex (s : State) (base n : Nat) : Bool := decide (n = 0 ∨ base + 2 * n ≤ s.caps.dmemWords)

end Sys2Proof.Machine
end

