-- ==== Sys2Proof/Machine/Ops.lean ====
section
/-! DEFINITION. The named operations: data memory by byte and by word, buffer transfer (R79), contexts, the two ways a command ends
(R107), latching a command (R16, R19) and reset (R119 to R121). -/

namespace Sys2Proof.Machine

/-- One step's answer. -/
abbrev Answer := Host.Outcome State Fault Refusal

/-! Data memory. -/

/-- One byte of the host's byte view, if it holds a value. -/
def Memory.get : Memory → Nat → Option Byte
  | [], _ => none
  | (k, b) :: rest, a => if a = k then some b else Memory.get rest a

/-- Writes one byte and keeps the addresses rising. -/
def Memory.put : Memory → Nat → Byte → Memory
  | [], a, b => [(a, b)]
  | (k, c) :: rest, a, b =>
    if a < k then (a, b) :: (k, c) :: rest
    else if a = k then (a, b) :: rest
    else (k, c) :: Memory.put rest a b

/-- The bytes at `a .. a+n-1`, if each of them holds a value. -/
def Memory.getBytes (m : Memory) (a : Nat) : Nat → Option (List Byte)
  | 0 => some []
  | n + 1 =>
    match m.get a, Memory.getBytes m (a + 1) n with
    | some b, some bs => some (b :: bs)
    | _, _ => none

/-- Writes bytes at `a, a+1, …`. -/
def Memory.putBytes (m : Memory) (a : Nat) : List Byte → Memory
  | [] => m
  | b :: bs => Memory.putBytes (m.put a b) (a + 1) bs

/-- The number of little-endian bytes (R40). -/
def natOfBytes : List Byte → Nat
  | [] => 0
  | b :: bs => b.toNat + 256 * natOfBytes bs

/-- The low `n` bytes of a number, least significant first (R40). -/
def bytesOfNat (v : Nat) : Nat → List Byte
  | 0 => []
  | n + 1 => BitVec.ofNat 8 v :: bytesOfNat (v / 256) n

/-- `MemRead(addr, 1)` (R9): the word at a word address, if it holds a value (R34). -/
def Memory.read (m : Memory) (addr : Nat) : Option F64 :=
  match m.getBytes (8 * addr) 8 with
  | some bs => some (BitVec.ofNat 64 (natOfBytes bs))
  | none => none

/-- `MemWrite(addr, 1, v)` (R9). -/
def Memory.write (m : Memory) (addr : Nat) (v : F64) : Memory :=
  m.putBytes (8 * addr) (bytesOfNat v.toNat 8)

/-- A complex element: its real word, then its imaginary word (R38). -/
def Memory.readC (m : Memory) (addr : Nat) : Option Cplx :=
  match m.read addr, m.read (addr + 1) with
  | some re, some im => some { re := re, im := im }
  | _, _ => none

/-- Writes a complex element: its real word, then its imaginary word (R38). -/
def Memory.writeC (m : Memory) (addr : Nat) (z : Cplx) : Memory := (m.write addr z.re).write (addr + 1) z.im

/-- `LoadR(base, n)` (R79). -/
def loadR (m : Memory) (base : Nat) : Nat → Option (List F64)
  | 0 => some []
  | n + 1 =>
    match m.read base, loadR m (base + 1) n with
    | some x, some xs => some (x :: xs)
    | _, _ => none

/-- `StoreR(base, n, r)` (R79). -/
def storeR (m : Memory) (base : Nat) : List F64 → Memory
  | [] => m
  | x :: xs => storeR (m.write base x) (base + 1) xs

/-- `LoadC(base, n)` (R79). -/
def loadC (m : Memory) (base : Nat) : Nat → Option (List Cplx)
  | 0 => some []
  | n + 1 =>
    match m.readC base, loadC m (base + 2) n with
    | some z, some zs => some (z :: zs)
    | _, _ => none

/-- `StoreC(base, n, v)` (R79). -/
def storeC (m : Memory) (base : Nat) : List Cplx → Memory
  | [] => m
  | z :: zs => storeC (m.writeC base z) (base + 2) zs

/-! Contexts. -/

/-- Context `x` (R28). -/
def State.ctx (s : State) (x : Nat) : Context := s.ctxs[x]?.getD Context.blank

/-- Replaces context `x`. -/
def State.setCtx (s : State) (x : Nat) (c : Context) : State := { s with ctxs := s.ctxs.setIfInBounds x c }

/-! The end of a command. Every command is one drawing event, so its end advances the counter. -/

/-- A command ends (R107): `ERR` is written and `BUSY` cleared. -/
def State.finish (s : State) (e : Err) : State := { s with status := s.status.finish e, draws := s.draws + 1 }

/-- A command ends in success: `STATUS.ERR <- 0` (R107). -/
def State.succeed (s : State) : Answer := .next (s.finish .ok)

/-- `raise E` (R9, R107): the block's whole trap mechanism. The command ends with the error's code and no other effect; no state is
saved, no mode changes, control goes nowhere, and nothing returns from it. -/
def State.raise (s : State) (e : Err) : Answer := .next (s.finish e)

/-- The free values of the command that runs in `s`. -/
def State.supply (s : State) (u : Units) : Draws := u.supply s.draws

/-! Starting a command. -/

/-- An accepted `CMD` write (R16, R19): latches the command word and the arguments and sets `BUSY`. -/
def State.latch (s : State) (w : Word) : State :=
  { s with status := s.status.start, cmd := w, args := s.a }

/-- The pending accesses of the outside world, the first of them no longer early. -/
def settled : List HostEvent → List HostEvent
  | [] => []
  | e :: rest => { e with early := false } :: rest

/-! Reset. -/

/-- The state of R36, which a reset gives: only the data memory, the constants of the device and the outside world's own fields stay. -/
def State.resetBlock (s : State) : State :=
  { s with
    status := Status.reset
    a := Vector.replicate 5 0
    csel := 0
    cmd := 0
    args := Vector.replicate 5 0
    ctxs := Vector.replicate 16 Context.blank }

/-- Writes free values to `n` words from `base` (R120): word `j` gets the value at position `[j]`. -/
def scramble (κ : Draws) (m : Memory) (base : Nat) : Nat → Nat → Memory
  | 0, _ => m
  | n + 1, j => scramble κ (m.write (base + j) (κ [j])) base n (j + 1)

end Sys2Proof.Machine
end

