-- ==== Sys2Proof/Machine/Fft.lean ====
section
/-! DEFINITION. The FFT engine: the bit-reversal permutation (R80), the butterfly network (R82), the inverse (R84), the magnitudes
(R86), and the commands `BITREV`, `FFT_FWD`, `FFT_INV` and `FFT_MAG` (R81, R83, R85, R87). -/

namespace Sys2Proof.Machine

/-! The transforms as functions on sequences. -/

/-- Swaps elements `i` and `j` (R80). -/
def swapAt {α : Type} (v : List α) (i j : Nat) : List α :=
  match v[i]?, v[j]? with
  | some a, some b => (v.set i b).set j a
  | _, _ => v

/-- `reorder(v)` (R80): only the member of a pair with the smaller index swaps. -/
def reorder {α : Type} (v : List α) : List α :=
  let bits := log2 v.length
  (List.range v.length).foldl (fun w i => let r := reverseBits i bits; if i < r then swapAt w i r else w) v

/-- One butterfly on elements `j` and `l` (R82): `bf` gives the new values of both from the old ones. -/
def butterflyAt {α : Type} (bf : α → α → α × α) (v : List α) (j l : Nat) : List α :=
  match v[j]?, v[l]? with
  | some a, some b => let p := bf a b; (v.set l p.2).set j p.1
  | _, _ => v

/-- The pass of butterflies of size `2^(p+1)` (R82 step 5): sub-blocks ascend, and `j` ascends within a sub-block. `bf k path` is
the butterfly at ROM index `k`; `path` names its position. -/
def fwdPass {α : Type} (bf : Nat → List Nat → α → α → α × α) (n p : Nat) (v : List α) : List α :=
  let half := 2 ^ p
  let size := 2 * half
  let step := n / size
  (List.range (n / size)).foldl
    (fun w b => (List.range half).foldl
      (fun w t => let j := b * size + t; butterflyAt (bf (t * step) [p, j]) w j (j + half)) w) v

/-- The forward pipeline of R82 over any butterfly: the length-2 quirk, the bit reversal, then the passes in ascending size. -/
def fwdNetwork {α : Type} (bf : Nat → List Nat → α → α → α × α) (v : List α) : List α :=
  let n := v.length
  if n = 2 then v
  else (List.range (log2 n)).foldl (fun w p => fwdPass bf n p w) (reorder v)

/-- The butterfly of R82: `tw` is the conjugate-twiddle product, and the pair becomes `(v[j] + tw, v[j] - tw)`. -/
def butterfly (κ : Draws) (t : Twiddle) (vj vl : Cplx) : Cplx × Cplx :=
  let tw := conjtw (κ.sub 0) vl t
  (cadd (κ.sub 1) vj tw, csub (κ.sub 2) vj tw)

/-- `fwd(v)` (R82). -/
def fwd (u : Units) (κ : Draws) (v : List Cplx) : List Cplx :=
  fwdNetwork (fun k path => butterfly (fun q => κ (path ++ q)) (romEntry u v.length k)) v

/-- `inv(v)` (R84): conjugate, run the forward pipeline, divide by `n` and zero the imaginary parts. -/
def inv (u : Units) (κ : Draws) (v : List Cplx) : List Cplx :=
  let n := v.length
  (fwd u (κ.sub 0) (v.map conjC)).mapIdx (fun t z => { re := fdiv (κ [1, t]) z.re (f64 n), im := posZero })

/-! The commands. -/

/-- The first failing check of `BITREV` (R81, R110). -/
def checkBitrev (s : State) : Option Err :=
  let n := s.arg 1
  if !isPowerOfTwo n then some .invalidLength
  else if s.caps.nmax < n then some .capacityExceeded
  else if !inRangeComplex s (s.arg 0) n then some .addressRange
  else none

/-- `BITREV` (R81): values are moved, never computed. -/
def bitrev (s : State) : Answer :=
  match checkBitrev s with
  | some e => s.raise e
  | none =>
    match loadC s.dmem (s.arg 0) (s.arg 1) with
    | some v => State.succeed { s with dmem := storeC s.dmem (s.arg 0) (reorder v) }
    | none => .fault .unwrittenWord

/-- The first failing check of `FFT_FWD` (R83, R110): `n = 2` succeeds before every other check. -/
def checkFftFwd (s : State) : Option Err :=
  let n := s.arg 1
  if n = 2 then none
  else if !isPowerOfTwo n then some .invalidLength
  else if s.caps.nmax < n then some .capacityExceeded
  else if !inRangeComplex s (s.arg 0) n then some .addressRange
  else none

/-- `FFT_FWD` (R83): with `n = 2` there is no access at all. -/
def fftFwd (u : Units) (s : State) : Answer :=
  match checkFftFwd s with
  | some e => s.raise e
  | none =>
    if s.arg 1 = 2 then s.succeed
    else match loadC s.dmem (s.arg 0) (s.arg 1) with
      | some v => State.succeed { s with dmem := storeC s.dmem (s.arg 0) (fwd u (s.supply u) v) }
      | none => .fault .unwrittenWord

/-- The first failing check of `FFT_INV` (R85, R110). -/
def checkFftInv (s : State) : Option Err :=
  let n := s.arg 1
  if n ≠ 2 && !isPowerOfTwo n then some .invalidLength
  else if s.caps.nmax < n then some .capacityExceeded
  else if !inRangeComplex s (s.arg 0) n then some .addressRange
  else none

/-- `FFT_INV` (R85). -/
def fftInv (u : Units) (s : State) : Answer :=
  match checkFftInv s with
  | some e => s.raise e
  | none =>
    match loadC s.dmem (s.arg 0) (s.arg 1) with
    | some v => State.succeed { s with dmem := storeC s.dmem (s.arg 0) (inv u (s.supply u) v) }
    | none => .fault .unwrittenWord

/-- One scaled magnitude of a buffer of `n` elements (R86). -/
def scaledMag (u : Units) (κ : Draws) (n : Nat) (x y : F64) : F64 :=
  fdiv (κ [0]) (modulus u (κ [1]) x y) (f64 n)

/-- The body of `FFT_MAG` from element `t` for `k` more elements of `n` (R87): element `t` is read before word `dbase + t` is written. -/
def magLoop (u : Units) (κ : Draws) (dbase sbase n : Nat) : Nat → Nat → Memory → Option Memory
  | 0, _, m => some m
  | k + 1, t, m =>
    match m.read (sbase + 2 * t), m.read (sbase + 2 * t + 1) with
    | some x, some y => magLoop u κ dbase sbase n k (t + 1) (m.write (dbase + t) (scaledMag u (κ.sub t) n x y))
    | _, _ => none

/-- The first failing check of `FFT_MAG` (R87, R110). -/
def checkFftMag (s : State) : Option Err :=
  if s.arg 1 ≠ s.arg 3 then some .lengthMismatch
  else if !(inRangeReal s (s.arg 0) (s.arg 1) && inRangeComplex s (s.arg 2) (s.arg 3)) then some .addressRange
  else none

/-- `FFT_MAG` (R87). -/
def fftMag (u : Units) (s : State) : Answer :=
  match checkFftMag s with
  | some e => s.raise e
  | none =>
    match magLoop u (s.supply u) (s.arg 0) (s.arg 2) (s.arg 3) (s.arg 3) 0 s.dmem with
    | some m => State.succeed { s with dmem := m }
    | none => .fault .unwrittenWord

/-- The meaning of `BITREV`. -/
def execBitrev (s : State) : Answer := bitrev s

/-- The meaning of `FFT_FWD` on this device. -/
def execFftFwd (s : State) : Answer := fftFwd Config.units s

/-- The meaning of `FFT_INV` on this device. -/
def execFftInv (s : State) : Answer := fftInv Config.units s

/-- The meaning of `FFT_MAG` on this device. -/
def execFftMag (s : State) : Answer := fftMag Config.units s

end Sys2Proof.Machine
end

