-- ==== Sys2Proof/Machine/Convolver.lean ====
section
/-! DEFINITION. The convolver: the partition planner (R89, R90), the impulse-segment loader (R92), and the commands `CONV_NEW`,
`CONV_SETIR` and `CONV_RUN` (R93 to R102). -/

namespace Sys2Proof.Machine

/-! The partition planner. -/

/-- `F` of a block size (R89). -/
def planF (B : Nat) : Nat := if B ≤ 128 then 4 * B else 2 * B

/-- `M` of an impulse response of `L'` samples (R90). -/
def planM (SEG L' : Nat) : Nat := L' / SEG + 1

/-- `K` (R90). -/
def planK (B M : Nat) : Nat := if 128 < B then M else 3 * M

/-- `L'` (R90): longer impulse responses are truncated. -/
def truncatedIr (L : Nat) : Nat := min L maxIr

/-! The impulse-segment loader. -/

/-- The time-domain cell `t` of impulse segment `i` (R92): the direct-path marker or zero, overwritten by the coefficient that
belongs there, with `+0.0` for a NaN; under `MARKER_RESIDUAL` a zero first coefficient leaves the marker. -/
def irCell (u : Units) (h : List F64) (SEG i t : Nat) : Cplx :=
  let before : Cplx := if i = 0 ∧ t = 0 then { re := oneF64, im := posZero } else zeroC
  if t < SEG then
    match h[t + i * SEG]? with
    | some x =>
      let x := if isNaN x then posZero else x
      if t + i * SEG == 0 && isZero x && u.markerResidual then before else { re := x, im := posZero }
    | none => before
  else before

/-- `loadImpulse` (R92) on the loaded samples `h = h[0 .. L'-1]`. -/
def loadImpulse (u : Units) (κ : Draws) (h : List F64) (SEG F M : Nat) : List (List Cplx) :=
  (List.range M).map (fun i => fwd u (κ.sub i) ((List.range F).map (irCell u h SEG i)))

/-- A ring of `K` zero segments of length `F` (R93, R94). -/
def zeroRing (F K : Nat) : List (List Cplx) := List.replicate K (List.replicate F zeroC)

/-! `CONV_NEW`. -/

/-- The block size `CONV_NEW` plans (R89). -/
def newB (s : State) : Nat := nextPowerOfTwo (s.arg 0)

/-- The segment count `CONV_NEW` plans (R90). -/
def newM (s : State) : Nat := planM (planF (newB s) - newB s) (truncatedIr (s.arg 4))

/-- The first failing check of `CONV_NEW` on context `x` (R93, R110). -/
def checkConvNew (x : Nat) (s : State) : Option Err :=
  let ch := s.argSigned 1
  let nch := s.argSigned 2
  if s.caps.nctx ≤ x then some .illegalCommand
  else if s.arg 0 = 0 then some .invalidBlockSize
  else if !decide (0 ≤ ch ∧ 1 ≤ nch ∧ ch < nch) then some .invalidChannel
  else if s.arg 4 = 0 then some .emptyImpulseResponse
  else if s.caps.nmax < planF (newB s) ∨ s.caps.mmax.toNat < newM s ∨ s.caps.kmax.toNat < planK (newB s) (newM s) then
    some .capacityExceeded
  else if !inRangeReal s (s.arg 3) (truncatedIr (s.arg 4)) then some .addressRange
  else none

/-- The context `CONV_NEW` makes from the loaded impulse response `h` (R93): the old contents do not matter. -/
def newContext (u : Units) (s : State) (h : List F64) : Context :=
  let B := newB s
  let F := planF B
  let M := newM s
  let K := planK B M
  { configured := true, B := B, F := F, SEG := F - B, M := M, K := K, STEP := K / M
    channel := (s.argSigned 1).toNat, numChannels := (s.argSigned 2).toNat
    inputBuf := List.replicate F posZero, overlapBuf := List.replicate F posZero
    outputBuf := List.replicate F zeroC, tempBuf := List.replicate F zeroC
    impulseSegments := loadImpulse u (s.supply u) h (F - B) F M
    inputSegments := zeroRing F K, inputPos := 0, inputSegmentPos := 0 }

/-- `CONV_NEW` on context `x` (R93). -/
def convNew (u : Units) (x : Nat) (s : State) : Answer :=
  match checkConvNew x s with
  | some e => s.raise e
  | none =>
    match loadR s.dmem (s.arg 3) (truncatedIr (s.arg 4)) with
    | some h => (s.setCtx x (newContext u s h)).succeed
    | none => .fault .unwrittenWord

/-! `CONV_SETIR`. -/

/-- The segment count of the new impulse response on context `c` (R94). -/
def setirM (s : State) (c : Context) : Nat := planM c.SEG (truncatedIr (s.arg 4))

/-- The first failing check of `CONV_SETIR` on context `x` (R94, R110). -/
def checkConvSetir (x : Nat) (s : State) : Option Err :=
  let c := s.ctx x
  if s.caps.nctx ≤ x then some .illegalCommand
  else if !c.configured then some .notConfigured
  else if s.arg 4 = 0 then some .emptyImpulseResponse
  else if s.caps.mmax.toNat < setirM s c ∨ s.caps.kmax.toNat < planK c.B (setirM s c) then some .capacityExceeded
  else if !inRangeReal s (s.arg 3) (truncatedIr (s.arg 4)) then some .addressRange
  else none

/-- The context `CONV_SETIR` leaves (R94): the segments, the ring and the positions are new, everything else stays. -/
def setirContext (u : Units) (s : State) (c : Context) (h : List F64) : Context :=
  let M := setirM s c
  let K := planK c.B M
  { c with
    M := M, K := K, STEP := K / M
    impulseSegments := loadImpulse u (s.supply u) h c.SEG c.F M
    inputSegments := zeroRing c.F K, inputPos := 0, inputSegmentPos := 0 }

/-- In a partial block `CONV_SETIR` sets the sticky `UNDEF` (R94, R113). -/
def markPartialBlock (s : State) (c : Context) : State :=
  if c.inputPos = 0 then s else { s with status := s.status.setUndef }

/-- `CONV_SETIR` on context `x` (R94): in a partial block too it has its effect (log 15: DEDUCED). -/
def convSetir (u : Units) (x : Nat) (s : State) : Answer :=
  match checkConvSetir x s with
  | some e => s.raise e
  | none =>
    match loadR s.dmem (s.arg 3) (truncatedIr (s.arg 4)) with
    | some h => ((markPartialBlock s (s.ctx x)).setCtx x (setirContext u s (s.ctx x) h)).succeed
    | none => .fault .unwrittenWord

/-! `CONV_RUN`. -/

/-- The buffers of a `CONV_RUN` (R95). -/
structure RunArgs where
  outbase : Nat
  outlen : Nat
  inbase : Nat
  inlen : Nat
  ns : Nat
deriving DecidableEq, Repr

/-- The index in `in` and in `out` of lane sample `t` (R97, R101; the lost term of the source is zero by C2, log 19). -/
def laneIndex (c : Context) (t : Nat) : Nat := c.channel + t * c.numChannels

/-- Step 2 (R97): the `k` lane samples from number `t` on; an index beyond `in` reads as `+0.0`. -/
def gather (a : RunArgs) (c : Context) (m : Memory) : Nat → Nat → Option (List F64)
  | 0, _ => some []
  | k + 1, t =>
    let x := if laneIndex c t < a.inlen then m.read (a.inbase + laneIndex c t) else some posZero
    match x, gather a c m k (t + 1) with
    | some x, some xs => some (x :: xs)
    | _, _ => none

/-- Writes values at `pos, pos+1, …` of a buffer. -/
def writeAt {α : Type} (buf : List α) (pos : Nat) : List α → List α
  | [] => buf
  | x :: xs => writeAt (buf.set pos x) (pos + 1) xs

/-- The frequency-domain multiply-accumulate `acc[k] + a[k]·b[k]` (R99, R100): the accumulator is on the left. -/
def macSegment (κ : Draws) (acc a b : List Cplx) : List Cplx :=
  acc.mapIdx (fun k z => cadd ((κ.sub k).sub 0) z (cmul ((κ.sub k).sub 1) (a.getD k zeroC) (b.getD k zeroC)))

/-- Step 4 (R99): the tail sum over impulse segments `1 .. M-1`. Segment `i` meets the ring slot `i·STEP` after the newest. -/
def tailSum (κ : Draws) (c : Context) (ring : List (List Cplx)) : List Cplx :=
  (List.range (c.M - 1)).foldl
    (fun acc j =>
      let i := j + 1
      macSegment (κ.sub i) acc (ring.getD ((c.inputSegmentPos + i * c.STEP) % c.K) []) (c.impulseSegments.getD i []))
    (List.replicate c.F zeroC)

/-- Steps 2 to 6 (R97 to R100) on a context, with the gathered samples. -/
def transformBlock (u : Units) (κ : Draws) (c : Context) (samples : List F64) : Context :=
  let inputBuf := writeAt c.inputBuf c.inputPos samples
  let spectrum := fwd u (κ.sub 0) (inputBuf.map (fun x => { re := x, im := posZero }))
  let ring := c.inputSegments.set c.inputSegmentPos spectrum
  let tempBuf := if c.inputPos = 0 then tailSum (κ.sub 1) c ring else c.tempBuf
  let sum := macSegment (κ.sub 2) tempBuf (ring.getD c.inputSegmentPos []) (c.impulseSegments.getD 0 [])
  { c with inputBuf := inputBuf, inputSegments := ring, tempBuf := tempBuf, outputBuf := inv u (κ.sub 3) sum }

/-- One output sample (R101): the block's sample plus the saved tail. -/
def outSample (κ : Draws) (c : Context) (pos : Nat) : F64 :=
  fadd (κ [pos]) (c.outputBuf.getD pos zeroC).re (c.overlapBuf.getD pos posZero)

/-- Step 7 (R101): emits `k` samples from position `pos`, which is lane sample `t`; an index beyond `out` is dropped. -/
def emit (κ : Draws) (a : RunArgs) (c : Context) : Nat → Nat → Nat → Memory → Memory
  | 0, _, _, m => m
  | k + 1, pos, t, m =>
    let m := if laneIndex c t < a.outlen then m.write (a.outbase + laneIndex c t) (outSample κ c pos) else m
    emit κ a c k (pos + 1) (t + 1) m

/-- Step 9.2 (R102): the overlap beyond the block end is added to the real parts of `outputBuf[B .. F-B-1]`. -/
def addDeferred (κ : Draws) (c : Context) : List Cplx :=
  c.outputBuf.mapIdx (fun i z =>
    if c.B ≤ i ∧ i < c.F - c.B then { re := fadd (κ [i]) z.re (c.overlapBuf.getD i posZero), im := z.im } else z)

/-- Steps 8 and 9 (R102): `inputPos` advances by `cnt`; at the block boundary the overlap is saved and the ring steps back. -/
def advance (κ : Draws) (c : Context) (cnt : Nat) : Context :=
  if c.inputPos + cnt = c.B then
    let out := addDeferred κ c
    { c with
      inputPos := 0
      inputBuf := List.replicate c.F posZero
      outputBuf := out
      overlapBuf := writeAt c.overlapBuf 0 ((List.range (c.F - c.B)).map (fun t => (out.getD (c.B + t) zeroC).re))
      inputSegmentPos := (c.inputSegmentPos + c.K - 1) % c.K }
  else { c with inputPos := c.inputPos + cnt }

/-- The samples one pass processes (R96, step 1). -/
def passCount (a : RunArgs) (c : Context) (nsp : Nat) : Nat := min (a.ns - nsp) (c.B - c.inputPos)

/-- One pass of the outer loop (R95 steps 1 to 9), if every input word it reads holds a value. -/
def convPass (u : Units) (κ : Draws) (a : RunArgs) (c : Context) (m : Memory) (nsp : Nat) : Option (Context × Memory) :=
  let cnt := passCount a c nsp
  match gather a c m cnt nsp with
  | none => none
  | some samples =>
    let c1 := transformBlock u (κ.sub 0) c samples
    let m1 := emit (κ.sub 1) a c1 cnt c1.inputPos nsp m
    some (advance (κ.sub 2) c1 cnt, m1)

/-- The outer loop from sample `nsp` on (R95, R96). Every pass consumes at least one sample, so `ns` passes are enough (R130); a
pass that would consume none would repeat for ever (log 16: DESIGN CHOICE). -/
def convLoop (u : Units) (κ : Draws) (a : RunArgs) : Nat → Nat → Context → Memory → Except Fault (Context × Memory)
  | 0, nsp, c, m => if nsp < a.ns then .error .endlessLoop else .ok (c, m)
  | fuel + 1, nsp, c, m =>
    if nsp < a.ns then
      match convPass u (κ.sub nsp) a c m nsp with
      | some (c', m') => convLoop u κ a fuel (nsp + passCount a c nsp) c' m'
      | none => .error .unwrittenWord
    else .ok (c, m)

/-- The buffers `CONV_RUN` names (R56). -/
def runArgs (s : State) : RunArgs :=
  { outbase := s.arg 0, outlen := s.arg 1, inbase := s.arg 2, inlen := s.arg 3, ns := s.arg 4 }

/-- The first failing check of `CONV_RUN` on context `x` (R95, R110). -/
def checkConvRun (x : Nat) (s : State) : Option Err :=
  if s.caps.nctx ≤ x then some .illegalCommand
  else if !(s.ctx x).configured then some .notConfigured
  else if !(inRangeReal s (s.arg 0) (s.arg 1) && inRangeReal s (s.arg 2) (s.arg 3)) then some .addressRange
  else none

/-- `CONV_RUN` on context `x` (R95). -/
def convRun (u : Units) (x : Nat) (s : State) : Answer :=
  match checkConvRun x s with
  | some e => s.raise e
  | none =>
    match convLoop u (s.supply u) (runArgs s) (s.arg 4) 0 (s.ctx x) s.dmem with
    | .ok (c, m) => (State.setCtx { s with dmem := m } x c).succeed
    | .error f => .fault f

/-- The meaning of `CONV_NEW` on this device. -/
def execConvNew (x : Nat) (s : State) : Answer := convNew Config.units x s

/-- The meaning of `CONV_SETIR` on this device. -/
def execConvSetir (x : Nat) (s : State) : Answer := convSetir Config.units x s

/-- The meaning of `CONV_RUN` on this device. -/
def execConvRun (x : Nat) (s : State) : Answer := convRun Config.units x s

end Sys2Proof.Machine
end

