-- ==== Sys2Proof/Machine/Utility.lean ====
section
/-! DEFINITION. `NOP` (R77) and `CMAC` (R78). For each command: the checks in the order of R110 (all before the first access, R111),
then its effect. -/

namespace Sys2Proof.Machine

/-- The body of `CMAC` from element `t` for `n` more elements (R78): each element is read in full before it is written. -/
def cmacLoop (κ : Draws) (accbase abase bbase : Nat) : Nat → Nat → Memory → Option Memory
  | 0, _, m => some m
  | n + 1, t, m =>
    match m.readC (abase + 2 * t), m.readC (bbase + 2 * t), m.readC (accbase + 2 * t) with
    | some a, some b, some acc =>
      let r := cadd ((κ.sub t).sub 0) acc (cmul ((κ.sub t).sub 1) a b)
      cmacLoop κ accbase abase bbase n (t + 1) (m.writeC (accbase + 2 * t) r)
    | _, _, _ => none

/-- The first failing check of `CMAC` (R78, R110). -/
def checkCmac (s : State) : Option Err :=
  let n := s.arg 3
  if !(inRangeComplex s (s.arg 0) n && inRangeComplex s (s.arg 1) n && inRangeComplex s (s.arg 2) n) then some .addressRange
  else none

/-- `CMAC` (R78). -/
def cmac (u : Units) (s : State) : Answer :=
  match checkCmac s with
  | some e => s.raise e
  | none =>
    match cmacLoop (s.supply u) (s.arg 0) (s.arg 1) (s.arg 2) (s.arg 3) 0 s.dmem with
    | some m => State.succeed { s with dmem := m }
    | none => .fault .unwrittenWord

/-- The meaning of `NOP` (R77): it only ends with `ERR = 0`. -/
def execNop (s : State) : Answer := s.succeed

/-- The meaning of `CMAC` on this device. -/
def execCmac (s : State) : Answer := cmac Config.units s

end Sys2Proof.Machine
end

