-- ==== Sys2Proof/Syntax.lean ====
section
/-! DEFINITION. The command set: one constructor per row of the opcode map (R53). The operands are not in the command word; only the
three convolver commands carry a field, their context index `CTX` (R52, R54). -/

namespace Sys2Proof

/-- The nine commands (R53). -/
inductive Instr where
  /-- `NOP`, 0x00 (R77). -/
  | nop
  /-- `BITREV`, 0x01 (R81). -/
  | bitrev
  /-- `FFT_FWD`, 0x02 (R83). -/
  | fftFwd
  /-- `FFT_INV`, 0x03 (R85). -/
  | fftInv
  /-- `FFT_MAG`, 0x04 (R87). -/
  | fftMag
  /-- `CMAC`, 0x05 (R78). -/
  | cmac
  /-- `CONV_NEW` on context `ctx`, 0x10 (R93). -/
  | convNew (ctx : Nat)
  /-- `CONV_SETIR` on context `ctx`, 0x11 (R94). -/
  | convSetir (ctx : Nat)
  /-- `CONV_RUN` on context `ctx`, 0x12 (R95). -/
  | convRun (ctx : Nat)
deriving DecidableEq, Repr

end Sys2Proof
end

