-- ==== Sys2Proof/Machine/Dispatch.lean ====
section
/-! DEFINITION. The sequencer's dispatch: one arm per command of the opcode map (R53), each a direct call of its meaning. -/

namespace Sys2Proof.Machine

def exec (i : Instr) (s : State) : Host.Outcome State Fault Refusal :=
  match i with
  | .nop => Sys2Proof.Machine.execNop s
  | .bitrev => Sys2Proof.Machine.execBitrev s
  | .fftFwd => Sys2Proof.Machine.execFftFwd s
  | .fftInv => Sys2Proof.Machine.execFftInv s
  | .fftMag => Sys2Proof.Machine.execFftMag s
  | .cmac => Sys2Proof.Machine.execCmac s
  | .convNew ctx => Sys2Proof.Machine.execConvNew ctx s
  | .convSetir ctx => Sys2Proof.Machine.execConvSetir ctx s
  | .convRun ctx => Sys2Proof.Machine.execConvRun ctx s

end Sys2Proof.Machine
end

