-- ==== Sys2Proof/WellFormed.lean ====
section
/-! DEFINITION. Which instruction terms have a command word: the context index must fit the four-bit field `CTX` (R52).
A context index that fits the field but is not below `NCTX` is well formed and illegal: its command raises `IllegalCommand` (R54, R58). -/

namespace Sys2Proof

/-- The context index fits `CTX[11:8]` (R52). -/
def ctxFits (ctx : Nat) : Bool := decide (ctx < 16)

/-- An instruction that a command word can express. -/
def Instr.wellFormed : Instr → Bool
  | .nop => true
  | .bitrev => true
  | .fftFwd => true
  | .fftInv => true
  | .fftMag => true
  | .cmac => true
  | .convNew ctx => ctxFits ctx
  | .convSetir ctx => ctxFits ctx
  | .convRun ctx => ctxFits ctx

end Sys2Proof
end

