-- ==== Sys2Proof/Decode.lean ====
section
/-! DEFINITION. Decoding a command word (R52 to R60), total on every word and every byte list, and the encoder written from the same map. -/

namespace Sys2Proof

/-- Why a command word is illegal whatever the device (R58); each of them raises `IllegalCommand`. -/
inductive DecodeError where
  /-- `RSV != 0` (R55). -/
  | reservedBits
  /-- `OPC` is not in the map of R53. -/
  | unassignedOpcode
  /-- `CTX != 0` on an opcode 0x00..0x05 (R54). -/
  | ctxNotZero
  /-- Fewer than the four bytes of a command word. -/
  | tooShort
deriving DecidableEq, Repr

/-- `OPC`, bits 7:0 (R52). -/
def opcField (w : Word) : Nat := w.toNat % 2 ^ 8

/-- `CTX`, bits 11:8 (R52). -/
def ctxField (w : Word) : Nat := w.toNat / 2 ^ 8 % 2 ^ 4

/-- `RSV`, bits 31:12 (R52). -/
def rsvField (w : Word) : Nat := w.toNat / 2 ^ 12

/-- A command of opcodes 0x00..0x05, whose `CTX` must be 0 (R54). -/
def plainCommand (ctx : Nat) (i : Instr) : Except DecodeError Instr :=
  if ctx = 0 then .ok i else .error .ctxNotZero

/-- The command a word stands for, by the opcode map (R53), or the reason it is illegal on every device (R58). -/
def decode (w : Word) : Except DecodeError Instr :=
  let ctx := ctxField w
  if rsvField w ≠ 0 then .error .reservedBits
  else match opcField w with
    | 0x00 => plainCommand ctx .nop
    | 0x01 => plainCommand ctx .bitrev
    | 0x02 => plainCommand ctx .fftFwd
    | 0x03 => plainCommand ctx .fftInv
    | 0x04 => plainCommand ctx .fftMag
    | 0x05 => plainCommand ctx .cmac
    | 0x10 => .ok (.convNew ctx)
    | 0x11 => .ok (.convSetir ctx)
    | 0x12 => .ok (.convRun ctx)
    | _ => .error .unassignedOpcode

/-- The four bytes of a register word, least significant first (R40). -/
def bytesOfWord (w : Word) : List Byte :=
  [BitVec.ofNat 8 w.toNat, BitVec.ofNat 8 (w.toNat / 2 ^ 8), BitVec.ofNat 8 (w.toNat / 2 ^ 16), BitVec.ofNat 8 (w.toNat / 2 ^ 24)]

/-- The register word of four bytes, least significant first (R40). -/
def wordOfBytes (b0 b1 b2 b3 : Byte) : Word :=
  BitVec.ofNat 32 (b0.toNat + 2 ^ 8 * b1.toNat + 2 ^ 16 * b2.toNat + 2 ^ 24 * b3.toNat)

/-- Decoding from bytes: the command of the first four, and the rest of the list. -/
def decodeBytes : List Byte → Except DecodeError (Instr × List Byte)
  | b0 :: b1 :: b2 :: b3 :: rest =>
    match decode (wordOfBytes b0 b1 b2 b3) with
    | .ok i => .ok (i, rest)
    | .error e => .error e
  | _ => .error .tooShort

/-- A command word from its opcode and context fields, with `RSV = 0` (R52, R55). -/
def commandWord (opc ctx : Nat) : Word := BitVec.ofNat 32 (opc + 2 ^ 8 * (ctx % 2 ^ 4))

/-- The command word of an instruction (R53). -/
def encode : Instr → Word
  | .nop => commandWord 0x00 0
  | .bitrev => commandWord 0x01 0
  | .fftFwd => commandWord 0x02 0
  | .fftInv => commandWord 0x03 0
  | .fftMag => commandWord 0x04 0
  | .cmac => commandWord 0x05 0
  | .convNew ctx => commandWord 0x10 ctx
  | .convSetir ctx => commandWord 0x11 ctx
  | .convRun ctx => commandWord 0x12 ctx

/-- The opcode of an instruction in the map of R53. -/
def Instr.opcode : Instr → Nat
  | .nop => 0x00
  | .bitrev => 0x01
  | .fftFwd => 0x02
  | .fftInv => 0x03
  | .fftMag => 0x04
  | .cmac => 0x05
  | .convNew _ => 0x10
  | .convSetir _ => 0x11
  | .convRun _ => 0x12

/-- The command word that bits `w` of an opcode-table row of `nbits` bits stand for. -/
def tableWord (nbits w : Nat) : Word := BitVec.ofNat 32 (w % 2 ^ nbits)

/-- The instruction the decoder reads from the bits `w` of an opcode-table row of `nbits` bits, laid out as bytes, least significant
first (R40). A row wider than the one format `CMD32` (R60) has no instruction. -/
def decodeTableWord (nbits w : Nat) : Option Instr :=
  if 32 < nbits then none
  else match decodeBytes (bytesOfWord (tableWord nbits w)) with
    | .ok (i, _) => some i
    | .error _ => none

end Sys2Proof
end

