-- ==== Sys2Proof/Machine/HostPort.lean ====
section
/-! DEFINITION. The host's side: the register window (R15 to R24), the host's data-memory accesses (R34, R124), and the reset input
(R119 to R121). -/

namespace Sys2Proof.Machine

/-- The registers of the window (R15). -/
inductive Reg where
  | cmd
  | status
  | arg (i : Fin 5)
  | cap
  | capMmax
  | capKmax
  | capDmem
  | csel
  | cFlags
  | cB
  | cF
  | cM
  | cK
  | cStep
  | cInpos
  | cSegpos
  | cChan
  | cNchan
  | reserved
deriving DecidableEq, Repr

/-- The register at a byte offset that is a multiple of 4 (R15, R24). -/
def regAt (offset : Nat) : Reg :=
  match offset / 4 with
  | 0x00 => .cmd
  | 0x01 => .status
  | 0x02 => .arg 0
  | 0x03 => .arg 1
  | 0x04 => .arg 2
  | 0x05 => .arg 3
  | 0x06 => .arg 4
  | 0x07 => .cap
  | 0x08 => .capMmax
  | 0x09 => .capKmax
  | 0x0A => .capDmem
  | 0x0B => .csel
  | 0x0C => .cFlags
  | 0x0D => .cB
  | 0x0E => .cF
  | 0x0F => .cM
  | 0x10 => .cK
  | 0x11 => .cStep
  | 0x12 => .cInpos
  | 0x13 => .cSegpos
  | 0x14 => .cChan
  | 0x15 => .cNchan
  | _ => .reserved

/-- A context-information register, which gives a free value while busy (R23). -/
def Reg.isContextInfo : Reg → Bool
  | .cmd => false
  | .status => false
  | .arg _ => false
  | .cap => false
  | .capMmax => false
  | .capKmax => false
  | .capDmem => false
  | .csel => false
  | .cFlags => true
  | .cB => true
  | .cF => true
  | .cM => true
  | .cK => true
  | .cStep => true
  | .cInpos => true
  | .cSegpos => true
  | .cChan => true
  | .cNchan => true
  | .reserved => false

/-- The context that `CSEL` selects, when it exists and is configured (R22, R23). -/
def State.shownContext (s : State) : Option Context :=
  let c := s.ctx s.csel.toNat
  if s.csel.toNat < s.caps.nctx && c.configured then some c else none

/-- The word of `CAP` (R20). -/
def Caps.word (c : Caps) : Word := BitVec.ofNat 32 (c.nmaxLog2.toNat + 2 ^ 8 * c.nctxLast.toNat)

/-- A field of the shown context as a register word; 0 when no context is shown (R23). -/
def State.info (s : State) (field : Context → Nat) : Word :=
  match s.shownContext with
  | some c => BitVec.ofNat 32 (field c)
  | none => 0

/-- What a host read of a register gives while the block is not busy, and for every register but the context-information ones also
while it is (R15 to R24). -/
def State.regValue (s : State) : Reg → Word
  | .cmd => 0
  | .status => s.status.word
  | .arg i => s.a[i]
  | .cap => s.caps.word
  | .capMmax => s.caps.mmax
  | .capKmax => s.caps.kmax
  | .capDmem => s.caps.dmemLast
  | .csel => BitVec.ofNat 32 s.csel.toNat
  | .cFlags => s.info (fun _ => 1)
  | .cB => s.info Context.B
  | .cF => s.info Context.F
  | .cM => s.info Context.M
  | .cK => s.info Context.K
  | .cStep => s.info Context.STEP
  | .cInpos => s.info Context.inputPos
  | .cSegpos => s.info Context.inputSegmentPos
  | .cChan => s.info Context.channel
  | .cNchan => s.info Context.numChannels
  | .reserved => 0

/-- A host write to `CMD` (R16). -/
def writeCmd (s : State) (w : Word) : State :=
  if s.status.busy then { s with status := s.status.setOvr } else s.latch w

/-- A host write to a register (R15): read-only and reserved ones ignore it. -/
def writeReg (s : State) (r : Reg) (v : Word) : State :=
  match r with
  | .cmd => writeCmd s v
  | .status => s
  | .arg i => { s with a := s.a.set i v }
  | .cap => s
  | .capMmax => s
  | .capKmax => s
  | .capDmem => s
  | .csel => { s with csel := BitVec.ofNat 4 v.toNat }
  | .cFlags => s
  | .cB => s
  | .cF => s
  | .cM => s
  | .cK => s
  | .cStep => s
  | .cInpos => s
  | .cSegpos => s
  | .cChan => s
  | .cNchan => s
  | .reserved => s

/-- A host read of a register: no side effect on the block (R42); a context-information register gives a free value while busy
(R23, U5). -/
def readReg (u : Units) (s : State) (r : Reg) : State :=
  if s.status.busy && r.isContextInfo then
    { s with reply := .reg (BitVec.ofNat 32 (s.supply u []).toNat), draws := s.draws + 1 }
  else { s with reply := .reg (s.regValue r) }

/-- A register access the block defines: 32 bits wide, at a multiple of 4, inside the window (R15, R24). -/
def goodAccess (offset width : Nat) : Bool := decide (width = 32 ∧ offset % 4 = 0 ∧ offset < 256)

/-- The words of the buffer a command would store: base and count (R120). A command that a check ends stores none (log 13: DEDUCED,
safe). -/
def storeBuffer (i : Instr) (s : State) : Nat × Nat :=
  match i with
  | .nop => (0, 0)
  | .bitrev => if (checkBitrev s).isNone then (s.arg 0, 2 * s.arg 1) else (0, 0)
  | .fftFwd => if (checkFftFwd s).isNone ∧ s.arg 1 ≠ 2 then (s.arg 0, 2 * s.arg 1) else (0, 0)
  | .fftInv => if (checkFftInv s).isNone then (s.arg 0, 2 * s.arg 1) else (0, 0)
  | .fftMag => if (checkFftMag s).isNone then (s.arg 0, s.arg 1) else (0, 0)
  | .cmac => if (checkCmac s).isNone then (s.arg 0, 2 * s.arg 3) else (0, 0)
  | .convNew _ => (0, 0)
  | .convSetir _ => (0, 0)
  | .convRun x => if (checkConvRun x s).isNone then (s.arg 0, s.arg 1) else (0, 0)

/-- The words a latched command would store; an illegal command stores none. -/
def abandonedBuffer (s : State) : Nat × Nat :=
  match decode s.cmd with
  | .ok i => storeBuffer i s
  | .error _ => (0, 0)

/-- Asserting the reset input (R119): every piece of state takes its value of R36. A running command is abandoned, and the words of
its output buffer get free values (R120). -/
def assertReset (u : Units) (s : State) : State :=
  if s.status.busy then
    let b := abandonedBuffer s
    State.resetBlock { s with dmem := scramble (s.supply u) s.dmem b.1 b.2 0, inReset := true, draws := s.draws + 1 }
  else State.resetBlock { s with inReset := true }

/-- One access of the outside world. While reset is asserted the block ignores register accesses (R119; log 12:
DEDUCED), also one of another width or at a bad offset, which R24 refuses outside reset (log 25: DESIGN CHOICE). -/
def hostAccess (u : Units) (a : Access) (s : State) : Answer :=
  match a with
  | .regWrite offset width value =>
    if s.inReset then .next s
    else if !goodAccess offset width then .refused .badRegisterAccess
    else .next (writeReg s (regAt offset) value)
  | .regRead offset width =>
    if s.inReset then .next { s with reply := .empty }
    else if !goodAccess offset width then .refused .badRegisterAccess
    else .next (readReg u s (regAt offset))
  | .dmemWrite addr value =>
    if s.status.busy then .refused .hostDmemWhileBusy
    else if s.caps.dmemWords ≤ addr.toNat then .fault .noSuchWord
    else .next { s with dmem := s.dmem.write addr.toNat value }
  | .dmemRead addr =>
    if s.status.busy then .refused .hostDmemWhileBusy
    else if s.caps.dmemWords ≤ addr.toNat then .fault .noSuchWord
    else match s.dmem.read addr.toNat with
      | some v => .next { s with reply := .word v }
      | none => .fault .unwrittenWord
  | .assertReset => .next (assertReset u s)
  | .releaseReset => .next { s with inReset := false }
  | .powerOn => .next { State.resetBlock { s with inReset := true } with dmem := [] }

end Sys2Proof.Machine
end

