-- ==== Sys2Proof/Machine/Step.lean ====
section
/-! DEFINITION. One step of the machine: the sequencer runs its latched command as one atomic step (R46), or the outside world makes
its next pending access; an idle block without one keeps its state (R118). -/

namespace Sys2Proof.Machine

/-- The sequencer runs the latched command: an illegal word raises `IllegalCommand` before any other check (R58, R110). -/
def runCommand (s : State) : Host.Outcome State Fault Refusal :=
  match decode s.cmd with
  | .ok i => exec i s
  | .error _ => s.raise .illegalCommand

/-- One step. While a command is busy, only an early access comes before its end; without a busy command the accesses come in order. -/
def step (s : State) : Host.Outcome State Fault Refusal :=
  match s.pending with
  | [] => if s.status.busy then runCommand s else .next s
  | e :: rest =>
    if s.status.busy && !e.early then runCommand s
    else hostAccess Config.units e.access { s with pending := rest }

/-- `s` with the command word of an opcode-table row latched, as an accepted `CMD` write latches it (R16, R19), so that the next step
runs it: the block is busy, not in reset, and the next pending access waits (log 8: DESIGN CHOICE). -/
def State.withFetchWord (s : State) (nbits w : Nat) : State :=
  { State.latch s (tableWord nbits w) with inReset := false, pending := settled s.pending }

end Sys2Proof.Machine
end

