-- ==== Sys2Proof/Machine/HostProgram.lean ====
section
/-! DEFINITION. The host's assembly notation (R61), the command pseudo-instructions (R62), and the accesses of the outside world that a
host program makes, in order (R123, R131). The block executes no program: these are lists of accesses for `State.pending`. -/

namespace Sys2Proof.Machine

/-- The byte offset of a register (R15); every reserved slot has the offset of the first. -/
def Reg.offset : Reg → Nat
  | .cmd => 0x00
  | .status => 0x04
  | .arg i => 0x08 + 4 * i.val
  | .cap => 0x1C
  | .capMmax => 0x20
  | .capKmax => 0x24
  | .capDmem => 0x28
  | .csel => 0x2C
  | .cFlags => 0x30
  | .cB => 0x34
  | .cF => 0x38
  | .cM => 0x3C
  | .cK => 0x40
  | .cStep => 0x44
  | .cInpos => 0x48
  | .cSegpos => 0x4C
  | .cChan => 0x50
  | .cNchan => 0x54
  | .reserved => 0x58

/-- One statement of the host's assembly (R61). -/
inductive HostStmt where
  /-- `wr REG, imm`. -/
  | wr (reg : Reg) (imm : Word)
  /-- `rd REG`. -/
  | rd (reg : Reg)
  /-- `wait`: `rd STATUS` until `BUSY = 0`. -/
  | wait
  /-- `st.f64 addr, x`. -/
  | st (addr : Word) (x : F64)
  /-- `ld.f64 addr`. -/
  | ld (addr : Word)
  /-- `.f64 addr: x0, x1, ...`: stores made before the program's first statement. -/
  | data (addr : Word) (xs : List F64)
deriving DecidableEq, Repr

/-- A statement of the assembly: a register that R61 lets `wr` name, and a directive inside the 32-bit word addresses (R7). -/
def HostStmt.wellFormed : HostStmt → Bool
  | .wr reg _ => reg == .cmd || reg == .csel || (List.range 5).any (fun i => reg == .arg (Fin.ofNat 5 i))
  | .rd reg => reg != .reserved
  | .wait => true
  | .st _ _ => true
  | .ld _ => true
  | .data addr xs => decide (addr.toNat + xs.length ≤ 2 ^ 32)

/-- The word address `i` words after `addr`, for a directive that is well formed. -/
def wordAfter (addr : Word) (i : Nat) : Word := BitVec.ofNat 32 (addr.toNat + i)

/-- The accesses of a statement in program order. A poll of `wait` that sees `BUSY = 1` changes nothing (R42), so `wait` is its last
poll, which comes after the running command's end. Whether another access lands while a command is busy is the outside world's `early` (log 22:
DEDUCED, safe). While reset is asserted the poll is ignored and gives an empty reply, and `wait` ends there (log 26: DESIGN CHOICE). -/
def HostStmt.events (early : Bool) : HostStmt → List HostEvent
  | .wr reg imm => [{ early := early, access := .regWrite reg.offset 32 imm }]
  | .rd reg => [{ early := early, access := .regRead reg.offset 32 }]
  | .wait => [{ early := false, access := .regRead Reg.status.offset 32 }]
  | .st addr x => [{ early := early, access := .dmemWrite addr x }]
  | .ld addr => [{ early := early, access := .dmemRead addr }]
  | .data _ _ => []

/-- The stores of a data directive (R61). -/
def HostStmt.dataEvents : HostStmt → List HostEvent
  | .wr _ _ => []
  | .rd _ => []
  | .wait => []
  | .st _ _ => []
  | .ld _ => []
  | .data addr xs => xs.mapIdx (fun i x => { early := false, access := .dmemWrite (wordAfter addr i) x })

/-- The accesses of a host program (R61): its data directives, then its statements in order. The program ends when the last of them is
made (R131). -/
def programEvents (early : Bool) (prog : List HostStmt) : List HostEvent :=
  prog.flatMap HostStmt.dataEvents ++ prog.flatMap (HostStmt.events early)

/-- The command pseudo-instructions with their operands (R62). -/
inductive Pseudo where
  | nop
  | bitrev (vbase n : Word)
  | fftFwd (vbase n : Word)
  | fftInv (vbase n : Word)
  | fftMag (dbase dlen sbase slen : Word)
  | cmac (accbase abase bbase n : Word)
  | convNew (ctx : Nat) (bs : Word) (ch nch : Int) (irbase len : Word)
  | convSetir (ctx : Nat) (irbase len : Word)
  | convRun (ctx : Nat) (outbase outlen inbase inlen ns : Word)
deriving DecidableEq, Repr

/-- A context whose command word fits 32 bits. One that does not fit the field `CTX` sets bits of `RSV`, so its word is illegal
(R52, R55, R62). -/
def ctxWritable (ctx : Nat) : Bool := decide (ctx < 2 ^ 24)

/-- A channel number that a 32-bit register write can name (R61, R62): negative, as two's complement, or unsigned (log 22: DEDUCED). -/
def channelWritable (ch : Int) : Bool := decide (-2 ^ 31 ≤ ch ∧ ch < 2 ^ 32)

/-- A pseudo-instruction whose register writes are all 32-bit values (R61). -/
def Pseudo.wellFormed : Pseudo → Bool
  | .nop => true
  | .bitrev _ _ => true
  | .fftFwd _ _ => true
  | .fftInv _ _ => true
  | .fftMag _ _ _ _ => true
  | .cmac _ _ _ _ => true
  | .convNew ctx _ ch nch _ _ => ctxWritable ctx && channelWritable ch && channelWritable nch
  | .convSetir ctx _ _ => ctxWritable ctx
  | .convRun ctx _ _ _ _ _ => ctxWritable ctx

/-- A convolver command word as R62 writes it: `(ctx << 8) | opc`. -/
def convWord (ctx opc : Nat) : Word := BitVec.ofNat 32 (ctx <<< 8 ||| opc)

/-- The command word a pseudo-instruction writes, by the table of R62. -/
def Pseudo.word : Pseudo → Word
  | .nop => 0x00000000
  | .bitrev _ _ => 0x00000001
  | .fftFwd _ _ => 0x00000002
  | .fftInv _ _ => 0x00000003
  | .fftMag _ _ _ _ => 0x00000004
  | .cmac _ _ _ _ => 0x00000005
  | .convNew ctx _ _ _ _ _ => convWord ctx 0x10
  | .convSetir ctx _ _ => convWord ctx 0x11
  | .convRun ctx _ _ _ _ _ => convWord ctx 0x12

/-- The command a pseudo-instruction names. Its word starts that command when the context fits the field `CTX`, and is illegal otherwise. -/
def Pseudo.command : Pseudo → Instr
  | .nop => .nop
  | .bitrev _ _ => .bitrev
  | .fftFwd _ _ => .fftFwd
  | .fftInv _ _ => .fftInv
  | .fftMag _ _ _ _ => .fftMag
  | .cmac _ _ _ _ => .cmac
  | .convNew ctx _ _ _ _ _ => .convNew ctx
  | .convSetir ctx _ _ => .convSetir ctx
  | .convRun ctx _ _ _ _ _ => .convRun ctx

/-- The argument registers a pseudo-instruction writes, in order (R56, R62): arguments its command ignores are not written, and a
negative channel is its two's complement. -/
def Pseudo.arguments : Pseudo → List (Fin 5 × Word)
  | .nop => []
  | .bitrev vbase n => [(0, vbase), (1, n)]
  | .fftFwd vbase n => [(0, vbase), (1, n)]
  | .fftInv vbase n => [(0, vbase), (1, n)]
  | .fftMag dbase dlen sbase slen => [(0, dbase), (1, dlen), (2, sbase), (3, slen)]
  | .cmac accbase abase bbase n => [(0, accbase), (1, abase), (2, bbase), (3, n)]
  | .convNew _ bs ch nch irbase len => [(0, bs), (1, BitVec.ofInt 32 ch), (2, BitVec.ofInt 32 nch), (3, irbase), (4, len)]
  | .convSetir _ irbase len => [(3, irbase), (4, len)]
  | .convRun _ outbase outlen inbase inlen ns => [(0, outbase), (1, outlen), (2, inbase), (3, inlen), (4, ns)]

/-- The statements a pseudo-instruction stands for (R62): its argument writes, one `CMD` write and a `wait`. -/
def Pseudo.expand (p : Pseudo) : List HostStmt :=
  p.arguments.map (fun iv => .wr (.arg iv.1) iv.2) ++ [.wr .cmd p.word, .wait]

/-- `s` with a host program's accesses to come after those already pending. -/
def State.withProgram (s : State) (early : Bool) (prog : List HostStmt) : State :=
  { s with pending := s.pending ++ programEvents early prog }

end Sys2Proof.Machine
end

