-- ==== Sys2Proof/Safety.lean ====
section
/-! DEFINITION. What counts as a safe run, in the terms claims use: the fault a set `UNDEF` records (R113), the invariants between
commands (R28 to R32), and the accuracy a twiddle ROM must have (R75). -/

namespace Sys2Proof.Machine

/-- The run is marked faulty (R113, U1): no claim about the results of such a run holds. -/
def State.faulty (s : State) : Bool := s.status.undef

/-- `s` can be reached from `s₀` by steps that each answer a next state. -/
inductive Reaches (s₀ : State) : State → Prop where
  | start : Reaches s₀ s₀
  | step {s t : State} : Reaches s₀ s → Sys2Proof.Machine.step s = .next t → Reaches s₀ t

/-- A safe run so far: reached by steps, and not marked faulty (R113). -/
def SafelyReaches (s₀ s : State) : Prop := Reaches s₀ s ∧ s.faulty = false

/-- The legal values of a configured context's fields (R28) and the invariants 1, 2, 3 and 5 of R32, with the part of `overlapBuf`
that R105 says is never written. -/
structure Context.Shaped (caps : Caps) (c : Context) : Prop where
  blockSize : isPowerOfTwo c.B = true
  fftSize : c.F = planF c.B
  segLength : c.SEG = c.F - c.B
  fitsEngine : c.F ≤ caps.nmax
  someSegment : 1 ≤ c.M
  fitsSegments : c.M ≤ caps.mmax.toNat
  ringLength : c.K = planK c.B c.M
  fitsRing : c.K ≤ caps.kmax.toNat
  ringStride : c.STEP = c.K / c.M
  lane : c.channel < c.numChannels
  inputLength : c.inputBuf.length = c.F
  outputLength : c.outputBuf.length = c.F
  tempLength : c.tempBuf.length = c.F
  overlapLength : c.overlapBuf.length = c.F
  overlapUpper : ∀ t, c.F - c.B ≤ t → t < c.F → c.overlapBuf[t]? = some posZero
  ringSegments : c.inputSegments.length = c.K
  ringSegmentLength : ∀ v ∈ c.inputSegments, v.length = c.F
  irSegments : c.impulseSegments.length = c.M
  irSegmentLength : ∀ v ∈ c.impulseSegments, v.length = c.F
  position : c.inputPos < c.B
  ringPosition : c.inputSegmentPos < c.K

/-- Invariant 4 of R32: the frame buffer is `+0.0` from `inputPos` on. -/
def Context.FramePadded (c : Context) : Prop := ∀ t, c.inputPos ≤ t → t < c.F → c.inputBuf[t]? = some posZero

/-- The invariant of the machine between steps: the data memory is in canonical form and inside `DMEM_WORDS` (R34), the device's
parameters are legal (R6), only existing contexts are configured and each of those is shaped (R28, R32), the frame buffers are
padded unless the run is marked faulty (R32 invariant 4), and a block in reset is not busy (R119). -/
structure State.Inv (s : State) : Prop where
  memory : s.dmem.wf = true
  bounded : ∀ a, (s.dmem.get a).isSome → a < 8 * s.caps.dmemWords
  parameters : s.caps.legal = true
  exist : ∀ x, (s.ctx x).configured = true → x < s.caps.nctx
  shaped : ∀ x, (s.ctx x).configured = true → (s.ctx x).Shaped s.caps
  padded : s.faulty = false → ∀ x, (s.ctx x).configured = true → (s.ctx x).FramePadded
  resetIdle : s.inReset = true → s.status.busy = false

/-- One entry of a twiddle ROM is within `2^-50` of the exact cosine and sine (R75, the property `TW_OK`). -/
def TwEntryOk (N k : Nat) (t : Twiddle) : Prop :=
  isFinite t.c = true ∧ isFinite t.s = true ∧
  |((toRat t.c : ℚ) : ℝ) - Real.cos (2 * Real.pi * k / N)| ≤ (2 : ℝ) ^ (-50 : ℤ) ∧
  |((toRat t.s : ℚ) : ℝ) - Real.sin (2 * Real.pi * k / N)| ≤ (2 : ℝ) ^ (-50 : ℤ)

/-- `TW_OK` (R75) for the ROM of units `u` up to length `2^31`: what every implementation must meet. Entry 0 is exact by `romEntry`. A
claim that needs the accuracy of the device's ROM takes `TwOk Config.units` as a hypothesis. -/
def TwOk (u : Units) : Prop :=
  ∀ e k, 2 ≤ e → e ≤ 31 → k < 2 ^ e / 2 → TwEntryOk (2 ^ e) k (romEntry u (2 ^ e) k)

/-- `RNE(x)` for a real of magnitude at most 1 (R75): no finite encoding is nearer to `x`, a tie goes to the even fraction, and a zero is
`+0.0`. -/
def IsRounded (x : ℝ) (z : F64) : Prop :=
  isFinite z = true ∧ (isZero z = true → z = posZero) ∧
  ∀ w, isFinite w = true →
    |((toRat z : ℚ) : ℝ) - x| < |((toRat w : ℚ) : ℝ) - x| ∨ toRat z = toRat w ∨
      (|((toRat z : ℚ) : ℝ) - x| = |((toRat w : ℚ) : ℝ) - x| ∧ fracField z % 2 = 0)

/-- `TW = TW_REF` (R75): every entry is the exact cosine and sine, rounded. A claim about the spec's exact vectors takes
`TwRef Config.units` as a hypothesis. -/
def TwRef (u : Units) : Prop :=
  ∀ e k : Nat, 2 ≤ e → e ≤ 31 → k < 2 ^ e / 2 →
    IsRounded (Real.cos (2 * Real.pi * k / (2 ^ e : ℕ))) (romEntry u (2 ^ e) k).c ∧
    IsRounded (Real.sin (2 * Real.pi * k / (2 ^ e : ℕ))) (romEntry u (2 ^ e) k).s

/-- `HYPOT = HYPOT_REF` on finite operands (R76). -/
def HypotRef (u : Units) : Prop := ∀ x y, isFinite x = true → isFinite y = true → u.hypot x y = hypotRef x y

end Sys2Proof.Machine
end

