-- ==== Sys2Proof/Certificates/Slice0/Obligations.lean ====
section
/-! DEFINITION. The statements about the model. Where a statement rests on a choice of the model, its docstring says so. -/

open Sys2Proof Sys2Proof.Machine

namespace Sys2Proof.Claims

/-! Words the statements share. -/

/-- `n` data-memory words from `base` on each hold a value. -/
def Readable (m : Memory) (base n : Nat) : Prop := ∀ w, base ≤ w → w < base + n → (m.read w).isSome

/-- Every byte of the data memory outside the `n` words from `base` on is the same in both memories. -/
def SameOutside (m m' : Memory) (base n : Nat) : Prop := ∀ x, (x / 8 < base ∨ base + n ≤ x / 8) → m'.get x = m.get x

/-- `t` is `s` after a command that ended with `e` and changed the data memory at most: every register, context and flag but `ERR` and
`BUSY` is unchanged. -/
def EndsChangingMemory (s t : State) (e : Err) : Prop := t = State.finish { s with dmem := t.dmem } e

/-- `t` is `s` after a command that ended with `e` and changed context `x` at most: the data memory, every register, every other context
and every flag but `ERR` and `BUSY` is unchanged. -/
def EndsChangingContext (s t : State) (x : Nat) (e : Err) : Prop :=
  t = State.finish { s with ctxs := t.ctxs } e ∧ ∀ y, y ≠ x → t.ctx y = s.ctx y

/-- A buffer of `n` words at `base` is inside the data memory (R44). -/
def Inside (s : State) (base n : Nat) : Prop := n = 0 ∨ base + n ≤ s.caps.dmemWords

/-- Equal, or both NaNs: the sign and payload of a NaN are free (R65). -/
def SameUpToNaN (x y : F64) : Prop := x = y ∨ (isNaN x = true ∧ isNaN y = true)

/-- Both parts equal up to NaN. -/
def SameUpToNaNC (a b : Cplx) : Prop := SameUpToNaN a.re b.re ∧ SameUpToNaN a.im b.im

/-- The number of an error in `STATUS.ERR`, copied from the table of R108. -/
def errNumber : Err → Nat
  | .ok => 0
  | .invalidLength => 1
  | .invalidBlockSize => 2
  | .emptyImpulseResponse => 3
  | .invalidChannel => 4
  | .lengthMismatch => 5
  | .illegalCommand => 6
  | .notConfigured => 7
  | .capacityExceeded => 8
  | .addressRange => 9

/-- `z` with the sign of a product or a quotient of `x` and `y`, for a `z` with a clear sign bit. -/
def signed (x y z : F64) : F64 := if signBit x = signBit y then z else fneg z

/-- `z` is the rational `q` rounded once to nearest, ties to even (R64): infinite exactly beyond the halfway point above the largest
finite value, with the sign of `q`; else a finite value that no finite value is nearer to `q` than, with an even fraction in a tie. -/
def RoundedTo (q : Rat) (z : F64) : Prop :=
  (isFinite z = false → isInf z = true ∧ (2 : Rat) ^ 1024 - 2 ^ 970 ≤ |q| ∧ (signBit z = true ↔ q < 0)) ∧
  (isFinite z = true → |q| < (2 : Rat) ^ 1024 - 2 ^ 970 ∧
    ∀ w, isFinite w = true →
      |toRat z - q| < |toRat w - q| ∨ toRat z = toRat w ∨ (|toRat z - q| = |toRat w - q| ∧ fracField z % 2 = 0))

/-- The command word `w` is illegal by the list of R58, on a device with these parameters. -/
def IllegalWord (caps : Caps) (w : Word) : Prop :=
  rsvField w ≠ 0 ∨ (6 ≤ opcField w ∧ opcField w ≤ 0x0F) ∨ 0x13 ≤ opcField w ∨
  (opcField w ≤ 5 ∧ ctxField w ≠ 0) ∨ (0x10 ≤ opcField w ∧ opcField w ≤ 0x12 ∧ caps.nctx ≤ ctxField w)

/-- The checks of a command after the legality of its word, in the order of the table of R110, each with its error: the conditions of
R109 on the latched arguments. -/
def checksOf (i : Instr) (s : State) : List (Prop × Err) :=
  let n := s.arg 1
  let tooLong := s.caps.nmax < n
  let outside := ¬ Inside s (s.arg 0) (2 * n)
  let L' := min (s.arg 4) 1920000
  let B := nextPowerOfTwo (s.arg 0)
  let F := if B ≤ 128 then 4 * B else 2 * B
  let M := L' / (F - B) + 1
  let K := if 128 < B then M else 3 * M
  match i with
  | .nop => []
  | .bitrev => [(¬ ∃ k, n = 2 ^ k, .invalidLength), (tooLong, .capacityExceeded), (outside, .addressRange)]
  | .fftFwd =>
    [(n ≠ 2 ∧ ¬ ∃ k, n = 2 ^ k, .invalidLength), (n ≠ 2 ∧ tooLong, .capacityExceeded), (n ≠ 2 ∧ outside, .addressRange)]
  | .fftInv => [(n ≠ 2 ∧ ¬ ∃ k, n = 2 ^ k, .invalidLength), (tooLong, .capacityExceeded), (outside, .addressRange)]
  | .fftMag =>
    [(s.arg 1 ≠ s.arg 3, .lengthMismatch),
     (¬ (Inside s (s.arg 0) (s.arg 1) ∧ Inside s (s.arg 2) (2 * s.arg 3)), .addressRange)]
  | .cmac =>
    [(¬ (Inside s (s.arg 0) (2 * s.arg 3) ∧ Inside s (s.arg 1) (2 * s.arg 3) ∧ Inside s (s.arg 2) (2 * s.arg 3)), .addressRange)]
  | .convNew x =>
    [(s.caps.nctx ≤ x, .illegalCommand), (s.arg 0 = 0, .invalidBlockSize),
     (¬ (0 ≤ s.argSigned 1 ∧ 1 ≤ s.argSigned 2 ∧ s.argSigned 1 < s.argSigned 2), .invalidChannel),
     (s.arg 4 = 0, .emptyImpulseResponse),
     (s.caps.nmax < F ∨ s.caps.mmax.toNat < M ∨ s.caps.kmax.toNat < K, .capacityExceeded),
     (¬ Inside s (s.arg 3) L', .addressRange)]
  | .convSetir x =>
    let c := s.ctx x
    let M' := L' / c.SEG + 1
    [(s.caps.nctx ≤ x, .illegalCommand), (c.configured = false, .notConfigured), (s.arg 4 = 0, .emptyImpulseResponse),
     (s.caps.mmax.toNat < M' ∨ s.caps.kmax.toNat < (if 128 < c.B then M' else 3 * M'), .capacityExceeded),
     (¬ Inside s (s.arg 3) L', .addressRange)]
  | .convRun x =>
    [(s.caps.nctx ≤ x, .illegalCommand), ((s.ctx x).configured = false, .notConfigured),
     (¬ (Inside s (s.arg 0) (s.arg 1) ∧ Inside s (s.arg 2) (s.arg 3)), .addressRange)]

/-- `e` is the error of the first check of a list that fails. -/
def FirstFailing (checks : List (Prop × Err)) (e : Err) : Prop :=
  ∃ before p after, checks = before ++ (p, e) :: after ∧ p ∧ ∀ q ∈ before, ¬ q.1

/-- No check of a list fails. -/
def NoneFails (checks : List (Prop × Err)) : Prop := ∀ q ∈ checks, ¬ q.1

/-- The words of the data memory that a command may store to (R56, R120): base and count. -/
def storeWords (i : Instr) (s : State) : Nat × Nat :=
  match i with
  | .nop => (0, 0)
  | .bitrev => (s.arg 0, 2 * s.arg 1)
  | .fftFwd => if s.arg 1 = 2 then (0, 0) else (s.arg 0, 2 * s.arg 1)
  | .fftInv => (s.arg 0, 2 * s.arg 1)
  | .fftMag => (s.arg 0, s.arg 1)
  | .cmac => (s.arg 0, 2 * s.arg 3)
  | .convNew _ => (0, 0)
  | .convSetir _ => (0, 0)
  | .convRun _ => (s.arg 0, s.arg 1)

/-- The context a command may change (R54). -/
def contextOf : Instr → Option Nat
  | .nop => none
  | .bitrev => none
  | .fftFwd => none
  | .fftInv => none
  | .fftMag => none
  | .cmac => none
  | .convNew x => some x
  | .convSetir x => some x
  | .convRun x => some x

/-- The next step runs the latched command: the block is busy and no access of the outside world comes first. -/
def RunsNext (s : State) : Prop := s.status.busy = true ∧ ∀ e rest, s.pending = e :: rest → e.early = false

/-- The command of `i` reports its errors and then changes nothing else: an illegal word with the opcode of `i` ends with
`IllegalCommand`, a legal one with the error of its first failing check. -/
def ReportsItsErrors (i : Instr) : Prop :=
  (∀ s, RunsNext s → opcField s.cmd = i.opcode → IllegalWord s.caps s.cmd → step s = .next (s.finish .illegalCommand)) ∧
  (∀ s e, FirstFailing (checksOf i s) e → exec i s = .next (s.finish e))

/-- The next access of the outside world is `a`, and it comes next: the block is idle, or the access is early. -/
def AccessNext (s : State) (a : Access) (rest : List HostEvent) : Prop :=
  ∃ early, s.pending = { early := early, access := a } :: rest ∧ (s.status.busy = true → early = true)

/-- A state with other sticky flags and another `ERR`. -/
def withFlags (s : State) (e : Err) (undef ovr : Bool) : State :=
  { s with status := { s.status with err := e, undef := undef, ovr := ovr } }

/-- The exact butterfly of length `n` over the complex numbers, with the twiddle factor `e^{-2πik/n}` (R12, R82). -/
noncomputable def exactButterfly (n k : Nat) (a b : ℂ) : ℂ × ℂ :=
  let tw := b * Complex.exp (-2 * Real.pi * Complex.I * k / n)
  (a + tw, a - tw)

end Sys2Proof.Claims

open Sys2Proof.Claims

/-! Encoding and decoding. -/

/-- O1. Decoding the command word of a well-formed instruction gives it back, as a word and as bytes followed by anything (R52, R53,
R40). -/
def Obligations.DecodeEncodeRoundTrip : Prop :=
  ∀ i : Instr, i.wellFormed = true →
    decode (encode i) = .ok i ∧ ∀ rest, decodeBytes (bytesOfWord (encode i) ++ rest) = .ok (i, rest)

/-- O2. A word that decodes is the command word of a well-formed instruction, so no two words stand for one instruction (R52, R53). -/
def Obligations.DecodedWordIsItsEncoding : Prop :=
  ∀ (w : Word) (i : Instr), decode w = .ok i → i.wellFormed = true ∧ encode i = w

/-- O3. A word illegal by R58 ends its command with `IllegalCommand` and no other effect, whatever else holds of the state. -/
def Obligations.IllegalWordRaisesIllegalCommand : Prop :=
  ∀ s : State, RunsNext s → IllegalWord s.caps s.cmd → step s = .next (s.finish .illegalCommand)

/-- O4. Command words written out from the fields of R52 and the map of R53. -/
def Obligations.WordsOfTheOpcodeMap : Prop :=
  decode 0x00000000 = .ok .nop ∧ decode 0x00000001 = .ok .bitrev ∧ decode 0x00000002 = .ok .fftFwd ∧
  decode 0x00000003 = .ok .fftInv ∧ decode 0x00000004 = .ok .fftMag ∧ decode 0x00000005 = .ok .cmac ∧
  decode 0x00000110 = .ok (.convNew 1) ∧ decode 0x00000F11 = .ok (.convSetir 15) ∧ decode 0x00000A12 = .ok (.convRun 10)

/-! Steps. -/

/-- O5. When the latched word decodes to an instruction and no access of the outside world comes first, a step is that instruction's
execution and nothing else (a command is one atomic step, R46; that accesses which are not early wait for its end is log 9). -/
def Obligations.StepRunsTheLatchedCommand : Prop :=
  ∀ (s : State) (i : Instr), RunsNext s → decode s.cmd = .ok i → step s = exec i s

/-- O6. Otherwise a step is the next access of the outside world, which leaves the list, or, with none, an idle block keeps all its
state (R118; the list of accesses and their `early` mark are the model's, logs 9 and 18). -/
def Obligations.StepMakesTheNextAccess : Prop :=
  (∀ (s : State) a rest, AccessNext s a rest → step s = hostAccess Config.units a { s with pending := rest }) ∧
  (∀ s : State, s.status.busy = false → s.pending = [] → step s = .next s)

/-- O7. The machine's own reset state has the values of R36 and R121: `STATUS`, `A0` to `A4` and `CSEL` zero, no context configured, no
data-memory word with a value, the reset input released; and the invariant of the machine holds there (R32). -/
def Obligations.ResetMeetsTheInvariant : Prop :=
  State.reset.Inv ∧ State.reset.status = { busy := false, err := .ok, undef := false, ovr := false } ∧
  State.reset.status.word = 0 ∧ (∀ i : Fin 5, State.reset.a[i] = 0) ∧ State.reset.csel = 0 ∧
  (∀ x, (State.reset.ctx x).configured = false) ∧ (∀ w, State.reset.dmem.read w = none) ∧ State.reset.inReset = false

/-- O8. Every step keeps the invariant of the machine: the canonical form and the bounds of the data memory, the legal parameters,
and R28 and R32 for every configured context. -/
def Obligations.StepKeepsTheInvariant : Prop := ∀ s t : State, s.Inv → step s = .next t → t.Inv

/-- O9. `UNDEF` and `OVR`, once set, stay set through every step that is not a reset (R113). -/
def Obligations.StickyFlagsStay : Prop :=
  ∀ s t : State, step s = .next t →
    ((s.status.undef = true → t.status.undef = true) ∧ (s.status.ovr = true → t.status.ovr = true)) ∨
    (∃ rest, AccessNext s .assertReset rest ∨ AccessNext s .powerOn rest)

/-- O10. Only a `CONV_SETIR` that succeeds inside a block sets `UNDEF` (R94, R113, R125). -/
def Obligations.OnlyPartialBlockSwapSetsUndef : Prop :=
  ∀ s t : State, step s = .next t → s.status.undef = false → t.status.undef = true →
    RunsNext s ∧ ∃ x, decode s.cmd = .ok (.convSetir x) ∧ (s.ctx x).configured = true ∧ (s.ctx x).inputPos ≠ 0 ∧ t.status.err = .ok

/-- O11. No step changes a device parameter or the capability registers that show them (R20, R21). -/
def Obligations.CapabilityRegistersAreConstant : Prop := ∀ s t : State, step s = .next t → t.caps = s.caps

/-! Errors. -/

/-- O12. A command reports exactly one error, `IllegalCommand` for an illegal word before any other check, else the first failing
check of its row in the table of R110 with the conditions of R109, and changes nothing else; when no check fails it reports no
error. -/
def Obligations.FirstFailingCheckIsReported : Prop :=
  ∀ s : State, RunsNext s →
    (IllegalWord s.caps s.cmd → step s = .next (s.finish .illegalCommand)) ∧
    (∀ i, decode s.cmd = .ok i →
      (∀ e, FirstFailing (checksOf i s) e → step s = .next (s.finish e)) ∧
      (NoneFails (checksOf i s) → ∀ t, step s = .next t → t.status.err = .ok))

/-- O13. Every command ends with `BUSY` clear, and a command that ends with an error has no other effect (R107, R111). -/
def Obligations.FailingCommandsChangeOnlyErr : Prop :=
  ∀ s t : State, RunsNext s → step s = .next t →
    t.status.busy = false ∧ (t.status.err ≠ .ok → t = s.finish t.status.err)

/-- O14. No command writes `A0` to `A4`, `CSEL`, the latched values or `OVR` (R18, R35, R107, R113). -/
def Obligations.CommandsLeaveTheRegisters : Prop :=
  ∀ (i : Instr) (s t : State), exec i s = .next t →
    t.a = s.a ∧ t.csel = s.csel ∧ t.caps = s.caps ∧ t.cmd = s.cmd ∧ t.args = s.args ∧ t.status.ovr = s.status.ovr ∧
    t.inReset = s.inReset ∧ t.pending = s.pending ∧ t.reply = s.reply

/-- O15. A command changes no byte of the data memory outside the buffer it stores, and no context but the one it names. -/
def Obligations.CommandsStoreOnlyTheirBuffer : Prop :=
  ∀ (i : Instr) (s t : State), exec i s = .next t →
    SameOutside s.dmem t.dmem (storeWords i s).1 (storeWords i s).2 ∧ ∀ x, contextOf i ≠ some x → t.ctx x = s.ctx x

/-- O16. No command reads `ERR`, `UNDEF` or `OVR` (R26, R113): with other values of these flags it does the same. `OVR` stays, and `UNDEF`
stays set where it was set, and is set by nothing but a `CONV_SETIR` that succeeds inside a block, whatever it was before. That two such
runs agree on NaN signs and payloads too is the model's choice (log 5). -/
def Obligations.CommandsIgnoreTheFlags : Prop :=
  ∀ (i : Instr) (s : State),
    (∀ t, exec i s = .next t → ∃ sets : Bool,
      (sets = true ↔ t.status.err = .ok ∧ ∃ x, i = .convSetir x ∧ (s.ctx x).inputPos ≠ 0) ∧
      ∀ (e : Err) (undef ovr : Bool), exec i (withFlags s e undef ovr) = .next (withFlags t t.status.err (undef || sets) ovr)) ∧
    (∀ f, exec i s = .fault f → ∀ (e : Err) (undef ovr : Bool), exec i (withFlags s e undef ovr) = .fault f)

/-! The commands. -/

/-- O17. `NOP` (R77) only ends with `ERR = 0`, from every state; a word with its opcode and `CTX != 0` or `RSV != 0` is illegal. -/
def Obligations.NopOnlyClearsErr : Prop :=
  decode 0x00000000 = .ok .nop ∧
  (∀ s : State, exec .nop s =
    .next { s with status := { s.status with err := .ok, busy := false }, draws := s.draws + 1 }) ∧
  (∀ s : State, RunsNext s → opcField s.cmd = 0 → (ctxField s.cmd ≠ 0 ∨ rsvField s.cmd ≠ 0) →
    step s = .next (s.finish .illegalCommand))

/-- O18. `BITREV` (R80, R81) reports its errors, and completes on every readable buffer of a power-of-two length that fits: element
`i` moves to place `reverseBits(i, log2 n)` bit for bit, and nothing else changes. -/
def Obligations.BitrevMovesEveryElement : Prop :=
  decode 0x00000001 = .ok .bitrev ∧ ReportsItsErrors .bitrev ∧
  ∀ (s : State) (k : Nat), s.arg 1 = 2 ^ k → s.arg 1 ≤ s.caps.nmax → Inside s (s.arg 0) (2 * s.arg 1) →
    Readable s.dmem (s.arg 0) (2 * s.arg 1) →
    ∃ t, exec .bitrev s = .next t ∧ EndsChangingMemory s t .ok ∧ SameOutside s.dmem t.dmem (s.arg 0) (2 * s.arg 1) ∧
      ∀ i, i < s.arg 1 →
        t.dmem.read (s.arg 0 + 2 * reverseBits i k) = s.dmem.read (s.arg 0 + 2 * i) ∧
        t.dmem.read (s.arg 0 + 2 * reverseBits i k + 1) = s.dmem.read (s.arg 0 + 2 * i + 1)

/-- O19. `FFT_FWD` (R83) reports its errors. With `n = 2` it succeeds without any access, wherever its buffer lies; else it
completes on every readable buffer of a power-of-two length that fits, and replaces it by its forward transform; nothing else
changes. -/
def Obligations.FftFwdStoresTheTransform : Prop :=
  decode 0x00000002 = .ok .fftFwd ∧ ReportsItsErrors .fftFwd ∧
  (∀ s : State, s.arg 1 = 2 → exec .fftFwd s = .next (s.finish .ok)) ∧
  ∀ (s : State) (v : List Cplx), (∃ k, s.arg 1 = 2 ^ k) → s.arg 1 ≠ 2 → s.arg 1 ≤ s.caps.nmax →
    Inside s (s.arg 0) (2 * s.arg 1) → loadC s.dmem (s.arg 0) (s.arg 1) = some v →
    ∃ t, exec .fftFwd s = .next t ∧ EndsChangingMemory s t .ok ∧ SameOutside s.dmem t.dmem (s.arg 0) (2 * s.arg 1) ∧
      loadC t.dmem (s.arg 0) (s.arg 1) = some (fwd Config.units (s.supply Config.units) v)

/-- O20. `FFT_INV` (R84, R85) reports its errors, and completes on every readable buffer of a power-of-two length that fits, also of
length 2: each element becomes the real part of the transformed conjugate divided by `n`, with imaginary part `+0.0`; nothing else
changes. -/
def Obligations.FftInvStoresScaledRealParts : Prop :=
  decode 0x00000003 = .ok .fftInv ∧ ReportsItsErrors .fftInv ∧
  ∀ (s : State) (v : List Cplx), (∃ k, s.arg 1 = 2 ^ k) → s.arg 1 ≤ s.caps.nmax →
    Inside s (s.arg 0) (2 * s.arg 1) → loadC s.dmem (s.arg 0) (s.arg 1) = some v →
    ∃ t, exec .fftInv s = .next t ∧ EndsChangingMemory s t .ok ∧ SameOutside s.dmem t.dmem (s.arg 0) (2 * s.arg 1) ∧
      ∀ i, i < s.arg 1 →
        t.dmem.read (s.arg 0 + 2 * i + 1) = some posZero ∧
        ∃ z d, (fwd Config.units ((s.supply Config.units).sub 0) (v.map fun a => { re := a.re, im := fneg a.im }))[i]? = some z ∧
          t.dmem.read (s.arg 0 + 2 * i) = some (fdiv d z.re (f64 (s.arg 1)))

/-- O21. `FFT_MAG` (R87) reports its errors, and completes on every readable source with equal lengths and buffers inside the
memory: its elements go in ascending order, element `t` being read from the memory that the elements before it left; nothing else
changes. -/
def Obligations.FftMagGoesInAscendingOrder : Prop :=
  decode 0x00000004 = .ok .fftMag ∧ ReportsItsErrors .fftMag ∧
  ∀ s : State, s.arg 1 = s.arg 3 → Inside s (s.arg 0) (s.arg 1) → Inside s (s.arg 2) (2 * s.arg 3) →
    Readable s.dmem (s.arg 2) (2 * s.arg 3) →
    ∃ (t : State) (mem : Nat → Memory), exec .fftMag s = .next t ∧ EndsChangingMemory s t .ok ∧
      SameOutside s.dmem t.dmem (s.arg 0) (s.arg 1) ∧ mem 0 = s.dmem ∧ mem (s.arg 3) = t.dmem ∧
      ∀ i, i < s.arg 3 → ∃ x y d d', (mem i).read (s.arg 2 + 2 * i) = some x ∧ (mem i).read (s.arg 2 + 2 * i + 1) = some y ∧
        mem (i + 1) = (mem i).write (s.arg 0 + i) (fdiv d (modulus Config.units d' x y) (f64 (s.arg 3)))

/-- O22. In place, or with the destination below the source or past it, each magnitude of `FFT_MAG` comes from the source element as
it was before the command (R87). -/
def Obligations.FftMagWorksInPlace : Prop :=
  ∀ s : State, s.arg 1 = s.arg 3 → Inside s (s.arg 0) (s.arg 1) → Inside s (s.arg 2) (2 * s.arg 3) →
    Readable s.dmem (s.arg 2) (2 * s.arg 3) → (s.arg 0 ≤ s.arg 2 ∨ s.arg 2 + 2 * s.arg 3 ≤ s.arg 0) →
    ∃ t, exec .fftMag s = .next t ∧
      ∀ i, i < s.arg 3 → ∃ x y d d', s.dmem.read (s.arg 2 + 2 * i) = some x ∧ s.dmem.read (s.arg 2 + 2 * i + 1) = some y ∧
        t.dmem.read (s.arg 0 + i) = some (fdiv d (modulus Config.units d' x y) (f64 (s.arg 3)))

/-- O23. No scaled magnitude is negative: it is a NaN or has a clear sign bit (R87, R76). That it is never `-0.0` is the model's
reading of never negative (log 3). -/
def Obligations.MagnitudesAreNeverNegative : Prop :=
  ∀ (u : Units) (κ : Draws) (n : Nat) (x y : F64),
    isNaN (scaledMag u κ n x y) = true ∨ signBit (scaledMag u κ n x y) = false

/-- O24. `CMAC` (R78) reports its errors, and completes on readable buffers inside the memory, in ascending order, each element read
in full before it is written, the accumulator on the left of the sum; nothing else changes. -/
def Obligations.CmacAccumulatesInAscendingOrder : Prop :=
  decode 0x00000005 = .ok .cmac ∧ ReportsItsErrors .cmac ∧
  ∀ s : State, Inside s (s.arg 0) (2 * s.arg 3) → Inside s (s.arg 1) (2 * s.arg 3) → Inside s (s.arg 2) (2 * s.arg 3) →
    Readable s.dmem (s.arg 0) (2 * s.arg 3) → Readable s.dmem (s.arg 1) (2 * s.arg 3) → Readable s.dmem (s.arg 2) (2 * s.arg 3) →
    ∃ (t : State) (mem : Nat → Memory), exec .cmac s = .next t ∧ EndsChangingMemory s t .ok ∧
      SameOutside s.dmem t.dmem (s.arg 0) (2 * s.arg 3) ∧ mem 0 = s.dmem ∧ mem (s.arg 3) = t.dmem ∧
      ∀ i, i < s.arg 3 → ∃ acc a b κ κ', (mem i).readC (s.arg 0 + 2 * i) = some acc ∧ (mem i).readC (s.arg 1 + 2 * i) = some a ∧
        (mem i).readC (s.arg 2 + 2 * i) = some b ∧
        mem (i + 1) = (mem i).writeC (s.arg 0 + 2 * i) (cadd κ acc (cmul κ' a b))

/-- O25. A command that reads a data-memory word holding no value faults (R121), once its checks pass: a missing word of a buffer
that is loaded whole, of the accumulator of `CMAC`, or of a source when the stored buffer starts at or below it, in
place included, or past it, so that no store can supply the word before it is read. -/
def Obligations.UnwrittenWordsFault : Prop :=
  ∀ s : State,
    (NoneFails (checksOf .bitrev s) → ¬ Readable s.dmem (s.arg 0) (2 * s.arg 1) → exec .bitrev s = .fault .unwrittenWord) ∧
    (NoneFails (checksOf .fftFwd s) → s.arg 1 ≠ 2 → ¬ Readable s.dmem (s.arg 0) (2 * s.arg 1) →
      exec .fftFwd s = .fault .unwrittenWord) ∧
    (NoneFails (checksOf .fftInv s) → ¬ Readable s.dmem (s.arg 0) (2 * s.arg 1) → exec .fftInv s = .fault .unwrittenWord) ∧
    (NoneFails (checksOf .fftMag s) → (s.arg 0 ≤ s.arg 2 ∨ s.arg 2 + 2 * s.arg 3 ≤ s.arg 0) →
      ¬ Readable s.dmem (s.arg 2) (2 * s.arg 3) → exec .fftMag s = .fault .unwrittenWord) ∧
    (NoneFails (checksOf .cmac s) → ¬ Readable s.dmem (s.arg 0) (2 * s.arg 3) → exec .cmac s = .fault .unwrittenWord) ∧
    (∀ src, src ∈ [s.arg 1, s.arg 2] → NoneFails (checksOf .cmac s) →
      (s.arg 0 ≤ src ∨ src + 2 * s.arg 3 ≤ s.arg 0) → ¬ Readable s.dmem src (2 * s.arg 3) →
      exec .cmac s = .fault .unwrittenWord) ∧
    (∀ x, NoneFails (checksOf (.convNew x) s) → ¬ Readable s.dmem (s.arg 3) (min (s.arg 4) 1920000) →
      exec (.convNew x) s = .fault .unwrittenWord) ∧
    (∀ x, NoneFails (checksOf (.convSetir x) s) → ¬ Readable s.dmem (s.arg 3) (min (s.arg 4) 1920000) →
      exec (.convSetir x) s = .fault .unwrittenWord) ∧
    (∀ x t, NoneFails (checksOf (.convRun x) s) → (s.ctx x).Shaped s.caps →
      (s.arg 0 ≤ s.arg 2 ∨ s.arg 2 + s.arg 3 ≤ s.arg 0) →
      t < s.arg 4 → (s.ctx x).channel + t * (s.ctx x).numChannels < s.arg 3 →
      s.dmem.read (s.arg 2 + ((s.ctx x).channel + t * (s.ctx x).numChannels)) = none →
      exec (.convRun x) s = .fault .unwrittenWord)

/-- O26. `CONV_NEW` (R89, R90, R93) reports its errors, and completes when its checks pass and the impulse response is readable, for
the least power of two `B` that is at least the desired block size: context `x` gets the plan, zeroed buffers and ring, and the
loaded impulse segments; no other context and no memory changes. -/
def Obligations.ConvNewConfiguresTheContext : Prop :=
  (∀ x, x < 16 → decode (BitVec.ofNat 32 (x * 2 ^ 8 + 0x10)) = .ok (.convNew x) ∧ ReportsItsErrors (.convNew x)) ∧
  ∀ (s : State) (x B F L' M K : Nat) (h : List F64), x < s.caps.nctx → s.arg 0 ≠ 0 →
    (∃ k, B = 2 ^ k) → s.arg 0 ≤ B → (∀ j, s.arg 0 ≤ 2 ^ j → B ≤ 2 ^ j) → F = (if B ≤ 128 then 4 * B else 2 * B) →
    0 ≤ s.argSigned 1 → s.argSigned 1 < s.argSigned 2 → s.arg 4 ≠ 0 → L' = min (s.arg 4) 1920000 → M = L' / (F - B) + 1 →
    K = (if 128 < B then M else 3 * M) → F ≤ s.caps.nmax → M ≤ s.caps.mmax.toNat → K ≤ s.caps.kmax.toNat →
    Inside s (s.arg 3) L' → loadR s.dmem (s.arg 3) L' = some h →
    ∃ t, exec (.convNew x) s = .next t ∧ EndsChangingContext s t x .ok ∧
      t.ctx x =
        { configured := true, B := B, F := F, SEG := F - B, M := M, K := K, STEP := if 128 < B then 1 else 3
          channel := (s.argSigned 1).toNat, numChannels := (s.argSigned 2).toNat
          inputBuf := List.replicate F posZero, overlapBuf := List.replicate F posZero
          outputBuf := List.replicate F zeroC, tempBuf := List.replicate F zeroC
          impulseSegments := loadImpulse Config.units (s.supply Config.units) h (F - B) F M
          inputSegments := List.replicate K (List.replicate F zeroC), inputPos := 0, inputSegmentPos := 0 }

/-- O27. `CONV_SETIR` (R94) reports its errors, and completes on a configured context when its checks pass and the impulse response
is readable, also inside a block: it replaces the segments, clears the ring and the positions, keeps the rest of the context, and
sets `UNDEF` when it was issued inside a block. -/
def Obligations.ConvSetirReplacesTheImpulseResponse : Prop :=
  (∀ x, x < 16 → decode (BitVec.ofNat 32 (x * 2 ^ 8 + 0x11)) = .ok (.convSetir x) ∧ ReportsItsErrors (.convSetir x)) ∧
  ∀ (s : State) (x L' M K : Nat) (h : List F64), x < s.caps.nctx → (s.ctx x).configured = true →
    s.arg 4 ≠ 0 → L' = min (s.arg 4) 1920000 → M = L' / (s.ctx x).SEG + 1 → K = (if 128 < (s.ctx x).B then M else 3 * M) →
    M ≤ s.caps.mmax.toNat → K ≤ s.caps.kmax.toNat → Inside s (s.arg 3) L' → loadR s.dmem (s.arg 3) L' = some h →
    ∃ t, exec (.convSetir x) s = .next t ∧
      t.ctx x =
        { s.ctx x with
          M := M, K := K, STEP := if 128 < (s.ctx x).B then 1 else 3
          impulseSegments := loadImpulse Config.units (s.supply Config.units) h (s.ctx x).SEG (s.ctx x).F M
          inputSegments := List.replicate K (List.replicate (s.ctx x).F zeroC), inputPos := 0, inputSegmentPos := 0 } ∧
      (∀ y, y ≠ x → t.ctx y = s.ctx y) ∧ t.status.err = .ok ∧ t.status.busy = false ∧
      (t.status.undef = true ↔ s.status.undef = true ∨ (s.ctx x).inputPos ≠ 0) ∧
      t = { s with status := t.status, ctxs := t.ctxs, draws := s.draws + 1 }

/-- O28. `CONV_RUN` (R95 to R102) completes on a configured, shaped context with both buffers inside the memory and the lane's input
words readable: the position and the ring position move by the samples processed, the plan, the lane and the impulse segments stay,
and the only words stored are the lane's words of `out` below `outlen`. -/
def Obligations.ConvRunProcessesItsLane : Prop :=
  ∀ (s : State) (x : Nat), x < s.caps.nctx → (s.ctx x).configured = true → (s.ctx x).Shaped s.caps →
    Inside s (s.arg 0) (s.arg 1) → Inside s (s.arg 2) (s.arg 3) →
    (∀ t, t < s.arg 4 → (s.ctx x).channel + t * (s.ctx x).numChannels < s.arg 3 →
      (s.dmem.read (s.arg 2 + ((s.ctx x).channel + t * (s.ctx x).numChannels))).isSome) →
    ∃ t, exec (.convRun x) s = .next t ∧ t = State.finish { s with dmem := t.dmem, ctxs := t.ctxs } .ok ∧
      (∀ y, y ≠ x → t.ctx y = s.ctx y) ∧
      (t.ctx x).inputPos = ((s.ctx x).inputPos + s.arg 4) % (s.ctx x).B ∧
      ((t.ctx x).inputSegmentPos : Int) =
        ((s.ctx x).inputSegmentPos - (((s.ctx x).inputPos + s.arg 4) / (s.ctx x).B : Nat)) % ((s.ctx x).K : Int) ∧
      t.ctx x =
        { s.ctx x with
          inputBuf := (t.ctx x).inputBuf, outputBuf := (t.ctx x).outputBuf, tempBuf := (t.ctx x).tempBuf
          overlapBuf := (t.ctx x).overlapBuf, inputSegments := (t.ctx x).inputSegments
          inputPos := (t.ctx x).inputPos, inputSegmentPos := (t.ctx x).inputSegmentPos } ∧
      ∀ b, (∀ i, i < s.arg 4 → (s.ctx x).channel + i * (s.ctx x).numChannels < s.arg 1 →
        b / 8 ≠ s.arg 0 + ((s.ctx x).channel + i * (s.ctx x).numChannels)) → t.dmem.get b = s.dmem.get b

/-- O29. `CONV_RUN` of no samples changes nothing but `ERR` (R96). -/
def Obligations.ConvRunOfNoSamples : Prop :=
  ∀ (s : State) (x : Nat), NoneFails (checksOf (.convRun x) s) → s.arg 4 = 0 →
    ∃ t, exec (.convRun x) s = .next t ∧ EndsChangingMemory s t .ok ∧ t.dmem = s.dmem ∧ ∀ y, t.ctx y = s.ctx y

/-- O30. Contexts on different lanes of the same buffers write disjoint words of `out` (R104): no lane index of one is a lane index
of the other. -/
def Obligations.LanesAreDisjoint : Prop :=
  ∀ (c d : Context) (i j : Nat), c.numChannels = d.numChannels → c.channel < c.numChannels → d.channel < d.numChannels →
    c.channel ≠ d.channel → laneIndex c i ≠ laneIndex d j

/-- O31. A pass gathers the samples of R97 into the frame buffer and leaves the rest of it (R97, R98), and the ring slot of the pass
gets the transform of the frame buffer widened with `+0.0`. -/
def Obligations.PassTransformsTheFrameBuffer : Prop :=
  ∀ (u : Units) (κ : Draws) (c : Context) (caps : Caps) (a : RunArgs) (m : Memory) (cnt nsp : Nat) (xs : List F64),
    c.Shaped caps → cnt ≤ c.B - c.inputPos → gather a c m cnt nsp = some xs →
    let d := transformBlock u κ c xs
    d = { c with
      inputBuf := d.inputBuf, inputSegments := d.inputSegments, tempBuf := d.tempBuf, outputBuf := d.outputBuf } ∧
    (∀ i, i < cnt → d.inputBuf[c.inputPos + i]? =
      if c.channel + (nsp + i) * c.numChannels < a.inlen then m.read (a.inbase + (c.channel + (nsp + i) * c.numChannels))
      else some posZero) ∧
    (∀ t, (t < c.inputPos ∨ c.inputPos + cnt ≤ t) → d.inputBuf[t]? = c.inputBuf[t]?) ∧
    (∃ κ', d.inputSegments[c.inputSegmentPos]? = some (fwd u κ' (d.inputBuf.map fun x => { re := x, im := posZero }))) ∧
    (∀ p, p ≠ c.inputSegmentPos → d.inputSegments[p]? = c.inputSegments[p]?)

/-- O32. The block sum of a pass and its inverse (R100): bin `k` of the sum is the tail sum's bin plus the product of the newest
ring segment and impulse segment 0, the accumulator on the left, and every output of the inverse transform has imaginary part
`+0.0`. -/
def Obligations.BlockSumIsInverted : Prop :=
  ∀ (u : Units) (κ : Draws) (caps : Caps) (c : Context) (xs : List F64), c.Shaped caps →
    let d := transformBlock u κ c xs
    (∃ κ' sum, d.outputBuf = inv u κ' sum ∧ sum.length = c.F ∧
      ∀ k, k < c.F → ∃ z a b κa κb seg imp, d.tempBuf[k]? = some z ∧ d.inputSegments[c.inputSegmentPos]? = some seg ∧
        c.impulseSegments[0]? = some imp ∧ seg[k]? = some a ∧ imp[k]? = some b ∧ sum[k]? = some (cadd κa z (cmul κb a b))) ∧
    ∀ z ∈ d.outputBuf, z.im = posZero

/-- O33. The tail sum (R99): in a pass that starts at a block boundary it starts from zero and accumulates, for `i = 1 .. M-1` in
order, the product of impulse segment `i` and the ring slot `i·STEP` after the newest, which is never the newest slot; inside the
block it is reused unchanged. -/
def Obligations.TailSumMeetsOlderBlocks : Prop :=
  ∀ (u : Units) (κ : Draws) (caps : Caps) (c : Context) (xs : List F64), c.Shaped caps →
    let d := transformBlock u κ c xs
    (c.inputPos ≠ 0 → d.tempBuf = c.tempBuf) ∧
    (c.inputPos = 0 → ∃ acc : Nat → List Cplx, acc 0 = List.replicate c.F zeroC ∧ d.tempBuf = acc (c.M - 1) ∧
      (∀ i, (acc i).length = c.F) ∧
      ∀ i, 1 ≤ i → i < c.M →
        (c.inputSegmentPos + i * c.STEP) % c.K ≠ c.inputSegmentPos ∧
        ∀ k, k < c.F → ∃ z a b κa κb seg imp, (acc (i - 1))[k]? = some z ∧
          c.inputSegments[(c.inputSegmentPos + i * c.STEP) % c.K]? = some seg ∧ c.impulseSegments[i]? = some imp ∧
          seg[k]? = some a ∧ imp[k]? = some b ∧ (acc i)[k]? = some (cadd κa z (cmul κb a b)))

/-- O34. The block boundary (R102): the positions step, the frame buffer is zeroed, and the saved tail is the block's output beyond
`B`, with the deferred overlap added below `F - B`; the rest of the context stays. -/
def Obligations.BlockBoundarySavesTheTail : Prop :=
  ∀ (κ : Draws) (caps : Caps) (c : Context) (cnt : Nat), c.Shaped caps → c.inputPos + cnt = c.B →
    let d := advance κ c cnt
    d = { c with
      inputPos := 0, inputBuf := List.replicate c.F posZero, outputBuf := d.outputBuf, overlapBuf := d.overlapBuf
      inputSegmentPos := d.inputSegmentPos } ∧
    (∀ t, c.F - c.B ≤ t → d.overlapBuf[t]? = c.overlapBuf[t]?) ∧
    (d.inputSegmentPos : Int) = ((c.inputSegmentPos : Int) - 1) % (c.K : Int) ∧
    ∀ t, t < c.F - c.B → ∃ z, c.outputBuf[c.B + t]? = some z ∧
      ∃ r, d.overlapBuf[t]? = some r ∧
        (t < c.F - 2 * c.B → ∃ o f, c.overlapBuf[c.B + t]? = some o ∧ r = fadd f z.re o) ∧ (c.F - 2 * c.B ≤ t → r = z.re)

/-- O35. Inside a block a pass only moves the position (R102). -/
def Obligations.InsideTheBlockOnlyThePositionMoves : Prop :=
  ∀ (κ : Draws) (c : Context) (cnt : Nat), c.inputPos + cnt ≠ c.B → advance κ c cnt = { c with inputPos := c.inputPos + cnt }

/-- O36. Emission (R101): sample `i` of a pass is the block's output at its position plus the saved tail there, at the lane's index
of `out` when that is below `outlen`; every byte of the memory outside those words is unchanged. -/
def Obligations.PassEmitsItsLane : Prop :=
  ∀ (κ : Draws) (caps : Caps) (c : Context) (a : RunArgs) (m : Memory) (cnt nsp : Nat), c.Shaped caps → c.inputPos + cnt ≤ c.B →
    (∀ i, i < cnt → c.channel + (nsp + i) * c.numChannels < a.outlen →
      ∃ z o d, c.outputBuf[c.inputPos + i]? = some z ∧ c.overlapBuf[c.inputPos + i]? = some o ∧
        (emit κ a c cnt c.inputPos nsp m).read (a.outbase + (c.channel + (nsp + i) * c.numChannels)) = some (fadd d z.re o)) ∧
    ∀ b, (∀ i, i < cnt → c.channel + (nsp + i) * c.numChannels < a.outlen →
      b / 8 ≠ a.outbase + (c.channel + (nsp + i) * c.numChannels)) → (emit κ a c cnt c.inputPos nsp m).get b = m.get b

/-- O37. A `CONV_RUN` whose samples all fall into the current block is one pass (R95, R96): gather, transform, emit, advance. -/
def Obligations.ConvRunInsideOneBlock : Prop :=
  ∀ (s : State) (x : Nat) (xs : List F64), NoneFails (checksOf (.convRun x) s) → 0 < s.arg 4 →
    s.arg 4 ≤ (s.ctx x).B - (s.ctx x).inputPos → gather (runArgs s) (s.ctx x) s.dmem (s.arg 4) 0 = some xs →
    ∃ t κ κ' κ'', exec (.convRun x) s = .next t ∧
      t.ctx x = advance κ'' (transformBlock Config.units κ (s.ctx x) xs) (s.arg 4) ∧
      t.dmem = emit κ' (runArgs s) (transformBlock Config.units κ (s.ctx x) xs) (s.arg 4) (s.ctx x).inputPos 0 s.dmem

/-- O38. The impulse loader (R92): segment `i` is the transform of `F` cells; cell `j < SEG` with `j + i·SEG < L'` holds that
coefficient, a NaN as `+0.0`, every other cell is zero, and under `MARKER_RESIDUAL` a zero first coefficient leaves `1.0` in the
first cell. -/
def Obligations.ImpulseSegmentsHoldTheCoefficients : Prop :=
  ∀ (u : Units) (κ : Draws) (h : List F64) (SEG F M i : Nat), 0 < h.length → 0 < SEG → i < M →
    ∃ (κ' : Draws) (cells : List Cplx), (loadImpulse u κ h SEG F M)[i]? = some (fwd u κ' cells) ∧ cells.length = F ∧
      ∀ j, j < F → ∃ z, cells[j]? = some z ∧ z.im = posZero ∧
        (∀ x, j < SEG → h[j + i * SEG]? = some x →
          z.re = if isNaN x then (if j + i * SEG = 0 ∧ u.markerResidual then oneF64 else posZero)
            else if j + i * SEG = 0 ∧ isZero x ∧ u.markerResidual then oneF64 else x) ∧
        ((SEG ≤ j ∨ h.length ≤ j + i * SEG) → z.re = posZero)

/-! The register window and reset. -/

/-- O39. A host write to `CMD` (R16, R19): idle, it latches the word and the arguments and sets `BUSY`; busy, it is dropped and sets
`OVR`. A read gives 0. -/
def Obligations.CmdWriteStartsOrOverruns : Prop :=
  ∀ (u : Units) (s : State) (w : Word), s.inReset = false →
    (s.status.busy = false → hostAccess u (.regWrite 0x00 32 w) s =
      .next { s with status := { s.status with busy := true }, cmd := w, args := s.a }) ∧
    (s.status.busy = true → hostAccess u (.regWrite 0x00 32 w) s =
      .next { s with status := { s.status with ovr := true } }) ∧
    hostAccess u (.regRead 0x00 32) s = .next { s with reply := .reg 0 }

/-- O40. A running command reads only its latched arguments (R19): with other argument registers it does the same, and leaves them. A host
write to an argument register, busy or not, changes that register and nothing else. That two such runs agree on NaN signs and payloads
too is the model's choice (log 5). -/
def Obligations.ArgumentWritesSpareTheRunningCommand : Prop :=
  (∀ (i : Instr) (s : State) (b : Vector Word 5),
    (∀ t, exec i s = .next t → exec i { s with a := b } = .next { t with a := b }) ∧
    (∀ f, exec i s = .fault f → exec i { s with a := b } = .fault f) ∧
    (∀ r, exec i s = .refused r → exec i { s with a := b } = .refused r)) ∧
  ∀ (u : Units) (s : State) (i : Fin 5) (v : Word), s.inReset = false →
    ∃ t, hostAccess u (.regWrite (0x08 + 4 * i.val) 32 v) s = .next t ∧ t = { s with a := t.a } ∧ t.a[i] = v ∧
      ∀ j : Fin 5, j ≠ i → t.a[j] = s.a[j]

/-- O41. Reads of the storage registers (R17, R18, R20 to R22): the argument registers, `CSEL`, the capability registers and
`STATUS` with its fields in place, the error numbers of R108 and its reserved bits 0; no register read has a side effect on the block (R42). -/
def Obligations.RegisterReads : Prop :=
  ∀ (u : Units) (s : State), s.inReset = false →
    (∀ i : Fin 5, hostAccess u (.regRead (0x08 + 4 * i.val) 32) s = .next { s with reply := .reg s.a[i] }) ∧
    (∃ w : Word, hostAccess u (.regRead 0x04 32) s = .next { s with reply := .reg w } ∧
      w.toNat = s.status.busy.toNat + 16 * errNumber s.status.err + 256 * s.status.undef.toNat + 512 * s.status.ovr.toNat) ∧
    (∃ w : Word, hostAccess u (.regRead 0x1C 32) s = .next { s with reply := .reg w } ∧ s.caps.nmax = 2 ^ (w.toNat % 32) ∧
      w.toNat / 32 % 8 = 0 ∧ w.toNat / 256 % 16 = s.caps.nctx - 1 ∧ w.toNat / 4096 = 0) ∧
    hostAccess u (.regRead 0x20 32) s = .next { s with reply := .reg s.caps.mmax } ∧
    hostAccess u (.regRead 0x24 32) s = .next { s with reply := .reg s.caps.kmax } ∧
    (∃ w : Word, hostAccess u (.regRead 0x28 32) s = .next { s with reply := .reg w } ∧ w.toNat = s.caps.dmemWords - 1) ∧
    hostAccess u (.regRead 0x2C 32) s = .next { s with reply := .reg (s.csel.setWidth 32) }

/-- O42. The context-information registers (R23): while idle they show the fields of the selected context when it exists and is
configured, and 0 otherwise; while busy they give some word; they ignore writes. -/
def Obligations.ContextInfoReads : Prop :=
  ∀ (u : Units) (s : State) (k : Fin 10), s.inReset = false →
    (s.status.busy = false →
      ∃ w : Word, hostAccess u (.regRead (0x30 + 4 * k.val) 32) s = .next { s with reply := .reg w } ∧
        ((s.csel.toNat < s.caps.nctx ∧ (s.ctx s.csel.toNat).configured = true) →
          let c := s.ctx s.csel.toNat
          w = BitVec.ofNat 32
            ([1, c.B, c.F, c.M, c.K, c.STEP, c.inputPos, c.inputSegmentPos, c.channel, c.numChannels].getD k.val 0)) ∧
        (¬ (s.csel.toNat < s.caps.nctx ∧ (s.ctx s.csel.toNat).configured = true) → w = 0)) ∧
    (s.status.busy = true →
      ∃ w : Word, hostAccess u (.regRead (0x30 + 4 * k.val) 32) s = .next { s with reply := .reg w, draws := s.draws + 1 }) ∧
    ∀ v, hostAccess u (.regWrite (0x30 + 4 * k.val) 32 v) s = .next s

/-- O43. Writes to read-only registers and to reserved offsets are ignored, reserved offsets read 0, and `CSEL` keeps four bits
(R15, R22, R24, R42). -/
def Obligations.IgnoredWritesAndReservedOffsets : Prop :=
  ∀ (u : Units) (s : State) (v : Word), s.inReset = false →
    (∀ off, off ∈ [0x04, 0x1C, 0x20, 0x24, 0x28] → hostAccess u (.regWrite off 32 v) s = .next s) ∧
    (∀ k, 12 ≤ k → k < 64 → hostAccess u (.regWrite (4 * k) 32 v) s = .next s) ∧
    (∀ k, 22 ≤ k → k < 64 → hostAccess u (.regRead (4 * k) 32) s = .next { s with reply := .reg 0 }) ∧
    hostAccess u (.regWrite 0x2C 32 v) s = .next { s with csel := v.setWidth 4 }

/-- O44. The model refuses a host access to the data memory while busy (R124), and a register access that is not 32 bits wide, not
at a multiple of 4, or not in the window (R24; refusing an offset outside the window is the model's choice, log 18). -/
def Obligations.HostAccessesTheModelRefuses : Prop :=
  ∀ (u : Units) (s : State),
    (s.status.busy = true → ∀ addr v, hostAccess u (.dmemWrite addr v) s = .refused .hostDmemWhileBusy ∧
      hostAccess u (.dmemRead addr) s = .refused .hostDmemWhileBusy) ∧
    (s.inReset = false → ∀ off width v, (width ≠ 32 ∨ off % 4 ≠ 0 ∨ 256 ≤ off) →
      hostAccess u (.regWrite off width v) s = .refused .badRegisterAccess ∧
      hostAccess u (.regRead off width) s = .refused .badRegisterAccess)

/-- O45. The host's accesses to the data memory of an idle block (R34, R40). A write stores its word: it reads back, in the host's byte view
least significant byte first, and every other byte is unchanged. A read answers the word's value and changes nothing. A read of a word
that holds no value faults (the model's choice, log 6), and so does an access at or above `DMEM_WORDS` (log 7). That all this holds while
reset is asserted too is the model's reading (log 12). -/
def Obligations.HostMemoryWritesReadBack : Prop :=
  ∀ (u : Units) (s : State) (addr : Word), s.status.busy = false →
    (addr.toNat < s.caps.dmemWords →
      (∀ v, ∃ t, hostAccess u (.dmemWrite addr v) s = .next t ∧ t = { s with dmem := t.dmem } ∧
        hostAccess u (.dmemRead addr) t = .next { t with reply := .word v } ∧
        (∀ i, i < 8 → t.dmem.get (8 * addr.toNat + i) = some (BitVec.ofNat 8 (v.toNat / 2 ^ (8 * i)))) ∧
        SameOutside s.dmem t.dmem addr.toNat 1) ∧
      (∀ v, s.dmem.read addr.toNat = some v → hostAccess u (.dmemRead addr) s = .next { s with reply := .word v }) ∧
      (s.dmem.read addr.toNat = none → hostAccess u (.dmemRead addr) s = .fault .unwrittenWord)) ∧
    (s.caps.dmemWords ≤ addr.toNat →
      hostAccess u (.dmemRead addr) s = .fault .noSuchWord ∧ ∀ v, hostAccess u (.dmemWrite addr v) s = .fault .noSuchWord)

/-- O46. What reset leaves (R36, R119): `STATUS`, `A0` to `A4` and `CSEL` zero, no context configured, the constants and the data
memory unchanged when the block was idle; while reset is asserted register accesses are ignored. That the values hold from the
assertion on and that an ignored read has an empty reply are the model's choices (log 12), that a malformed access is
ignored too is log 25, and that power-on leaves the reset input asserted is log 14. -/
def Obligations.ResetLeavesTheTableOfR36 : Prop :=
  ∀ (u : Units) (s : State),
    (∃ t, hostAccess u .assertReset s = .next t ∧ t.inReset = true ∧ t.status.word = 0 ∧ (∀ i : Fin 5, t.a[i] = 0) ∧ t.csel = 0 ∧
      t.caps = s.caps ∧ (∀ x, (t.ctx x).configured = false) ∧ (s.status.busy = false → t.dmem = s.dmem)) ∧
    (∃ t, hostAccess u .powerOn s = .next t ∧ t.inReset = true ∧ t.status.word = 0 ∧ (∀ i : Fin 5, t.a[i] = 0) ∧ t.csel = 0 ∧
      t.caps = s.caps ∧ (∀ x, (t.ctx x).configured = false) ∧ ∀ w, t.dmem.read w = none) ∧
    (s.inReset = true → ∀ off width v, hostAccess u (.regWrite off width v) s = .next s ∧
      hostAccess u (.regRead off width) s = .next { s with reply := .empty }) ∧
    hostAccess u .releaseReset s = .next { s with inReset := false }

/-- O47. Reset while busy (R120): every word of the buffer the command would store holds a value, which nothing fixes, and every
byte outside it is unchanged; a command that a check ends, and an illegal word, store nothing (the whole of `out` for `CONV_RUN`,
and nothing for a command that a check ends, are the model's reading, log 13). -/
def Obligations.ResetWhileBusyScramblesTheOutputBuffer : Prop :=
  ∀ (u : Units) (s : State), s.status.busy = true →
    ∃ t, hostAccess u .assertReset s = .next t ∧
      (∀ i, decode s.cmd = .ok i → NoneFails (checksOf i s) →
        SameOutside s.dmem t.dmem (storeWords i s).1 (storeWords i s).2 ∧
        Readable t.dmem (storeWords i s).1 (storeWords i s).2) ∧
      (∀ i e, decode s.cmd = .ok i → FirstFailing (checksOf i s) e → t.dmem = s.dmem) ∧
      (∀ e, decode s.cmd = .error e → t.dmem = s.dmem)

/-! Numerics. -/

/-- O48. The four floating-point operations are rounded once, to nearest with ties to even, on finite operands (R10, R64, R66). A sum that is
exactly zero is `+0.0` unless both its terms are negative, and a product or a quotient has the sign of its operands' signs, zeros and
infinities included; `f64(n)` is exact up to `2^53`. -/
def Obligations.OperationsRoundToNearestEven : Prop :=
  (∀ (d : BitVec 64) (x y : F64), isFinite x = true → isFinite y = true →
    RoundedTo (toRat x + toRat y) (fadd d x y) ∧ RoundedTo (toRat x - toRat y) (fsub d x y) ∧
    RoundedTo (toRat x * toRat y) (fmul d x y) ∧ (isZero y = false → RoundedTo (toRat x / toRat y) (fdiv d x y)) ∧
    (toRat x + toRat y = 0 → fadd d x y = if signBit x = true ∧ signBit y = true then negZero else posZero) ∧
    (toRat x - toRat y = 0 → fsub d x y = if signBit x = true ∧ signBit y = false then negZero else posZero) ∧
    (signBit (fmul d x y) = true ↔ signBit x ≠ signBit y) ∧
    (isZero y = false → (signBit (fdiv d x y) = true ↔ signBit x ≠ signBit y))) ∧
  ∀ n : Nat, n ≤ 2 ^ 53 → isFinite (f64 n) = true ∧ signBit (f64 n) = false ∧ toRat (f64 n) = n

/-- O49. NaNs and infinities as operands (R65): a NaN operand gives a NaN, whatever the free value, and so do the difference of equal
infinities, an infinity times a zero, and the quotient of two infinities or of two zeros; any other infinite operand gives the signed
infinity or, as a divisor, the signed zero, and a zero divisor the signed infinity; `fneg` only flips the sign bit. -/
def Obligations.NaNsStayNaNs : Prop :=
  ∀ (d : BitVec 64) (x y : F64),
    ((isNaN x = true ∨ isNaN y = true) →
      isNaN (fadd d x y) = true ∧ isNaN (fsub d x y) = true ∧ isNaN (fmul d x y) = true ∧ isNaN (fdiv d x y) = true) ∧
    (isInf x = true → isFinite y = true →
      fadd d x y = x ∧ fadd d y x = x ∧ fsub d x y = x ∧ fsub d y x = fneg x ∧
      fdiv d x y = signed x y posInf ∧ fdiv d y x = signed x y posZero) ∧
    (isInf x = true → isInf y = true →
      (signBit x = signBit y → fadd d x y = x ∧ isNaN (fsub d x y) = true) ∧
      (signBit x ≠ signBit y → isNaN (fadd d x y) = true ∧ fsub d x y = x) ∧ isNaN (fdiv d x y) = true) ∧
    (isInf x = true → isZero y = true → isNaN (fmul d x y) = true ∧ isNaN (fmul d y x) = true) ∧
    (isInf x = true → isNaN y = false → isZero y = false →
      fmul d x y = signed x y posInf ∧ fmul d y x = signed x y posInf) ∧
    (isZero x = true → isZero y = true → isNaN (fdiv d x y) = true) ∧
    (isFinite x = true → isZero x = false → isZero y = true → fdiv d x y = signed x y posInf) ∧
    (signBit (fneg x) = !signBit x ∧ expField (fneg x) = expField x ∧ fracField (fneg x) = fracField x)

/-- O50. The complex sum, difference and product are the real operations of R10 and R73, each rounded, with no infinity recovery, and the
complex multiplier is commutative bit for bit, up to the free NaNs (R73). -/
def Obligations.ComplexMultiplierCommutes : Prop :=
  ∀ (κ κ' : Draws) (a b : Cplx),
    (∃ d d', cadd κ a b = { re := fadd d a.re b.re, im := fadd d' a.im b.im }) ∧
    (∃ d d', csub κ a b = { re := fsub d a.re b.re, im := fsub d' a.im b.im }) ∧
    (∃ d0 d1 d2 d3 d4 d5, cmul κ a b =
      { re := fsub d0 (fmul d1 a.re b.re) (fmul d2 a.im b.im), im := fadd d3 (fmul d4 a.re b.im) (fmul d5 a.im b.re) }) ∧
    SameUpToNaNC (cmul κ a b) (cmul κ' b a)

/-- O51. The butterfly's product is the complex product with the negated sine, up to the free NaNs (R74). -/
def Obligations.ConjugateTwiddleIsAProduct : Prop :=
  ∀ (κ κ' : Draws) (a : Cplx) (t : Twiddle), SameUpToNaNC (conjtw κ a t) (cmul κ' a { re := t.c, im := fneg t.s })

/-- O52. The modulus meets `HYPOT_OK` on every device (R76): an infinite operand gives `+Inf`, else a NaN operand gives a NaN, else
the result is not negative, not a NaN, and within 1 ulp of the root of the exact sum of squares, one ulp being the distance to the
next larger encoding, and `+Inf` counting as one ulp above the largest finite value (the model's reading, log 3). -/
def Obligations.ModulusMeetsHypotOk : Prop :=
  ∀ (u : Units) (d : BitVec 64) (x y : F64),
    ((isInf x = true ∨ isInf y = true) → modulus u d x y = posInf) ∧
    (isInf x = false → isInf y = false → (isNaN x = true ∨ isNaN y = true) → isNaN (modulus u d x y) = true) ∧
    (isFinite x = true → isFinite y = true → signBit (modulus u d x y) = false ∧ isNaN (modulus u d x y) = false ∧
      let r := modulus u d x y
      let root := Real.sqrt (((toRat x : ℚ) : Real) ^ 2 + ((toRat y : ℚ) : Real) ^ 2)
      let ulp : Real := ((2 ^ (expField r - 1) : Nat) : Real) / (unitsPerOne : Real)
      (isInf r = false → |((toRat r : ℚ) : Real) - root| ≤ ulp) ∧ (isInf r = true → (2 : Real) ^ 1024 - 2 ^ 971 ≤ root))

/-- O53. Bit reversal moves bit `b` to bit `bits - 1 - b`, stays below `2^bits`, and undoes itself (R72, R80). -/
def Obligations.BitReversalIsAnInvolution : Prop :=
  ∀ v bits : Nat, v < 2 ^ bits →
    reverseBits v bits < 2 ^ bits ∧ (∀ b, b < bits → (reverseBits v bits).testBit (bits - 1 - b) = v.testBit b) ∧
    reverseBits (reverseBits v bits) bits = v

/-- O54. The utility functions of R69 to R71: `isPowerOfTwo` holds of exactly the powers of two, `nextPowerOfTwo` is the least power
of two at or above its argument, and `log2` is the floor of the logarithm. -/
def Obligations.UtilityFunctions : Prop :=
  ∀ v : Nat, (isPowerOfTwo v = true ↔ v ≠ 0 ∧ v &&& (v - 1) = 0) ∧ (isPowerOfTwo v = true ↔ ∃ k, v = 2 ^ k) ∧
    (1 ≤ v → (∃ k, nextPowerOfTwo v = 2 ^ k) ∧ v ≤ nextPowerOfTwo v ∧ (∀ j, v ≤ 2 ^ j → nextPowerOfTwo v ≤ 2 ^ j) ∧
      2 ^ log2 v ≤ v ∧ v < 2 ^ (log2 v + 1))

/-- O55. What the planner gives (R89, R90): `F >= 4`, `F >= 2B`, `SEG >= B >= 1`, the segments hold more than the impulse response,
and the stride is 3 for small blocks and 1 for large ones. -/
def Obligations.PlannerBounds : Prop :=
  ∀ bs L' : Nat, 1 ≤ bs →
    let B := nextPowerOfTwo bs
    let F := planF B
    let SEG := F - B
    let M := planM SEG L'
    let K := planK B M
    4 ≤ F ∧ 2 * B ≤ F ∧ B ≤ SEG ∧ 1 ≤ B ∧ L' < M * SEG ∧ (M - 1) * SEG ≤ L' ∧ (B ≤ 128 → K / M = 3) ∧ (128 < B → K / M = 1) ∧
    (M - 1) * (K / M) < K

/-- O56. With exact arithmetic and exact twiddle factors the butterfly network of R82 computes the discrete Fourier transform, for
every power-of-two length but 2 (R88). -/
def Obligations.ExactNetworkIsTheFourierTransform : Prop :=
  ∀ (k : Nat) (v : List ℂ), k ≠ 1 → v.length = 2 ^ k →
    ∀ m : Nat, m < 2 ^ k →
      (fwdNetwork (fun t _ a b => exactButterfly (2 ^ k) t a b) v)[m]? =
        some (∑ j ∈ Finset.range (2 ^ k), (v.getD j 0) * Complex.exp (-2 * Real.pi * Complex.I * j * m / (2 ^ k : ℕ)))

/-- O57. The length-2 quirk and length 1 (R82, R84): `fwd` of two elements is those elements, not their transform, `fwd` of one is
that one, and `inv` of two halves the real parts and zeroes the imaginary parts. -/
def Obligations.ShortTransforms : Prop :=
  ∀ (u : Units) (κ : Draws) (a b : Cplx), fwd u κ [a, b] = [a, b] ∧ fwd u κ [a] = [a] ∧
    ∃ d d', inv u κ [a, b] = [{ re := fdiv d a.re (f64 2), im := posZero }, { re := fdiv d' b.re (f64 2), im := posZero }]

/-! The host's notation. -/

/-- O58. A command pseudo-instruction (R62), issued to an idle block: its accesses write the argument registers it names, leave the
others, latch them and its command word, set `BUSY`, and leave its `wait` to come; data memory and contexts are untouched until the
command runs (`wait` is its last poll, log 22). The word is the opcode with the context from bit 8 on: it decodes to the command when
the context fits the field `CTX`, and is illegal when it does not. -/
def Obligations.PseudoInstructionsLatchTheirCommand : Prop :=
  ∀ (s : State) (p : Pseudo) (early : Bool), s.inReset = false → s.status.busy = false → s.pending = [] → p.wellFormed = true →
    ∃ t, Reaches (s.withProgram early p.expand) t ∧ RunsNext t ∧ t.args = t.a ∧
      t.cmd.toNat = 256 * (contextOf p.command).getD 0 + p.command.opcode ∧
      (p.command.wellFormed = true → decode t.cmd = .ok p.command) ∧ (p.command.wellFormed = false → IllegalWord s.caps t.cmd) ∧
      (∀ iv, iv ∈ p.arguments → t.args[iv.1] = iv.2) ∧ (∀ i : Fin 5, (∀ v, (i, v) ∉ p.arguments) → t.args[i] = s.a[i]) ∧
      t = { s with
        status := { s.status with busy := true }, a := t.a, cmd := t.cmd, args := t.args
        pending := [{ early := false, access := .regRead 0x04 32 }] }

/-! A whole `CONV_RUN`, and a whole transform. -/

/-- O59. A `CONV_RUN` over any number of blocks is the sequence of its passes (R95, R96): pass `j` takes as many samples as are left of the
call and of the block, at least one, and gathers, transforms, emits and advances from the context and the memory that the passes
before it left; the command ends with what the last pass left. -/
def Obligations.ConvRunIsTheSequenceOfItsPasses : Prop :=
  ∀ (s : State) (x : Nat), x < s.caps.nctx → (s.ctx x).configured = true → (s.ctx x).Shaped s.caps →
    Inside s (s.arg 0) (s.arg 1) → Inside s (s.arg 2) (s.arg 3) →
    (∀ t, t < s.arg 4 → (s.ctx x).channel + t * (s.ctx x).numChannels < s.arg 3 →
      (s.dmem.read (s.arg 2 + ((s.ctx x).channel + t * (s.ctx x).numChannels))).isSome) →
    ∃ (t : State) (n : Nat) (nsp : Nat → Nat) (c : Nat → Context) (m : Nat → Memory),
      exec (.convRun x) s = .next t ∧ nsp 0 = 0 ∧ c 0 = s.ctx x ∧ m 0 = s.dmem ∧
      nsp n = s.arg 4 ∧ t.ctx x = c n ∧ t.dmem = m n ∧
      ∀ j, j < n →
        let cnt := min (s.arg 4 - nsp j) ((c j).B - (c j).inputPos)
        0 < cnt ∧ nsp (j + 1) = nsp j + cnt ∧
        ∃ xs κ κ' κ'', gather (runArgs s) (c j) (m j) cnt (nsp j) = some xs ∧
          c (j + 1) = advance κ'' (transformBlock Config.units κ (c j) xs) cnt ∧
          m (j + 1) = emit κ' (runArgs s) (transformBlock Config.units κ (c j) xs) cnt (c j).inputPos (nsp j) (m j)

/-- O60. The forward transform over binary64 (R80, R82, R75): entry 0 of every ROM is `(1.0, +0.0)` and the others are the device's; after
the bit reversal, stage `p` replaces the pair `2^p` apart, of each sub-block of `2^(p+1)`, by the sum, for the lower index, and the
difference, for the upper, of the lower value and the twiddled upper value, both from before the butterfly. -/
def Obligations.ForwardTransformIsItsButterflies : Prop :=
  (∀ (u : Units) (N : Nat), romEntry u N 0 = { c := oneF64, s := posZero } ∧ ∀ k, k ≠ 0 → romEntry u N k = u.tw N k) ∧
  ∀ (u : Units) (κ : Draws) (e : Nat) (v : List Cplx), e ≠ 1 → v.length = 2 ^ e →
    ∃ st : Nat → List Cplx, fwd u κ v = st e ∧ (∀ p, p ≤ e → (st p).length = 2 ^ e) ∧
      (∀ i, i < 2 ^ e → (st 0)[reverseBits i e]? = v[i]?) ∧
      ∀ p b i, p < e → b < 2 ^ (e - p - 1) → i < 2 ^ p →
        let j := b * 2 ^ (p + 1) + i
        let l := j + 2 ^ p
        ∃ vj vl κ₀ κ₁ κ₂, (st p)[j]? = some vj ∧ (st p)[l]? = some vl ∧
          let tw := conjtw κ₀ vl (romEntry u (2 ^ e) (i * 2 ^ (e - p - 1)))
          (st (p + 1))[j]? = some (cadd κ₁ vj tw) ∧ (st (p + 1))[l]? = some (csub κ₂ vj tw)
end

