-- ==== Sys2Proof/Laws/Memory.lean ====
section
/-! SUPPORT. The laws of the data memory: read after write by byte and by word, the canonical form, and buffer transfer. -/

namespace Sys2Proof.Machine

namespace Memory

/-! Bytes. -/

/-- A byte read after a byte write. -/
theorem get_put (m : Memory) (a : Nat) (b : Byte) (x : Nat) : (m.put a b).get x = if x = a then some b else m.get x := by
  induction m with
  | nil => simp [put, get]
  | cons c m ih =>
    obtain ⟨k, v⟩ := c
    unfold put
    split
    · by_cases hx : x = a <;> simp [get, hx]
    · split
      · rename_i _ hak
        subst hak
        by_cases hx : x = a <;> simp [get, hx]
      · simp only [get]
        by_cases hx : x = k
        · subst hx; simp_all [eq_comm]
        · simp [hx, ih]

/-- The first address of a list is below `a`, or the list is empty. -/
def below (a : Nat) : Memory → Bool
  | [] => true
  | (k, _) :: _ => decide (a < k)

theorem wf_cons (a : Nat) (b : Byte) (m : Memory) : wf ((a, b) :: m) = (below a m && wf m) := by
  cases m with
  | nil => rfl
  | cons c m => rfl

theorem below_put {k a : Nat} (m : Memory) (b : Byte) (hm : below k m = true) (h : k < a) : below k (m.put a b) = true := by
  cases m with
  | nil => simpa [put, below] using h
  | cons c m =>
    obtain ⟨j, v⟩ := c
    simp only [below, decide_eq_true_eq] at hm
    unfold put
    split
    · simpa [below] using h
    · split <;> simp_all [below]

/-- A byte write keeps the canonical form. -/
theorem wf_put (m : Memory) (a : Nat) (b : Byte) (h : m.wf = true) : (m.put a b).wf = true := by
  induction m with
  | nil => rfl
  | cons c m ih =>
    obtain ⟨k, v⟩ := c
    rw [wf_cons, Bool.and_eq_true] at h
    unfold put
    split
    · rw [wf_cons, wf_cons]; simp_all [below]
    · split
      · subst_vars; rw [wf_cons]; simp_all
      · rw [wf_cons, Bool.and_eq_true]
        exact ⟨below_put m b h.1 (by omega), ih h.2⟩

theorem wf_putBytes (bs : List Byte) (m : Memory) (a : Nat) (h : m.wf = true) : (m.putBytes a bs).wf = true := by
  induction bs generalizing m a with
  | nil => exact h
  | cons b bs ih => exact ih _ _ (wf_put m a b h)

/-- A byte read after writing bytes at `a`. -/
theorem get_putBytes (bs : List Byte) (m : Memory) (a x : Nat) :
    (m.putBytes a bs).get x = if a ≤ x ∧ x < a + bs.length then bs[x - a]? else m.get x := by
  induction bs generalizing m a with
  | nil =>
    have : ¬ (a ≤ x ∧ x < a) := by omega
    simp [putBytes, this]
  | cons b bs ih =>
    rw [putBytes, ih, get_put]
    simp only [List.length_cons]
    by_cases hx : x = a
    · subst hx
      have : ¬ (x + 1 ≤ x ∧ x < x + 1 + bs.length) := by omega
      simp
    · by_cases h1 : a + 1 ≤ x ∧ x < a + 1 + bs.length
      · have h2 : a ≤ x ∧ x < a + (bs.length + 1) := by omega
        have h3 : x - a = (x - (a + 1)) + 1 := by omega
        rw [if_pos h1, if_pos h2, h3, List.getElem?_cons_succ]
      · have h2 : ¬ (a ≤ x ∧ x < a + (bs.length + 1)) := by omega
        rw [if_neg h1, if_neg h2, if_neg hx]

theorem getBytes_some (m : Memory) (a n : Nat) :
    (∃ bs, m.getBytes a n = some bs) ↔ ∀ i, i < n → (m.get (a + i)).isSome := by
  induction n generalizing a with
  | zero => simp [getBytes]
  | succ n ih =>
    unfold getBytes
    constructor
    · rintro ⟨bs, h⟩ i hi
      split at h
      · rename_i b cs hb hcs
        rcases i with _ | i
        · simp [hb]
        · have := (ih (a + 1)).1 ⟨cs, hcs⟩ i (by omega)
          rwa [show a + (i + 1) = a + 1 + i by omega]
      · simp at h
    · intro h
      have h0 := h 0 (by omega)
      obtain ⟨b, hb⟩ := Option.isSome_iff_exists.1 h0
      obtain ⟨cs, hcs⟩ := (ih (a + 1)).2 (fun i hi => by
        have := h (i + 1) (by omega)
        rwa [show a + (i + 1) = a + 1 + i by omega] at this)
      refine ⟨b :: cs, ?_⟩
      rw [Nat.add_zero] at hb
      simp [hb, hcs]

/-- Two memories that agree on `n` bytes from `a` give the same bytes there. -/
theorem getBytes_congr (m m' : Memory) (a n : Nat) (h : ∀ i, i < n → m.get (a + i) = m'.get (a + i)) :
    m.getBytes a n = m'.getBytes a n := by
  induction n generalizing a with
  | zero => rfl
  | succ n ih =>
    have h0 : m.get a = m'.get a := by simpa using h 0 (by omega)
    have h1 := ih (a + 1) (fun i hi => by
      have := h (i + 1) (by omega)
      rwa [show a + (i + 1) = a + 1 + i by omega] at this)
    unfold getBytes
    rw [h0, h1]

theorem getBytes_putBytes_self (bs : List Byte) (m : Memory) (a : Nat) : (m.putBytes a bs).getBytes a bs.length = some bs := by
  induction bs generalizing m a with
  | nil => rfl
  | cons b bs ih =>
    rw [List.length_cons, getBytes, putBytes, ih, get_putBytes]
    have : ¬ (a + 1 ≤ a ∧ a < a + 1 + bs.length) := by omega
    simp [get_put]

theorem bytesOfNat_length (v n : Nat) : (bytesOfNat v n).length = n := by
  induction n generalizing v with
  | zero => rfl
  | succ n ih => simp [bytesOfNat, ih]

theorem natOfBytes_bytesOfNat (v n : Nat) : natOfBytes (bytesOfNat v n) = v % 256 ^ n := by
  induction n generalizing v with
  | zero => simp [bytesOfNat, natOfBytes, Nat.mod_one]
  | succ n ih =>
    rw [bytesOfNat, natOfBytes, ih, pow_succ', Nat.mod_mul, BitVec.toNat_ofNat]

/-! Words. -/

/-- A word write changes exactly the eight bytes of that word. -/
theorem get_write (m : Memory) (addr : Nat) (v : F64) (x : Nat) :
    (m.write addr v).get x = if x / 8 = addr then (bytesOfNat v.toNat 8)[x % 8]? else m.get x := by
  rw [write, get_putBytes, bytesOfNat_length]
  by_cases h : x / 8 = addr
  · have h1 : 8 * addr ≤ x ∧ x < 8 * addr + 8 := by omega
    have h2 : x - 8 * addr = x % 8 := by omega
    rw [if_pos h1, if_pos h, h2]
  · have h1 : ¬ (8 * addr ≤ x ∧ x < 8 * addr + 8) := by omega
    rw [if_neg h1, if_neg h]

/-- The word written is the word read back. -/
theorem read_write_self (m : Memory) (addr : Nat) (v : F64) : (m.write addr v).read addr = some v := by
  have h := getBytes_putBytes_self (bytesOfNat v.toNat 8) m (8 * addr)
  rw [bytesOfNat_length] at h
  rw [read, write, h]
  simp only [natOfBytes_bytesOfNat]
  have hv : v.toNat < 256 ^ 8 := by have := v.isLt; norm_num at *; omega
  rw [Nat.mod_eq_of_lt hv, BitVec.ofNat_toNat, BitVec.setWidth_eq]

/-- A word write leaves every other word alone. -/
theorem read_write_other (m : Memory) (addr addr' : Nat) (v : F64) (h : addr' ≠ addr) :
    (m.write addr v).read addr' = m.read addr' := by
  unfold read
  rw [getBytes_congr _ m]
  intro i hi
  rw [get_write, if_neg (by omega)]

/-- A word read after a word write. -/
theorem read_write (m : Memory) (addr addr' : Nat) (v : F64) :
    (m.write addr v).read addr' = if addr' = addr then some v else m.read addr' := by
  split
  · subst_vars; exact read_write_self m _ v
  · exact read_write_other m addr addr' v (by assumption)

/-- A word write keeps the canonical form. -/
theorem wf_write (m : Memory) (addr : Nat) (v : F64) (h : m.wf = true) : (m.write addr v).wf = true :=
  wf_putBytes _ _ _ h

theorem wf_writeC (m : Memory) (addr : Nat) (z : Cplx) (h : m.wf = true) : (m.writeC addr z).wf = true :=
  wf_write _ _ _ (wf_write _ _ _ h)

/-- Two memories that agree on a word's bytes give the same word. -/
theorem read_congr (m m' : Memory) (addr : Nat) (h : ∀ x, x / 8 = addr → m.get x = m'.get x) : m.read addr = m'.read addr := by
  unfold read
  rw [getBytes_congr m m']
  intro i hi
  exact h _ (by omega)

/-- A complex element holds a value when both of its words do. -/
theorem readC_eq_some {m : Memory} {addr : Nat} {z : Cplx} :
    m.readC addr = some z ↔ m.read addr = some z.re ∧ m.read (addr + 1) = some z.im := by
  unfold readC
  cases h1 : m.read addr <;> cases h2 : m.read (addr + 1) <;> simp [Cplx.ext_iff]

/-- A complex element is read back. -/
theorem read_writeC (m : Memory) (addr addr' : Nat) (z : Cplx) :
    (m.writeC addr z).read addr' = if addr' = addr + 1 then some z.im else if addr' = addr then some z.re else m.read addr' := by
  rw [writeC, read_write, read_write]

/-- Writing a complex element changes no byte outside its two words. -/
theorem get_writeC_other (m : Memory) (addr : Nat) (z : Cplx) (x : Nat) (h : x / 8 < addr ∨ addr + 2 ≤ x / 8) :
    (m.writeC addr z).get x = m.get x := by
  rw [writeC, get_write, if_neg (by omega), get_write, if_neg (by omega)]

end Memory

/-! Buffer transfer (R79). -/

/-- A real buffer holds values when each of its words does, and its elements are those words. -/
theorem loadR_eq_some {m : Memory} {base n : Nat} {xs : List F64} :
    loadR m base n = some xs ↔ xs.length = n ∧ ∀ t, t < n → m.read (base + t) = xs[t]? := by
  induction n generalizing base xs with
  | zero => cases xs <;> simp [loadR]
  | succ n ih =>
    unfold loadR
    constructor
    · intro h
      split at h
      · rename_i y ys hy hys
        obtain ⟨h1, h2⟩ := ih.1 hys
        cases h
        refine ⟨by simp [h1], fun t ht => ?_⟩
        rcases t with _ | t
        · simpa using hy
        · rw [List.getElem?_cons_succ, ← h2 t (by omega)]; congr 1; omega
      · simp at h
    · rintro ⟨h1, h2⟩
      cases xs with
      | nil => simp at h1
      | cons y ys =>
        have hy : m.read base = some y := by simpa using h2 0 (by omega)
        have hys : loadR m (base + 1) n = some ys := ih.2 ⟨by simpa using h1, fun t ht => by
          have := h2 (t + 1) (by omega)
          rw [List.getElem?_cons_succ] at this
          rw [← this]; congr 1; omega⟩
        simp [hy, hys]

/-- A real buffer can be loaded exactly when each of its words holds a value. -/
theorem loadR_isSome {m : Memory} {base n : Nat} : (loadR m base n).isSome ↔ ∀ t, t < n → (m.read (base + t)).isSome := by
  induction n generalizing base with
  | zero => simp [loadR]
  | succ n ih =>
    unfold loadR
    constructor
    · intro h t ht
      split at h
      · rename_i y ys hy hys
        rcases t with _ | t
        · simp [hy]
        · have := ih.1 (by rw [hys]; rfl) t (by omega)
          rwa [show base + (t + 1) = base + 1 + t by omega]
      · simp at h
    · intro h
      obtain ⟨y, hy⟩ := Option.isSome_iff_exists.1 (by simpa using h 0 (by omega))
      obtain ⟨ys, hys⟩ := Option.isSome_iff_exists.1 (ih.2 (fun t ht => by
        have := h (t + 1) (by omega)
        rwa [show base + (t + 1) = base + 1 + t by omega] at this))
      simp [hy, hys]

/-- A complex buffer's elements are its words. -/
theorem loadC_eq_some {m : Memory} {base n : Nat} {zs : List Cplx} :
    loadC m base n = some zs ↔ zs.length = n ∧ ∀ t, t < n → m.readC (base + 2 * t) = zs[t]? := by
  induction n generalizing base zs with
  | zero => cases zs <;> simp [loadC]
  | succ n ih =>
    unfold loadC
    constructor
    · intro h
      split at h
      · rename_i y ys hy hys
        obtain ⟨h1, h2⟩ := ih.1 hys
        cases h
        refine ⟨by simp [h1], fun t ht => ?_⟩
        rcases t with _ | t
        · simpa using hy
        · rw [List.getElem?_cons_succ, ← h2 t (by omega)]; congr 1; omega
      · simp at h
    · rintro ⟨h1, h2⟩
      cases zs with
      | nil => simp at h1
      | cons y ys =>
        have hy : m.readC base = some y := by simpa using h2 0 (by omega)
        have hys : loadC m (base + 2) n = some ys := ih.2 ⟨by simpa using h1, fun t ht => by
          have := h2 (t + 1) (by omega)
          rw [List.getElem?_cons_succ] at this
          rw [← this]; congr 1; omega⟩
        simp [hy, hys]

/-- A complex buffer can be loaded exactly when each of its words holds a value. -/
theorem loadC_isSome {m : Memory} {base n : Nat} : (loadC m base n).isSome ↔ ∀ t, t < 2 * n → (m.read (base + t)).isSome := by
  induction n generalizing base with
  | zero => simp [loadC]
  | succ n ih =>
    unfold loadC
    constructor
    · intro h t ht
      split at h
      · rename_i y ys hy hys
        obtain ⟨h0, h1⟩ := Memory.readC_eq_some.1 hy
        rcases t with _ | _ | t
        · simp [h0]
        · simp [h1]
        · have := ih.1 (by rw [hys]; rfl) t (by omega)
          rwa [show base + (t + 1 + 1) = base + 2 + t by omega]
      · simp at h
    · intro h
      obtain ⟨re, hre⟩ := Option.isSome_iff_exists.1 (by simpa using h 0 (by omega))
      obtain ⟨im, him⟩ := Option.isSome_iff_exists.1 (h 1 (by omega))
      obtain ⟨ys, hys⟩ := Option.isSome_iff_exists.1 (ih.2 (fun t ht => by
        have := h (t + 2) (by omega)
        rwa [show base + (t + 2) = base + 2 + t by omega] at this))
      have hz : m.readC base = some { re := re, im := im } := Memory.readC_eq_some.2 ⟨hre, him⟩
      simp [hz, hys]

/-- A store keeps the canonical form. -/
theorem wf_storeR (xs : List F64) (m : Memory) (base : Nat) (h : m.wf = true) : (storeR m base xs).wf = true := by
  induction xs generalizing m base with
  | nil => exact h
  | cons x xs ih => exact ih _ _ (Memory.wf_write m base x h)

theorem wf_storeC (zs : List Cplx) (m : Memory) (base : Nat) (h : m.wf = true) : (storeC m base zs).wf = true := by
  induction zs generalizing m base with
  | nil => exact h
  | cons z zs ih => exact ih _ _ (Memory.wf_writeC m base z h)

/-- A complex store changes no byte outside its words. -/
theorem get_storeC_other (zs : List Cplx) (m : Memory) (base x : Nat) (h : x / 8 < base ∨ base + 2 * zs.length ≤ x / 8) :
    (storeC m base zs).get x = m.get x := by
  induction zs generalizing m base with
  | nil => rfl
  | cons z zs ih =>
    rw [List.length_cons] at h
    rw [storeC, ih _ _ (by omega), Memory.get_writeC_other _ _ _ _ (by omega)]

/-- A word outside a complex store is unchanged. -/
theorem read_storeC_other (zs : List Cplx) (m : Memory) (base a : Nat) (h : a < base ∨ base + 2 * zs.length ≤ a) :
    (storeC m base zs).read a = m.read a :=
  Memory.read_congr _ _ _ (fun x hx => get_storeC_other zs m base x (by omega))

/-- The words of a complex store are its elements. -/
theorem read_storeC (zs : List Cplx) (m : Memory) (base t : Nat) (h : t < zs.length) :
    (storeC m base zs).read (base + 2 * t) = zs[t]?.map Cplx.re ∧
    (storeC m base zs).read (base + 2 * t + 1) = zs[t]?.map Cplx.im := by
  induction zs generalizing m base t with
  | nil => simp at h
  | cons z zs ih =>
    rw [List.length_cons] at h
    rcases t with _ | t
    · rw [storeC, read_storeC_other _ _ _ _ (by omega), read_storeC_other _ _ _ _ (by omega),
        Memory.read_writeC, Memory.read_writeC]
      simp
    · have := ih (m.writeC base z) (base + 2) t (by omega)
      rw [storeC, show base + 2 * (t + 1) = base + 2 + 2 * t by omega]
      simpa using this

/-- What was stored is loaded back. -/
theorem loadC_storeC (zs : List Cplx) (m : Memory) (base : Nat) : loadC (storeC m base zs) base zs.length = some zs := by
  rw [loadC_eq_some]
  refine ⟨rfl, fun t ht => ?_⟩
  have h := read_storeC zs m base t ht
  rw [List.getElem?_eq_getElem ht] at h ⊢
  rw [Memory.readC_eq_some]
  exact ⟨by simpa using h.1, by simpa using h.2⟩

/-- The words of a scrambled buffer hold free values; every byte outside keeps its value (R120). -/
theorem get_scramble_other (κ : Draws) (m : Memory) (base n j x : Nat) (h : x / 8 < base + j ∨ base + j + n ≤ x / 8) :
    (scramble κ m base n j).get x = m.get x := by
  induction n generalizing m j with
  | zero => rfl
  | succ n ih => rw [scramble, ih _ _ (by omega), Memory.get_write, if_neg (by omega)]

theorem wf_scramble (κ : Draws) (m : Memory) (base n j : Nat) (h : m.wf = true) : (scramble κ m base n j).wf = true := by
  induction n generalizing m j with
  | zero => exact h
  | succ n ih => exact ih _ _ (Memory.wf_write m _ _ h)

end Sys2Proof.Machine
end

