-- ==== Sys2Proof/Laws/Numerics.lean ====
section
/-! SUPPORT. The utility functions (R69 to R72): what each of them computes. -/

namespace Sys2Proof.Machine

/-- `isPowerOfTwo` holds of exactly the powers of two (R69). -/
theorem isPowerOfTwo_iff {v : Nat} : isPowerOfTwo v = true ↔ ∃ k, v = 2 ^ k := by
  unfold isPowerOfTwo
  rw [decide_eq_true_eq]
  constructor
  · rintro ⟨h0, h1⟩
    exact (Nat.and_sub_one_eq_zero_iff_isPowerOfTwo h0).1 h1
  · rintro ⟨k, rfl⟩
    exact ⟨by positivity, (Nat.and_sub_one_eq_zero_iff_isPowerOfTwo (by positivity)).2 ⟨k, rfl⟩⟩

theorem isPowerOfTwo_pos {v : Nat} (h : isPowerOfTwo v = true) : 0 < v := by
  obtain ⟨k, rfl⟩ := isPowerOfTwo_iff.1 h
  positivity

@[simp] theorem log2_two_pow (k : Nat) : log2 (2 ^ k) = k := Nat.log2_two_pow

theorem two_pow_log2 {v : Nat} (h : isPowerOfTwo v = true) : 2 ^ log2 v = v := by
  obtain ⟨k, rfl⟩ := isPowerOfTwo_iff.1 h
  rw [log2_two_pow]

/-- `nextPowerOfTwo` is a power of two (R70). -/
theorem isPowerOfTwo_next (v : Nat) : isPowerOfTwo (nextPowerOfTwo v) = true := by
  rw [isPowerOfTwo_iff]
  unfold nextPowerOfTwo
  split
  · exact ⟨0, rfl⟩
  · exact ⟨_, rfl⟩

/-- `nextPowerOfTwo v` is at least `v` (R70). -/
theorem le_nextPowerOfTwo (v : Nat) : v ≤ nextPowerOfTwo v := by
  unfold nextPowerOfTwo
  split
  · assumption
  · have := Nat.lt_log2_self (n := v - 1)
    omega

/-- No smaller power of two is at least `v` (R70). -/
theorem nextPowerOfTwo_le {v j : Nat} (h : v ≤ 2 ^ j) : nextPowerOfTwo v ≤ 2 ^ j := by
  unfold nextPowerOfTwo
  split
  · exact Nat.one_le_two_pow
  · apply Nat.pow_le_pow_right (by norm_num)
    by_contra hj
    have h1 : j ≤ Nat.log2 (v - 1) := by omega
    have h2 := Nat.log2_self_le (n := v - 1) (by omega)
    have h3 : 2 ^ j ≤ 2 ^ Nat.log2 (v - 1) := Nat.pow_le_pow_right (by norm_num) h1
    omega

theorem nextPowerOfTwo_pos (v : Nat) : 0 < nextPowerOfTwo v := isPowerOfTwo_pos (isPowerOfTwo_next v)

/-- A reversed number has no bit above the reversed ones (R72). -/
theorem reverseBits_lt (v bits : Nat) : reverseBits v bits < 2 ^ bits := by
  induction bits generalizing v with
  | zero => simp [reverseBits]
  | succ bits ih =>
    have h1 := ih (v / 2)
    have h2 : v % 2 < 2 := Nat.mod_lt _ (by norm_num)
    rw [reverseBits, pow_succ]
    nlinarith [Nat.mod_lt v (show 2 > 0 by norm_num), h1]

/-- Bit `bits - 1 - b` of the reversed number is bit `b` of the number (R72). -/
theorem testBit_reverseBits (v bits b : Nat) (h : b < bits) : (reverseBits v bits).testBit (bits - 1 - b) = v.testBit b := by
  induction bits generalizing v b with
  | zero => omega
  | succ bits ih =>
    have hlt := reverseBits_lt (v / 2) bits
    rw [reverseBits, Nat.mul_comm, Nat.testBit_two_pow_mul_add _ hlt]
    rcases b with _ | b
    · have h1 : ¬ (bits + 1 - 1 - 0 < bits) := by omega
      rw [if_neg h1]
      simp [Nat.testBit_zero]
    · have h1 : bits + 1 - 1 - (b + 1) < bits := by omega
      have h2 : bits + 1 - 1 - (b + 1) = bits - 1 - b := by omega
      rw [if_pos h1, h2, ih _ _ (by omega), Nat.testBit_succ]

/-- Reversing twice gives the number back: bit reversal is an involution (R80). -/
theorem reverseBits_reverseBits (v bits : Nat) (h : v < 2 ^ bits) : reverseBits (reverseBits v bits) bits = v := by
  apply Nat.eq_of_testBit_eq
  intro i
  by_cases hi : i < bits
  · have h1 := testBit_reverseBits (reverseBits v bits) bits (bits - 1 - i) (by omega)
    rw [show bits - 1 - (bits - 1 - i) = i by omega] at h1
    rw [h1, testBit_reverseBits v bits i hi]
  · have h1 : (2 : Nat) ^ bits ≤ 2 ^ i := Nat.pow_le_pow_right (by norm_num) (by omega)
    rw [Nat.testBit_lt_two_pow (lt_of_lt_of_le (reverseBits_lt _ _) h1), Nat.testBit_lt_two_pow (lt_of_lt_of_le h h1)]

theorem isqrt_spec (v bits : Nat) (h : v < 4 ^ bits) :
    isqrt v bits * isqrt v bits ≤ v ∧ v < (isqrt v bits + 1) * (isqrt v bits + 1) := by
  induction bits generalizing v with
  | zero => simp at h; subst h; simp [isqrt]
  | succ bits ih =>
    have h1 : v / 4 < 4 ^ bits := by rw [pow_succ] at h; omega
    obtain ⟨ha, hb⟩ := ih (v / 4) h1
    rw [isqrt]
    generalize isqrt (v / 4) bits = r at *
    have hr1 : r * r * 4 ≤ v := by omega
    have hr2 : v < (r + 1) * (r + 1) * 4 := by omega
    split
    · rename_i hle
      exact ⟨hle, by nlinarith⟩
    · rename_i hle
      exact ⟨by nlinarith, by omega⟩

end Sys2Proof.Machine
end

