-- ==== Sys2Proof/Laws/Fft.lean ====
section
/-! SUPPORT. The transforms keep lengths, the bit reversal is the permutation of R80, and what the loops of `CMAC` and `FFT_MAG` do. -/

namespace Sys2Proof.Machine

@[simp] theorem swapAt_length {α : Type} (v : List α) (i j : Nat) : (swapAt v i j).length = v.length := by
  unfold swapAt
  split <;> simp

/-- A fold of steps that keep the length keeps the length. -/
theorem foldl_length {α β : Type} (f : List α → β → List α) (hf : ∀ v b, (f v b).length = v.length) (bs : List β) (v : List α) :
    (bs.foldl f v).length = v.length := by
  induction bs generalizing v with
  | nil => rfl
  | cons b bs ih => rw [List.foldl_cons, ih, hf]

@[simp] theorem reorder_length {α : Type} (v : List α) : (reorder v).length = v.length := by
  unfold reorder
  apply foldl_length
  intro w i
  simp only
  split <;> simp

@[simp] theorem butterflyAt_length {α : Type} (bf : α → α → α × α) (v : List α) (j l : Nat) :
    (butterflyAt bf v j l).length = v.length := by
  unfold butterflyAt
  split <;> simp

@[simp] theorem fwdPass_length {α : Type} (bf : Nat → List Nat → α → α → α × α) (n p : Nat) (v : List α) :
    (fwdPass bf n p v).length = v.length := by
  unfold fwdPass
  apply foldl_length
  intro w b
  apply foldl_length
  intro w' t
  simp

@[simp] theorem fwdNetwork_length {α : Type} (bf : Nat → List Nat → α → α → α × α) (v : List α) :
    (fwdNetwork bf v).length = v.length := by
  unfold fwdNetwork
  simp only
  split
  · rfl
  · rw [foldl_length _ (fun w p => fwdPass_length bf _ p w), reorder_length]

/-- `fwd` keeps the length. -/
@[simp] theorem fwd_length (u : Units) (κ : Draws) (v : List Cplx) : (fwd u κ v).length = v.length := by
  unfold fwd; simp

/-- `inv` keeps the length. -/
@[simp] theorem inv_length (u : Units) (κ : Draws) (v : List Cplx) : (inv u κ v).length = v.length := by
  unfold inv; simp

/-- Every imaginary part `inv` gives is `+0.0` (R84). -/
theorem inv_im (u : Units) (κ : Draws) (v : List Cplx) (z : Cplx) (h : z ∈ inv u κ v) : z.im = posZero := by
  unfold inv at h
  simp only [List.mem_mapIdx] at h
  obtain ⟨i, hi, rfl⟩ := h
  rfl

/-- A swap exchanges the two elements. -/
theorem getElem?_swapAt {α : Type} (v : List α) (i j x : Nat) (hi : i < v.length) (hj : j < v.length) :
    (swapAt v i j)[x]? = if x = i then v[j]? else if x = j then v[i]? else v[x]? := by
  unfold swapAt
  rw [List.getElem?_eq_getElem hi, List.getElem?_eq_getElem hj]
  simp only [List.getElem?_set, List.length_set]
  by_cases h1 : x = j
  · by_cases h2 : x = i
    · subst h1; subst h2; simp [hi]
    · subst h1; simp [hj, h2]
  · by_cases h2 : x = i
    · subst h2; simp [hi, Ne.symm h1]
    · simp [h1, h2, Ne.symm h1, Ne.symm h2]

/-- After the swaps of the indices below `k`, a pair one of whose members is below `k` is exchanged, and the others are untouched. -/
theorem reorder_prefix {α : Type} (v : List α) (bits k : Nat) (hv : v.length = 2 ^ bits) (hk : k ≤ v.length) (x : Nat)
    (hx : x < v.length) :
    ((List.range k).foldl (fun w i => if i < reverseBits i bits then swapAt w i (reverseBits i bits) else w) v)[x]? =
      if x < k ∨ reverseBits x bits < k then v[reverseBits x bits]? else v[x]? := by
  induction k generalizing x with
  | zero => simp
  | succ k ih =>
    rw [List.range_succ, List.foldl_append, List.foldl_cons, List.foldl_nil]
    set w := (List.range k).foldl (fun w i => if i < reverseBits i bits then swapAt w i (reverseBits i bits) else w) v with hw
    have hlen : w.length = v.length := by
      rw [hw]; apply foldl_length; intro a b; split <;> simp
    have hrev : ∀ y, y < v.length → reverseBits (reverseBits y bits) bits = y := fun y hy =>
      reverseBits_reverseBits y bits (by omega)
    have hlt : ∀ y, reverseBits y bits < v.length := fun y => by rw [hv]; exact reverseBits_lt y bits
    have ih' := fun y hy => ih (by omega) y hy
    by_cases hsw : k < reverseBits k bits
    · rw [if_pos hsw, getElem?_swapAt _ _ _ _ (by omega) (by rw [hlen]; exact hlt k)]
      by_cases h1 : x = k
      · subst h1
        rw [if_pos rfl, ih' _ (hlt _), hrev _ (by omega), if_neg (by omega), if_pos (by omega)]
      · rw [if_neg h1]
        by_cases h2 : x = reverseBits k bits
        · subst h2
          rw [if_pos rfl, ih' _ (by omega), hrev _ (by omega), if_neg (by omega), if_pos (by omega)]
        · rw [if_neg h2, ih' _ hx]
          have h3 : reverseBits x bits ≠ k := fun h => h2 (by rw [← h, hrev _ hx])
          congr 1
          simp only [eq_iff_iff]
          omega
    · rw [if_neg hsw, ih' _ hx]
      by_cases h1 : x = k
      · subst h1
        rcases Nat.lt_or_ge (reverseBits x bits) x with h | h
        · rw [if_pos (by omega), if_pos (by omega)]
        · have h4 : reverseBits x bits = x := by omega
          rw [h4]; simp
      · have h3 : reverseBits x bits = k → x < k := fun h => by
          have := hrev _ hx
          rw [h] at this
          omega
        congr 1
        simp only [eq_iff_iff]
        omega

/-- `reorder` puts element `reverseBits(x, bits)` at place `x` (R80). -/
theorem getElem?_reorder {α : Type} (v : List α) (bits : Nat) (hv : v.length = 2 ^ bits) (x : Nat) (hx : x < v.length) :
    (reorder v)[x]? = v[reverseBits x bits]? := by
  have h := reorder_prefix v bits v.length hv (le_refl _) x hx
  rw [if_pos (Or.inl hx)] at h
  rw [← h]
  unfold reorder
  simp only [hv, log2_two_pow]

/-! One pass of butterflies, element by element. -/

/-- A fold whose steps touch disjoint sets of places leaves at a place what its one step gives there from the start. -/
theorem foldl_local {α β : Type} (f : List α → β → List α) (T : β → Nat → Prop)
    (keep : ∀ w b x, ¬ T b x → (f w b)[x]? = w[x]?)
    (loc : ∀ w w' b, (∀ x, T b x → w[x]? = w'[x]?) → ∀ x, T b x → (f w b)[x]? = (f w' b)[x]?)
    (bs : List β) (disj : bs.Pairwise fun b c => ∀ x, T b x → ¬ T c x) (v : List α) :
    (∀ b ∈ bs, ∀ x, T b x → (bs.foldl f v)[x]? = (f v b)[x]?) ∧ ∀ x, (∀ b ∈ bs, ¬ T b x) → (bs.foldl f v)[x]? = v[x]? := by
  induction bs generalizing v with
  | nil => exact ⟨fun _ h => (by cases h), fun _ _ => rfl⟩
  | cons c cs ih =>
    rw [List.pairwise_cons] at disj
    obtain ⟨in_, out⟩ := ih disj.2 (f v c)
    refine ⟨fun b hb x hx => ?_, fun x hx => ?_⟩
    · rcases List.mem_cons.1 hb with rfl | hb
      · exact out x (fun d hd => disj.1 d hd x hx)
      · exact (in_ b hb x hx).trans (loc _ _ b (fun y hy => keep _ _ _ fun hc => disj.1 b hb y hc hy) x hx)
    · exact (out x fun d hd => hx d (List.mem_cons_of_mem _ hd)).trans (keep _ _ _ (hx c List.mem_cons_self))

theorem getElem?_butterflyAt {α : Type} (bf : α → α → α × α) (v : List α) {j l : Nat} (h : j ≠ l) (x : Nat) :
    (butterflyAt bf v j l)[x]? =
      match v[j]?, v[l]? with
      | some a, some b => if x = j then some (bf a b).1 else if x = l then some (bf a b).2 else v[x]?
      | _, _ => v[x]? := by
  unfold butterflyAt
  rcases hj : v[j]? with _ | a
  · rfl
  · rcases hl : v[l]? with _ | b
    · rfl
    · have hj' := (List.getElem?_eq_some_iff.1 hj).1
      have hl' := (List.getElem?_eq_some_iff.1 hl).1
      simp only [List.getElem?_set, List.length_set]
      by_cases h1 : x = j
      · subst h1; simp [hj']
      · by_cases h2 : x = l
        · subst h2; simp [h1, h, hl']
        · simp [h1, h2, Ne.symm h1, Ne.symm h2]

/-- A pass of butterflies of size `2^(p+1)` on `2^e` elements (R82): each pair becomes its butterfly of the values before the pass. -/
theorem getElem?_fwdPass {α : Type} (bf : Nat → List Nat → α → α → α × α) (e p : Nat) (hp : p < e) (v : List α)
    (hv : v.length = 2 ^ e) (b i : Nat) (hb : b < 2 ^ (e - p - 1)) (hi : i < 2 ^ p) :
    let j := b * 2 ^ (p + 1) + i
    let l := j + 2 ^ p
    ∃ x y, v[j]? = some x ∧ v[l]? = some y ∧
      (fwdPass bf (2 ^ e) p v)[j]? = some (bf (i * 2 ^ (e - p - 1)) [p, j] x y).1 ∧
      (fwdPass bf (2 ^ e) p v)[l]? = some (bf (i * 2 ^ (e - p - 1)) [p, j] x y).2 := by
  intro j l
  have hsize : 2 ^ (p + 1) = 2 * 2 ^ p := by ring
  have he : 2 ^ e = 2 ^ (e - p - 1) * 2 ^ (p + 1) := by rw [← pow_add]; congr 1; omega
  have hblock : (b + 1) * 2 ^ (p + 1) ≤ 2 ^ e := he ▸ Nat.mul_le_mul_right _ hb
  have hl : l < v.length := by rw [hv]; show b * 2 ^ (p + 1) + i + 2 ^ p < _; rw [Nat.add_mul] at hblock; omega
  have hj : j < v.length := lt_of_le_of_lt (Nat.le_add_right _ _) hl
  have hpow : 0 < 2 ^ p := Nat.two_pow_pos p
  have hstep : 2 ^ e / (2 * 2 ^ p) = 2 ^ (e - p - 1) := by rw [← hsize, he, Nat.mul_div_cancel _ (Nat.two_pow_pos _)]
  let k (c t : Nat) : Nat := c * (2 * 2 ^ p) + t
  let step (c : Nat) (w : List α) (t : Nat) : List α :=
    butterflyAt (bf (t * 2 ^ (e - p - 1)) [p, k c t]) w (k c t) (k c t + 2 ^ p)
  have hfwd : fwdPass bf (2 ^ e) p v = (List.range (2 ^ (e - p - 1))).foldl (fun w c => (List.range (2 ^ p)).foldl (step c) w) v := by
    unfold fwdPass
    simp only [hstep]
    rfl
  have hne : ∀ c t, k c t ≠ k c t + 2 ^ p := fun c t => by omega
  have inner : ∀ c w, (∀ t ∈ List.range (2 ^ p), ∀ x, (x = k c t ∨ x = k c t + 2 ^ p) →
        ((List.range (2 ^ p)).foldl (step c) w)[x]? = (step c w t)[x]?) ∧
      ∀ x, (∀ t ∈ List.range (2 ^ p), ¬ (x = k c t ∨ x = k c t + 2 ^ p)) → ((List.range (2 ^ p)).foldl (step c) w)[x]? = w[x]? := by
    intro c w
    refine foldl_local (step c) (fun t x => x = k c t ∨ x = k c t + 2 ^ p) ?_ ?_ _ ?_ w
    · intro w t x hx
      rw [getElem?_butterflyAt _ _ (hne c t)]
      split
      · rw [if_neg fun h => hx (.inl h), if_neg fun h => hx (.inr h)]
      · rfl
    · intro w w' t h x hx
      rw [getElem?_butterflyAt _ _ (hne c t), getElem?_butterflyAt _ _ (hne c t), h _ (.inl rfl), h _ (.inr rfl), h _ hx]
    · refine List.Pairwise.imp_of_mem (fun {t t'} ht ht' hne x hx hx' => ?_) List.nodup_range
      rw [List.mem_range] at ht ht'
      simp only [k] at hx hx'
      omega
  have covered : ∀ c x, c * (2 * 2 ^ p) ≤ x → x < (c + 1) * (2 * 2 ^ p) → ∃ t ∈ List.range (2 ^ p), x = k c t ∨ x = k c t + 2 ^ p := by
    intro c x h1 h2
    rw [Nat.add_mul] at h2
    rcases Nat.lt_or_ge (x - c * (2 * 2 ^ p)) (2 ^ p) with h | h
    · exact ⟨x - c * (2 * 2 ^ p), List.mem_range.2 h, .inl (by simp only [k]; omega)⟩
    · exact ⟨x - c * (2 * 2 ^ p) - 2 ^ p, List.mem_range.2 (by omega), .inr (by simp only [k]; omega)⟩
  have inBlock : ∀ c t x, t ∈ List.range (2 ^ p) → (x = k c t ∨ x = k c t + 2 ^ p) →
      c * (2 * 2 ^ p) ≤ x ∧ x < (c + 1) * (2 * 2 ^ p) := by
    intro c t x ht hx
    rw [List.mem_range] at ht
    rw [Nat.add_mul]
    simp only [k] at hx
    omega
  have outer := (foldl_local (fun w c => (List.range (2 ^ p)).foldl (step c) w)
    (fun c x => c * (2 * 2 ^ p) ≤ x ∧ x < (c + 1) * (2 * 2 ^ p)) (fun w c x hx => (inner c w).2 x fun t ht h => hx (inBlock c t x ht h))
    (fun w w' c h x hx => by
      obtain ⟨t, ht, hxt⟩ := covered c x hx.1 hx.2
      rw [(inner c w).1 t ht x hxt, (inner c w').1 t ht x hxt]
      simp only [step]
      rw [getElem?_butterflyAt _ _ (hne c t), getElem?_butterflyAt _ _ (hne c t), h _ (inBlock c t _ ht (.inl rfl)),
        h _ (inBlock c t _ ht (.inr rfl)), h _ hx])
    (List.range (2 ^ (e - p - 1)))
    (List.Pairwise.imp_of_mem (fun {c c'} _ _ hcc x hx hx' => by
      rcases Nat.lt_or_gt_of_ne hcc with h | h
      · exact absurd (Nat.mul_le_mul_right (2 * 2 ^ p) h) (by show ¬ (c + 1) * _ ≤ _; omega)
      · exact absurd (Nat.mul_le_mul_right (2 * 2 ^ p) h) (by show ¬ (c' + 1) * _ ≤ _; omega)) List.nodup_range) v).1
  obtain ⟨x, hx⟩ : ∃ x, v[j]? = some x := ⟨_, List.getElem?_eq_getElem hj⟩
  obtain ⟨y, hy⟩ : ∃ y, v[l]? = some y := ⟨_, List.getElem?_eq_getElem hl⟩
  have hkj : k b i = j := by simp only [k, j, hsize]
  have hi' := List.mem_range.2 hi
  have at_ : ∀ z, (z = k b i ∨ z = k b i + 2 ^ p) → (fwdPass bf (2 ^ e) p v)[z]? = (step b v i)[z]? := fun z hz => by
    rw [hfwd, outer b (List.mem_range.2 hb) z (inBlock b i z hi' hz), (inner b v).1 i hi' z hz]
  refine ⟨x, y, hx, hy, ?_, ?_⟩
  · rw [at_ j (.inl hkj.symm)]
    simp only [step, hkj]
    rw [getElem?_butterflyAt _ _ (by omega), hx, hy]
    simp
  · rw [at_ l (.inr (by rw [hkj]))]
    simp only [step, hkj]
    rw [getElem?_butterflyAt _ _ (by omega), hx, hy]
    simp [l]

end Sys2Proof.Machine
end

