-- ==== Sys2Proof/Laws/State.lean ====
section
/-! SUPPORT. What each state update leaves in each field, and what each shared operation can do. -/

namespace Sys2Proof.Machine

/-! `State.finish` (R107). -/

section Finish
variable (s : State) (e : Err)

@[simp] theorem finish_status : (s.finish e).status = s.status.finish e := rfl
@[simp] theorem finish_a : (s.finish e).a = s.a := rfl
@[simp] theorem finish_csel : (s.finish e).csel = s.csel := rfl
@[simp] theorem finish_caps : (s.finish e).caps = s.caps := rfl
@[simp] theorem finish_cmd : (s.finish e).cmd = s.cmd := rfl
@[simp] theorem finish_args : (s.finish e).args = s.args := rfl
@[simp] theorem finish_ctxs : (s.finish e).ctxs = s.ctxs := rfl
@[simp] theorem finish_dmem : (s.finish e).dmem = s.dmem := rfl
@[simp] theorem finish_inReset : (s.finish e).inReset = s.inReset := rfl
@[simp] theorem finish_pending : (s.finish e).pending = s.pending := rfl
@[simp] theorem finish_reply : (s.finish e).reply = s.reply := rfl
@[simp] theorem finish_draws : (s.finish e).draws = s.draws + 1 := rfl
@[simp] theorem finish_ctx (x : Nat) : (s.finish e).ctx x = s.ctx x := rfl
@[simp] theorem finish_arg (i : Fin 5) : (s.finish e).arg i = s.arg i := rfl
end Finish

@[simp] theorem status_finish_busy (f : Status) (e : Err) : (f.finish e).busy = false := rfl
@[simp] theorem status_finish_err (f : Status) (e : Err) : (f.finish e).err = e := rfl
@[simp] theorem status_finish_undef (f : Status) (e : Err) : (f.finish e).undef = f.undef := rfl
@[simp] theorem status_finish_ovr (f : Status) (e : Err) : (f.finish e).ovr = f.ovr := rfl
@[simp] theorem status_start_busy (f : Status) : f.start.busy = true := rfl
@[simp] theorem status_start_err (f : Status) : f.start.err = f.err := rfl
@[simp] theorem status_start_undef (f : Status) : f.start.undef = f.undef := rfl
@[simp] theorem status_start_ovr (f : Status) : f.start.ovr = f.ovr := rfl
@[simp] theorem status_setUndef_busy (f : Status) : f.setUndef.busy = f.busy := rfl
@[simp] theorem status_setUndef_err (f : Status) : f.setUndef.err = f.err := rfl
@[simp] theorem status_setUndef_undef (f : Status) : f.setUndef.undef = true := rfl
@[simp] theorem status_setUndef_ovr (f : Status) : f.setUndef.ovr = f.ovr := rfl
@[simp] theorem status_setOvr_busy (f : Status) : f.setOvr.busy = f.busy := rfl
@[simp] theorem status_setOvr_err (f : Status) : f.setOvr.err = f.err := rfl
@[simp] theorem status_setOvr_undef (f : Status) : f.setOvr.undef = f.undef := rfl
@[simp] theorem status_setOvr_ovr (f : Status) : f.setOvr.ovr = true := rfl

@[simp] theorem raise_eq (s : State) (e : Err) : s.raise e = .next (s.finish e) := rfl
@[simp] theorem succeed_eq (s : State) : s.succeed = .next (s.finish .ok) := rfl

/-! `State.setCtx`. -/

section SetCtx
variable (s : State) (x : Nat) (c : Context)

@[simp] theorem setCtx_status : (s.setCtx x c).status = s.status := rfl
@[simp] theorem setCtx_a : (s.setCtx x c).a = s.a := rfl
@[simp] theorem setCtx_csel : (s.setCtx x c).csel = s.csel := rfl
@[simp] theorem setCtx_caps : (s.setCtx x c).caps = s.caps := rfl
@[simp] theorem setCtx_cmd : (s.setCtx x c).cmd = s.cmd := rfl
@[simp] theorem setCtx_args : (s.setCtx x c).args = s.args := rfl
@[simp] theorem setCtx_dmem : (s.setCtx x c).dmem = s.dmem := rfl
@[simp] theorem setCtx_inReset : (s.setCtx x c).inReset = s.inReset := rfl
@[simp] theorem setCtx_pending : (s.setCtx x c).pending = s.pending := rfl
@[simp] theorem setCtx_reply : (s.setCtx x c).reply = s.reply := rfl
@[simp] theorem setCtx_draws : (s.setCtx x c).draws = s.draws := rfl

/-- The context written is the one read back, when it exists. -/
theorem setCtx_ctx_self (h : x < 16) : (s.setCtx x c).ctx x = c := by
  simp [State.ctx, State.setCtx, h]

/-- Every other context stays. -/
theorem setCtx_ctx_other {y : Nat} (h : x ≠ y) : (s.setCtx x c).ctx y = s.ctx y := by
  simp [State.ctx, State.setCtx, Vector.getElem?_setIfInBounds_ne h]
end SetCtx

/-! A new data memory. -/

section SetDmem
variable (s : State) (m : Memory)

@[simp] theorem setDmem_ctx (x : Nat) : State.ctx { s with dmem := m } x = s.ctx x := rfl
@[simp] theorem setDmem_arg (i : Fin 5) : State.arg { s with dmem := m } i = s.arg i := rfl
@[simp] theorem setDmem_supply (u : Units) : State.supply { s with dmem := m } u = s.supply u := rfl
end SetDmem

/-! `State.latch` (R16, R19). -/

section Latch
variable (s : State) (w : Word)

@[simp] theorem latch_status : (s.latch w).status = s.status.start := rfl
@[simp] theorem latch_a : (s.latch w).a = s.a := rfl
@[simp] theorem latch_csel : (s.latch w).csel = s.csel := rfl
@[simp] theorem latch_caps : (s.latch w).caps = s.caps := rfl
@[simp] theorem latch_cmd : (s.latch w).cmd = w := rfl
@[simp] theorem latch_args : (s.latch w).args = s.a := rfl
@[simp] theorem latch_ctxs : (s.latch w).ctxs = s.ctxs := rfl
@[simp] theorem latch_dmem : (s.latch w).dmem = s.dmem := rfl
@[simp] theorem latch_inReset : (s.latch w).inReset = s.inReset := rfl
@[simp] theorem latch_pending : (s.latch w).pending = s.pending := rfl
@[simp] theorem latch_reply : (s.latch w).reply = s.reply := rfl
@[simp] theorem latch_draws : (s.latch w).draws = s.draws := rfl
@[simp] theorem latch_ctx (x : Nat) : (s.latch w).ctx x = s.ctx x := rfl
end Latch

/-! `State.resetBlock` (R36, R119). -/

section ResetBlock
variable (s : State)

@[simp] theorem resetBlock_status : s.resetBlock.status = Status.reset := rfl
@[simp] theorem resetBlock_a : s.resetBlock.a = Vector.replicate 5 0 := rfl
@[simp] theorem resetBlock_csel : s.resetBlock.csel = 0 := rfl
@[simp] theorem resetBlock_caps : s.resetBlock.caps = s.caps := rfl
@[simp] theorem resetBlock_dmem : s.resetBlock.dmem = s.dmem := rfl
@[simp] theorem resetBlock_inReset : s.resetBlock.inReset = s.inReset := rfl
@[simp] theorem resetBlock_pending : s.resetBlock.pending = s.pending := rfl
@[simp] theorem resetBlock_reply : s.resetBlock.reply = s.reply := rfl
@[simp] theorem resetBlock_draws : s.resetBlock.draws = s.draws := rfl

/-- After a reset every context is blank. -/
@[simp] theorem resetBlock_ctx (x : Nat) : s.resetBlock.ctx x = Context.blank := by
  unfold State.ctx State.resetBlock
  by_cases h : x < 16 <;> simp [h]
end ResetBlock

/-! `markPartialBlock` (R94). -/

section MarkPartial
variable (s : State) (c : Context)

@[simp] theorem markPartialBlock_a : (markPartialBlock s c).a = s.a := by unfold markPartialBlock; split <;> rfl
@[simp] theorem markPartialBlock_csel : (markPartialBlock s c).csel = s.csel := by unfold markPartialBlock; split <;> rfl
@[simp] theorem markPartialBlock_caps : (markPartialBlock s c).caps = s.caps := by unfold markPartialBlock; split <;> rfl
@[simp] theorem markPartialBlock_cmd : (markPartialBlock s c).cmd = s.cmd := by unfold markPartialBlock; split <;> rfl
@[simp] theorem markPartialBlock_args : (markPartialBlock s c).args = s.args := by unfold markPartialBlock; split <;> rfl
@[simp] theorem markPartialBlock_ctxs : (markPartialBlock s c).ctxs = s.ctxs := by unfold markPartialBlock; split <;> rfl
@[simp] theorem markPartialBlock_ctx (x : Nat) : (markPartialBlock s c).ctx x = s.ctx x := by
  unfold markPartialBlock; split <;> rfl
@[simp] theorem markPartialBlock_dmem : (markPartialBlock s c).dmem = s.dmem := by unfold markPartialBlock; split <;> rfl
@[simp] theorem markPartialBlock_inReset : (markPartialBlock s c).inReset = s.inReset := by
  unfold markPartialBlock; split <;> rfl
@[simp] theorem markPartialBlock_pending : (markPartialBlock s c).pending = s.pending := by
  unfold markPartialBlock; split <;> rfl
@[simp] theorem markPartialBlock_reply : (markPartialBlock s c).reply = s.reply := by unfold markPartialBlock; split <;> rfl
@[simp] theorem markPartialBlock_draws : (markPartialBlock s c).draws = s.draws := by unfold markPartialBlock; split <;> rfl

/-- `UNDEF` after the mark: set when it was, or when the context stands inside a block. -/
theorem markPartialBlock_undef :
    (markPartialBlock s c).status.undef = (s.status.undef || decide (c.inputPos ≠ 0)) := by
  unfold markPartialBlock
  split <;> simp_all
@[simp] theorem markPartialBlock_busy : (markPartialBlock s c).status.busy = s.status.busy := by
  unfold markPartialBlock; split <;> rfl
@[simp] theorem markPartialBlock_ovr : (markPartialBlock s c).status.ovr = s.status.ovr := by
  unfold markPartialBlock; split <;> rfl
end MarkPartial

end Sys2Proof.Machine
end

