-- ==== Sys2Proof/Laws/Convolver.lean ====
section
/-! SUPPORT. The convolver: lengths, the laws of each step of a pass, and what a whole `CONV_RUN` loop can do. -/

namespace Sys2Proof.Machine

/-! Buffers. -/

@[simp] theorem writeAt_length {α : Type} (buf : List α) (pos : Nat) (xs : List α) : (writeAt buf pos xs).length = buf.length := by
  induction xs generalizing buf pos with
  | nil => rfl
  | cons x xs ih => rw [writeAt, ih, List.length_set]

/-- An element after writing `xs` at `pos`. -/
theorem getElem?_writeAt {α : Type} (buf : List α) (pos : Nat) (xs : List α) (i : Nat) :
    (writeAt buf pos xs)[i]? = if pos ≤ i ∧ i < pos + xs.length ∧ i < buf.length then xs[i - pos]? else buf[i]? := by
  induction xs generalizing buf pos with
  | nil =>
    have : ¬ (pos ≤ i ∧ i < pos + 0 ∧ i < buf.length) := by omega
    simp only [writeAt, List.length_nil]
    rw [if_neg this]
  | cons x xs ih =>
    rw [writeAt, ih, List.length_set, List.length_cons]
    by_cases h1 : pos = i
    · subst h1
      rw [if_neg (by omega), List.getElem?_set]
      by_cases h2 : pos < buf.length
      · rw [if_pos rfl, if_pos h2, if_pos (by omega)]; simp
      · rw [if_pos rfl, if_neg h2, if_neg (by omega)]
        simp at h2; simp [h2]
    · by_cases h2 : pos + 1 ≤ i ∧ i < pos + 1 + xs.length ∧ i < buf.length
      · rw [if_pos h2, if_pos (by omega), show i - pos = (i - (pos + 1)) + 1 by omega, List.getElem?_cons_succ]
      · rw [if_neg h2, if_neg (by omega), List.getElem?_set, if_neg h1]

@[simp] theorem macSegment_length (κ : Draws) (acc a b : List Cplx) : (macSegment κ acc a b).length = acc.length := by
  simp [macSegment]

@[simp] theorem tailSum_length (κ : Draws) (c : Context) (ring : List (List Cplx)) : (tailSum κ c ring).length = c.F := by
  unfold tailSum
  rw [foldl_length, List.length_replicate]
  intro v j
  exact macSegment_length _ _ _ _

@[simp] theorem addDeferred_length (κ : Draws) (c : Context) : (addDeferred κ c).length = c.outputBuf.length := by
  simp [addDeferred]

/-! The planner (R89, R90). -/

theorem planF_ge {B : Nat} (h : 0 < B) : 4 ≤ planF B ∧ 2 * B ≤ planF B := by
  unfold planF; split <;> omega

theorem planK_pos {B M : Nat} (h : 1 ≤ M) : 1 ≤ planK B M := by
  unfold planK; split <;> omega

/-- `M` segments hold the whole impulse response, and the last of them is not full (R90). -/
theorem planM_covers {SEG L' : Nat} (h : 0 < SEG) : L' < planM SEG L' * SEG := by
  unfold planM
  have := Nat.lt_div_mul_add (a := L') h
  rw [Nat.add_mul]; omega

/-! The impulse loader (R92). -/

theorem loadImpulse_length (u : Units) (κ : Draws) (h : List F64) (SEG F M : Nat) : (loadImpulse u κ h SEG F M).length = M := by
  simp [loadImpulse]

theorem loadImpulse_segment_length (u : Units) (κ : Draws) (h : List F64) (SEG F M : Nat) :
    ∀ v ∈ loadImpulse u κ h SEG F M, v.length = F := by
  intro v hv
  simp only [loadImpulse, List.mem_map] at hv
  obtain ⟨i, -, rfl⟩ := hv
  simp

theorem zeroRing_length (F K : Nat) : (zeroRing F K).length = K := by simp [zeroRing]

theorem zeroRing_segment_length (F K : Nat) : ∀ v ∈ zeroRing F K, v.length = F := by
  intro v hv
  rw [List.eq_of_mem_replicate hv, List.length_replicate]

/-! Gathering (R97) and emitting (R101). -/

theorem gather_length (a : RunArgs) (c : Context) (m : Memory) (k t : Nat) (xs : List F64) (h : gather a c m k t = some xs) :
    xs.length = k := by
  induction k generalizing t xs with
  | zero => simp [gather] at h; simp [← h]
  | succ k ih =>
    rw [gather] at h
    split at h
    · rename_i y ys hy hys
      cases h
      simp [ih _ _ hys]
    · simp at h

/-- The words that lane samples `t .. t+k-1` of `in` occupy hold values. -/
def LaneReadable (a : RunArgs) (c : Context) (m : Memory) (k t : Nat) : Prop :=
  ∀ j, t ≤ j → j < t + k → laneIndex c j < a.inlen → (m.read (a.inbase + laneIndex c j)).isSome

theorem gather_isSome (a : RunArgs) (c : Context) (m : Memory) (k t : Nat) : (gather a c m k t).isSome ↔ LaneReadable a c m k t := by
  induction k generalizing t with
  | zero => simp [gather, LaneReadable]; intros; omega
  | succ k ih =>
    rw [gather]
    have hstep : LaneReadable a c m (k + 1) t ↔
        (laneIndex c t < a.inlen → (m.read (a.inbase + laneIndex c t)).isSome) ∧ LaneReadable a c m k (t + 1) := by
      constructor
      · intro h
        exact ⟨h t (le_refl _) (by omega), fun j h1 h2 => h j (by omega) (by omega)⟩
      · rintro ⟨h0, h1⟩ j h2 h3
        rcases Nat.eq_or_lt_of_le h2 with h4 | h4
        · subst h4; exact h0
        · exact h1 j (by omega) (by omega)
    rw [hstep, ← ih]
    by_cases hlane : laneIndex c t < a.inlen
    · rw [if_pos hlane]
      cases h1 : m.read (a.inbase + laneIndex c t) <;> cases h2 : gather a c m k (t + 1) <;> simp [hlane]
    · rw [if_neg hlane]
      cases h2 : gather a c m k (t + 1) <;> simp [hlane]

/-- The gathered samples: the lane's words of `in`, and `+0.0` beyond it (R97). -/
theorem gather_getElem? (a : RunArgs) (c : Context) (m : Memory) (k t : Nat) (xs : List F64) (h : gather a c m k t = some xs)
    (j : Nat) (hj : j < k) :
    xs[j]? = if laneIndex c (t + j) < a.inlen then m.read (a.inbase + laneIndex c (t + j)) else some posZero := by
  induction k generalizing t xs j with
  | zero => omega
  | succ k ih =>
    rw [gather] at h
    split at h
    · rename_i y ys hy hys
      cases h
      rcases j with _ | j
      · simpa using hy.symm
      · rw [List.getElem?_cons_succ, ih _ _ hys _ (by omega), show t + 1 + j = t + (j + 1) by omega]
    · simp at h

/-- A byte is outside the words that lane samples `t .. t+k-1` of `out` occupy. -/
def OutsideLane (a : RunArgs) (c : Context) (k t : Nat) (x : Nat) : Prop :=
  ∀ j, t ≤ j → j < t + k → laneIndex c j < a.outlen → x / 8 ≠ a.outbase + laneIndex c j

/-- Emitting changes no byte outside the lane's words of `out`. -/
theorem get_emit_other (κ : Draws) (a : RunArgs) (c : Context) (k pos t : Nat) (m : Memory) (x : Nat) (h : OutsideLane a c k t x) :
    (emit κ a c k pos t m).get x = m.get x := by
  induction k generalizing pos t m with
  | zero => rfl
  | succ k ih =>
    rw [emit]
    rw [ih _ _ _ (fun j h1 h2 => h j (by omega) (by omega))]
    split
    · rw [Memory.get_write, if_neg (h t (le_refl _) (by omega) (by assumption))]
    · rfl

theorem wf_emit (κ : Draws) (a : RunArgs) (c : Context) (k pos t : Nat) (m : Memory) (h : m.wf = true) :
    (emit κ a c k pos t m).wf = true := by
  induction k generalizing pos t m with
  | zero => exact h
  | succ k ih =>
    rw [emit]
    apply ih
    split
    · exact Memory.wf_write _ _ _ h
    · exact h

/-- Emitting takes no word's value away. -/
theorem read_emit_isSome (κ : Draws) (a : RunArgs) (c : Context) (k pos t : Nat) (m : Memory) (w : Nat) (h : (m.read w).isSome) :
    ((emit κ a c k pos t m).read w).isSome := by
  induction k generalizing pos t m with
  | zero => exact h
  | succ k ih =>
    rw [emit]
    apply ih
    split
    · rw [Memory.read_write]; split
      · rfl
      · exact h
    · exact h

/-! One pass. -/

/-- The fields that `CONV_RUN` never changes. -/
structure SameConfig (c d : Context) : Prop where
  configured : d.configured = c.configured
  B : d.B = c.B
  F : d.F = c.F
  SEG : d.SEG = c.SEG
  M : d.M = c.M
  K : d.K = c.K
  STEP : d.STEP = c.STEP
  channel : d.channel = c.channel
  numChannels : d.numChannels = c.numChannels
  impulseSegments : d.impulseSegments = c.impulseSegments

theorem SameConfig.refl (c : Context) : SameConfig c c := ⟨rfl, rfl, rfl, rfl, rfl, rfl, rfl, rfl, rfl, rfl⟩

theorem SameConfig.trans {c d e : Context} (h : SameConfig c d) (k : SameConfig d e) : SameConfig c e :=
  ⟨k.1.trans h.1, k.2.trans h.2, k.3.trans h.3, k.4.trans h.4, k.5.trans h.5, k.6.trans h.6, k.7.trans h.7, k.8.trans h.8,
    k.9.trans h.9, k.10.trans h.10⟩

theorem transformBlock_sameConfig (u : Units) (κ : Draws) (c : Context) (xs : List F64) :
    SameConfig c (transformBlock u κ c xs) := ⟨rfl, rfl, rfl, rfl, rfl, rfl, rfl, rfl, rfl, rfl⟩

@[simp] theorem transformBlock_inputPos (u : Units) (κ : Draws) (c : Context) (xs : List F64) :
    (transformBlock u κ c xs).inputPos = c.inputPos := rfl
@[simp] theorem transformBlock_inputSegmentPos (u : Units) (κ : Draws) (c : Context) (xs : List F64) :
    (transformBlock u κ c xs).inputSegmentPos = c.inputSegmentPos := rfl
@[simp] theorem transformBlock_overlapBuf (u : Units) (κ : Draws) (c : Context) (xs : List F64) :
    (transformBlock u κ c xs).overlapBuf = c.overlapBuf := rfl
@[simp] theorem transformBlock_inputBuf (u : Units) (κ : Draws) (c : Context) (xs : List F64) :
    (transformBlock u κ c xs).inputBuf = writeAt c.inputBuf c.inputPos xs := rfl

/-- Steps 2 to 6 keep the shape of a context. -/
theorem transformBlock_shaped {caps : Caps} {c : Context} (h : c.Shaped caps) (u : Units) (κ : Draws) (xs : List F64) :
    (transformBlock u κ c xs).Shaped caps := by
  have htemp : (transformBlock u κ c xs).tempBuf.length = c.F := by
    unfold transformBlock
    simp only
    split
    · exact tailSum_length _ _ _
    · exact h.tempLength
  exact
    { h with
      inputLength := by rw [transformBlock_inputBuf, writeAt_length]; exact h.inputLength
      tempLength := htemp
      outputLength := by
        show (inv u _ _).length = c.F
        rw [inv_length, macSegment_length]
        exact htemp
      ringSegments := by
        show (c.inputSegments.set _ _).length = c.K
        rw [List.length_set]; exact h.ringSegments
      ringSegmentLength := by
        intro v hv
        rcases List.mem_or_eq_of_mem_set hv with hv | hv
        · exact h.ringSegmentLength v hv
        · rw [hv, fwd_length, List.length_map, writeAt_length]; exact h.inputLength }

theorem advance_sameConfig (κ : Draws) (c : Context) (cnt : Nat) : SameConfig c (advance κ c cnt) := by
  unfold advance
  split <;> exact ⟨rfl, rfl, rfl, rfl, rfl, rfl, rfl, rfl, rfl, rfl⟩

/-- `inputPos` after steps 8 and 9 (R102). -/
theorem advance_inputPos (κ : Draws) (c : Context) (cnt : Nat) :
    (advance κ c cnt).inputPos = if c.inputPos + cnt = c.B then 0 else c.inputPos + cnt := by
  unfold advance
  split <;> rfl

/-- `inputSegmentPos` after steps 8 and 9 (R102). -/
theorem advance_inputSegmentPos (κ : Draws) (c : Context) (cnt : Nat) :
    (advance κ c cnt).inputSegmentPos = if c.inputPos + cnt = c.B then (c.inputSegmentPos + c.K - 1) % c.K else c.inputSegmentPos := by
  unfold advance
  split <;> rfl

/-- Steps 8 and 9 keep the shape of a context, for a count that does not pass the block end. -/
theorem advance_shaped {caps : Caps} {c : Context} (h : c.Shaped caps) (κ : Draws) (cnt : Nat) (hcnt : c.inputPos + cnt ≤ c.B) :
    (advance κ c cnt).Shaped caps := by
  have hB : 0 < c.B := isPowerOfTwo_pos h.blockSize
  have hK : 0 < c.K := by rw [h.ringLength]; exact planK_pos h.someSegment
  unfold advance
  split
  · exact
      { h with
        inputLength := by simp
        outputLength := by simpa using h.outputLength
        overlapLength := by simpa using h.overlapLength
        overlapUpper := by
          intro t h1 h2
          simp only at h1 h2 ⊢
          rw [getElem?_writeAt, if_neg (by simp only [List.length_map, List.length_range]; omega)]
          exact h.overlapUpper t h1 h2
        position := hB
        ringPosition := Nat.mod_lt _ hK }
  · exact { h with position := by simp only; omega }

/-- A pass keeps the frame buffer padded. -/
theorem pass_framePadded {c : Context} (hp : c.FramePadded) (u : Units) (κ κ' : Draws)
    (xs : List F64) : (advance κ' (transformBlock u κ c xs) xs.length).FramePadded := by
  unfold advance
  split
  · intro t h1 h2
    have h3 : t < c.F := h2
    simp [transformBlock, h3]
  · intro t h1 h2
    simp only [transformBlock_inputPos, transformBlock_inputBuf] at h1 h2 ⊢
    rw [getElem?_writeAt, if_neg (by omega)]
    exact hp t (by omega) h2

/-- A pass processes at least one sample when there is one left and the position stands inside the block (R96). -/
theorem passCount_pos {a : RunArgs} {c : Context} {nsp : Nat} (h : c.inputPos < c.B) (hns : nsp < a.ns) : 0 < passCount a c nsp := by
  unfold passCount; omega

/-- What one pass can do, said once. -/
theorem convPass_some {caps : Caps} {c : Context} (h : c.Shaped caps) (u : Units) (κ : Draws) (a : RunArgs) (m : Memory) (nsp : Nat)
    (hr : LaneReadable a c m (passCount a c nsp) nsp) :
    ∃ c' m', convPass u κ a c m nsp = some (c', m') ∧ c'.Shaped caps ∧ SameConfig c c' ∧ (c.FramePadded → c'.FramePadded) ∧
      c'.inputPos = (if c.inputPos + passCount a c nsp = c.B then 0 else c.inputPos + passCount a c nsp) ∧
      c'.inputSegmentPos = (if c.inputPos + passCount a c nsp = c.B then (c.inputSegmentPos + c.K - 1) % c.K else c.inputSegmentPos) ∧
      (∀ x, OutsideLane a c (passCount a c nsp) nsp x → m'.get x = m.get x) ∧
      (∀ w, (m.read w).isSome → (m'.read w).isSome) ∧ (m.wf = true → m'.wf = true) := by
  obtain ⟨xs, hxs⟩ := Option.isSome_iff_exists.1 ((gather_isSome a c m _ nsp).2 hr)
  have hlen := gather_length _ _ _ _ _ _ hxs
  have hcount : passCount a c nsp ≤ c.B - c.inputPos := by unfold passCount; omega
  have hpos := h.position
  refine ⟨_, _, by rw [convPass]; simp only; rw [hxs], ?_, ?_, ?_, ?_, ?_, ?_, ?_, ?_⟩
  · exact advance_shaped (transformBlock_shaped h _ _ _) _ _ (by simp only [transformBlock_inputPos]; show _ ≤ c.B; omega)
  · exact (transformBlock_sameConfig _ _ _ _).trans (advance_sameConfig _ _ _)
  · intro hp
    have := pass_framePadded hp u (κ.sub 0) (κ.sub 2) xs
    rwa [hlen] at this
  · rw [advance_inputPos]; rfl
  · rw [advance_inputSegmentPos]; rfl
  · intro x hx
    exact get_emit_other _ _ _ _ _ _ _ _ hx
  · intro w hw
    exact read_emit_isSome _ _ _ _ _ _ _ _ hw
  · exact wf_emit _ _ _ _ _ _ _

/-! The whole loop. -/

theorem SameConfig.laneIndex {c d : Context} (h : SameConfig c d) (t : Nat) : laneIndex d t = laneIndex c t := by
  unfold Machine.laneIndex
  rw [h.channel, h.numChannels]

/-- What a whole `CONV_RUN` loop can do (R95, R130), said once: with enough fuel and every input word readable it ends; it keeps the
shape, the configuration and the padding, moves the two positions by the samples processed, and writes only the lane's words of
`out`. -/
theorem convLoop_ok {caps : Caps} (u : Units) (κ : Draws) (a : RunArgs) (fuel nsp : Nat) (c : Context) (m : Memory)
    (h : c.Shaped caps) (hfuel : a.ns ≤ nsp + fuel) (hr : LaneReadable a c m (a.ns - nsp) nsp) :
    ∃ c' m', convLoop u κ a fuel nsp c m = .ok (c', m') ∧ c'.Shaped caps ∧ SameConfig c c' ∧ (c.FramePadded → c'.FramePadded) ∧
      c'.inputPos = (c.inputPos + (a.ns - nsp)) % c.B ∧
      (c'.inputSegmentPos : Int) = ((c.inputSegmentPos : Int) - ((c.inputPos + (a.ns - nsp)) / c.B : Nat)) % (c.K : Int) ∧
      (∀ x, OutsideLane a c (a.ns - nsp) nsp x → m'.get x = m.get x) ∧
      (∀ w, (m.read w).isSome → (m'.read w).isSome) ∧ (m.wf = true → m'.wf = true) := by
  induction fuel generalizing nsp c m with
  | zero =>
    have hp := h.position
    have hk := h.ringPosition
    have h0 : a.ns - nsp = 0 := by omega
    refine ⟨c, m, ?_, h, SameConfig.refl c, id, ?_, ?_, fun _ _ => rfl, fun _ => id, id⟩
    · rw [convLoop, if_neg (by omega)]
    · rw [h0, Nat.add_zero, Nat.mod_eq_of_lt hp]
    · rw [h0, Nat.add_zero, Nat.div_eq_of_lt hp]
      simp only [Nat.cast_zero, sub_zero]
      rw [Int.emod_eq_of_lt] <;> omega
  | succ fuel ih =>
    have hp := h.position
    have hk := h.ringPosition
    have hB : 0 < c.B := by omega
    have hK : 0 < c.K := by omega
    rw [convLoop]
    by_cases hns : nsp < a.ns
    · rw [if_pos hns]
      set cnt := passCount a c nsp with hcntdef
      have hcnt : 0 < cnt := passCount_pos hp hns
      have hcnt1 : cnt ≤ a.ns - nsp := by rw [hcntdef]; unfold passCount; omega
      have hcnt2 : c.inputPos + cnt ≤ c.B := by rw [hcntdef]; unfold passCount; omega
      have hcnt3 : c.inputPos + cnt < c.B → cnt = a.ns - nsp := by rw [hcntdef]; unfold passCount; omega
      obtain ⟨c1, m1, e1, s1, k1, p1, i1, r1, o1, g1, w1⟩ := convPass_some h u (κ.sub nsp) a m nsp
        (fun j h1 h2 => hr j h1 (by omega))
      rw [e1]
      simp only
      obtain ⟨c2, m2, e2, s2, k2, p2, i2, r2, o2, g2, w2⟩ := ih (nsp + cnt) c1 m1 s1 (by omega)
        (fun j h1 h2 h3 => by
          rw [k1.laneIndex] at h3 ⊢
          exact g1 _ (hr j (by omega) (by omega) h3))
      refine ⟨c2, m2, e2, s2, k1.trans k2, fun hf => p2 (p1 hf), ?_, ?_, ?_, fun w hw => g2 w (g1 w hw), fun hw => w2 (w1 hw)⟩
      · rw [i2, i1, k1.B]
        split
        · rename_i hb
          rw [show c.inputPos + (a.ns - nsp) = (0 + (a.ns - (nsp + cnt))) + c.B by omega, Nat.add_mod_right]
        · congr 1; omega
      · rw [r2, r1, i1, k1.B, k1.K]
        split
        · rename_i hb
          rw [show c.inputPos + (a.ns - nsp) = (0 + (a.ns - (nsp + cnt))) + c.B by omega, Nat.add_div_right _ hB]
          generalize (0 + (a.ns - (nsp + cnt))) / c.B = q
          rw [show (((c.inputSegmentPos + c.K - 1) % c.K : Nat) : Int) = ((c.inputSegmentPos : Int) + c.K - 1) % (c.K : Int) by
            rw [Int.natCast_mod, Nat.cast_sub (by omega)]; push_cast; ring_nf]
          rw [Int.emod_sub_emod, show ((c.inputSegmentPos : Int) + c.K - 1 - q) = (c.inputSegmentPos - ((q + 1 : Nat) : Int)) + c.K by
            push_cast; ring, Int.add_emod_right]
        · rw [show c.inputPos + passCount a c nsp + (a.ns - (nsp + cnt)) = c.inputPos + (a.ns - nsp) by omega]
      · intro x hx
        rw [o2 x, o1 x (fun j h1 h2 => hx j h1 (by omega))]
        intro j h1 h2 h3
        rw [k1.laneIndex] at h3 ⊢
        exact hx j (by omega) (by omega) h3
    · rw [if_neg hns]
      have h0 : a.ns - nsp = 0 := by omega
      refine ⟨c, m, rfl, h, SameConfig.refl c, id, ?_, ?_, fun _ _ => rfl, fun _ => id, id⟩
      · rw [h0, Nat.add_zero, Nat.mod_eq_of_lt hp]
      · rw [h0, Nat.add_zero, Nat.div_eq_of_lt hp]
        simp only [Nat.cast_zero, sub_zero]
        rw [Int.emod_eq_of_lt] <;> omega

/-- A whole loop is the sequence of its passes (R95, R96): each of them starts from the sample number, the context and the memory that
the ones before it left, and there are samples left for it. -/
theorem convLoop_passes {caps : Caps} (u : Units) (κ : Draws) (a : RunArgs) (fuel nsp : Nat) (c : Context) (m : Memory)
    (h : c.Shaped caps) (hn : nsp ≤ a.ns) (hfuel : a.ns ≤ nsp + fuel) (hr : LaneReadable a c m (a.ns - nsp) nsp) :
    ∃ (n : Nat) (ns : Nat → Nat) (cs : Nat → Context) (ms : Nat → Memory),
      convLoop u κ a fuel nsp c m = .ok (cs n, ms n) ∧ ns 0 = nsp ∧ cs 0 = c ∧ ms 0 = m ∧ ns n = a.ns ∧
      ∀ j, j < n → 0 < passCount a (cs j) (ns j) ∧ ns (j + 1) = ns j + passCount a (cs j) (ns j) ∧
        convPass u (κ.sub (ns j)) a (cs j) (ms j) (ns j) = some (cs (j + 1), ms (j + 1)) := by
  induction fuel generalizing nsp c m with
  | zero =>
    have h0 : nsp = a.ns := by omega
    exact ⟨0, fun _ => nsp, fun _ => c, fun _ => m, by rw [convLoop, if_neg (by omega)], rfl, rfl, rfl, h0, fun j hj => absurd hj (by omega)⟩
  | succ fuel ih =>
    by_cases hns : nsp < a.ns
    · have hcnt : 0 < passCount a c nsp := passCount_pos h.position hns
      have hcnt1 : passCount a c nsp ≤ a.ns - nsp := by unfold passCount; omega
      obtain ⟨c1, m1, e1, s1, k1, -, -, -, -, g1, -⟩ := convPass_some h u (κ.sub nsp) a m nsp (fun j h1 h2 => hr j h1 (by omega))
      obtain ⟨n, ns, cs, ms, e, n0, c0, m0, nl, steps⟩ := ih (nsp + passCount a c nsp) c1 m1 s1 (by omega) (by omega)
        (fun j h1 h2 h3 => by
          rw [k1.laneIndex] at h3 ⊢
          exact g1 _ (hr j (by omega) (by omega) h3))
      refine ⟨n + 1, fun j => j.casesOn nsp ns, fun j => j.casesOn c cs, fun j => j.casesOn m ms, ?_, rfl, rfl, rfl, nl, ?_⟩
      · rw [convLoop, if_pos hns, e1]
        exact e
      · intro j hj
        cases j with
        | zero => exact ⟨hcnt, n0, by show _ = some (cs 0, ms 0); rw [c0, m0]; exact e1⟩
        | succ j => exact steps j (by omega)
    · exact ⟨0, fun _ => nsp, fun _ => c, fun _ => m, by rw [convLoop, if_neg hns], rfl, rfl, rfl, by show nsp = a.ns; omega,
        fun j hj => absurd hj (by omega)⟩

end Sys2Proof.Machine
end

