-- ==== Sys2Proof/Laws/Exec.lean ====
section
/-! SUPPORT. What each command can do, said once: the loops of `CMAC` and `FFT_MAG`, and for each meaning the ways it can end. -/

namespace Sys2Proof.Machine

/-! The element loops. -/

/-- A word write takes no word's value away. -/
theorem read_write_isSome (m : Memory) (a w : Nat) (v : F64) (h : (m.read w).isSome) : ((m.write a v).read w).isSome := by
  rw [Memory.read_write]
  split
  · rfl
  · exact h

theorem read_writeC_isSome (m : Memory) (a w : Nat) (z : Cplx) (h : (m.read w).isSome) : ((m.writeC a z).read w).isSome :=
  read_write_isSome _ _ _ _ (read_write_isSome _ _ _ _ h)

theorem readC_isSome {m : Memory} {a : Nat} : (m.readC a).isSome ↔ (m.read a).isSome ∧ (m.read (a + 1)).isSome := by
  unfold Memory.readC
  cases m.read a <;> cases m.read (a + 1) <;> simp

/-- `CMAC`'s loop changes no byte outside the accumulator elements it goes over. -/
theorem get_cmacLoop_other (κ : Draws) (p a b n t : Nat) (m m' : Memory) (h : cmacLoop κ p a b n t m = some m') (x : Nat)
    (hx : x / 8 < p + 2 * t ∨ p + 2 * (t + n) ≤ x / 8) : m'.get x = m.get x := by
  induction n generalizing t m with
  | zero => cases h; rfl
  | succ n ih =>
    rw [cmacLoop] at h
    split at h
    · rw [ih _ _ h (by omega), Memory.get_writeC_other _ _ _ _ (by omega)]
    · cases h

theorem wf_cmacLoop (κ : Draws) (p a b n t : Nat) (m m' : Memory) (h : cmacLoop κ p a b n t m = some m') (hw : m.wf = true) :
    m'.wf = true := by
  induction n generalizing t m with
  | zero => cases h; exact hw
  | succ n ih =>
    rw [cmacLoop] at h
    split at h
    · exact ih _ _ h (Memory.wf_writeC _ _ _ hw)
    · cases h

/-- `CMAC`'s loop ends when every word it reads holds a value. -/
theorem cmacLoop_isSome (κ : Draws) (p a b n t : Nat) (m : Memory)
    (hp : ∀ i, t ≤ i → i < t + n → (m.readC (p + 2 * i)).isSome) (ha : ∀ i, t ≤ i → i < t + n → (m.readC (a + 2 * i)).isSome)
    (hb : ∀ i, t ≤ i → i < t + n → (m.readC (b + 2 * i)).isSome) : (cmacLoop κ p a b n t m).isSome := by
  induction n generalizing t m with
  | zero => rfl
  | succ n ih =>
    obtain ⟨zp, hzp⟩ := Option.isSome_iff_exists.1 (hp t (le_refl _) (by omega))
    obtain ⟨za, hza⟩ := Option.isSome_iff_exists.1 (ha t (le_refl _) (by omega))
    obtain ⟨zb, hzb⟩ := Option.isSome_iff_exists.1 (hb t (le_refl _) (by omega))
    rw [cmacLoop, hzp, hza, hzb]
    have keep : ∀ z q i, (m.readC i).isSome → ((m.writeC q z).readC i).isSome := fun z q i hi => by
      rw [readC_isSome] at hi ⊢
      exact ⟨read_writeC_isSome _ _ _ _ hi.1, read_writeC_isSome _ _ _ _ hi.2⟩
    exact ih _ _ (fun i h1 h2 => keep _ _ _ (hp i (by omega) (by omega))) (fun i h1 h2 => keep _ _ _ (ha i (by omega) (by omega)))
      (fun i h1 h2 => keep _ _ _ (hb i (by omega) (by omega)))

/-- `FFT_MAG`'s loop changes no byte outside the destination words it goes over. -/
theorem get_magLoop_other (u : Units) (κ : Draws) (d s n k t : Nat) (m m' : Memory) (h : magLoop u κ d s n k t m = some m') (x : Nat)
    (hx : x / 8 < d + t ∨ d + t + k ≤ x / 8) : m'.get x = m.get x := by
  induction k generalizing t m with
  | zero => cases h; rfl
  | succ k ih =>
    rw [magLoop] at h
    split at h
    · rw [ih _ _ h (by omega), Memory.get_write, if_neg (by omega)]
    · cases h

theorem wf_magLoop (u : Units) (κ : Draws) (d s n k t : Nat) (m m' : Memory) (h : magLoop u κ d s n k t m = some m')
    (hw : m.wf = true) : m'.wf = true := by
  induction k generalizing t m with
  | zero => cases h; exact hw
  | succ k ih =>
    rw [magLoop] at h
    split at h
    · exact ih _ _ h (Memory.wf_write _ _ _ hw)
    · cases h

/-- `FFT_MAG`'s loop ends when every word of its source holds a value. -/
theorem magLoop_isSome (u : Units) (κ : Draws) (d s n k t : Nat) (m : Memory)
    (hs : ∀ w, s + 2 * t ≤ w → w < s + 2 * (t + k) → (m.read w).isSome) : (magLoop u κ d s n k t m).isSome := by
  induction k generalizing t m with
  | zero => rfl
  | succ k ih =>
    obtain ⟨x, hx⟩ := Option.isSome_iff_exists.1 (hs (s + 2 * t) (le_refl _) (by omega))
    obtain ⟨y, hy⟩ := Option.isSome_iff_exists.1 (hs (s + 2 * t + 1) (by omega) (by omega))
    rw [magLoop, hx, hy]
    exact ih _ _ (fun w h1 h2 => read_write_isSome _ _ _ _ (hs w (by omega) (by omega)))

/-! What a `CONV_RUN` loop can do from any context. -/

/-- A pass changes no byte outside `out`, from any context. -/
theorem get_emit_outside (κ : Draws) (a : RunArgs) (c : Context) (k pos t : Nat) (m : Memory) (x : Nat)
    (h : x / 8 < a.outbase ∨ a.outbase + a.outlen ≤ x / 8) : (emit κ a c k pos t m).get x = m.get x :=
  get_emit_other κ a c k pos t m x (fun j _ _ hj => by omega)

theorem convLoop_frame (u : Units) (κ : Draws) (a : RunArgs) (fuel nsp : Nat) (c c' : Context) (m m' : Memory)
    (h : convLoop u κ a fuel nsp c m = .ok (c', m')) :
    (∀ x, (x / 8 < a.outbase ∨ a.outbase + a.outlen ≤ x / 8) → m'.get x = m.get x) ∧ (m.wf = true → m'.wf = true) := by
  induction fuel generalizing nsp c m with
  | zero =>
    rw [convLoop] at h
    split at h
    · cases h
    · cases h; exact ⟨fun _ _ => rfl, id⟩
  | succ fuel ih =>
    rw [convLoop] at h
    split at h
    · split at h
      · rename_i c1 m1 h1
        obtain ⟨g, w⟩ := ih _ _ _ h
        rw [convPass] at h1
        simp only at h1
        split at h1
        · cases h1
        · cases h1
          exact ⟨fun x hx => by rw [g x hx, get_emit_outside _ _ _ _ _ _ _ _ hx], fun hw => w (wf_emit _ _ _ _ _ _ _ hw)⟩
      · cases h
    · cases h; exact ⟨fun _ _ => rfl, id⟩

/-- A loop that reaches an unreadable lane word stops with `unwrittenWord`, when its own stores cannot supply the word first: `out` starts
at or below `in`, or past it. -/
theorem convLoop_unwritten {caps : Caps} (u : Units) (κ : Draws) (a : RunArgs) (fuel nsp : Nat) (c : Context) (m : Memory)
    (h : c.Shaped caps) (hfuel : a.ns ≤ nsp + fuel) (t : Nat) (ht : nsp ≤ t) (ht' : t < a.ns) (hin : laneIndex c t < a.inlen)
    (hr : m.read (a.inbase + laneIndex c t) = none)
    (hd : a.outbase ≤ a.inbase ∨ a.inbase + a.inlen ≤ a.outbase) :
    convLoop u κ a fuel nsp c m = .error .unwrittenWord := by
  induction fuel generalizing nsp c m with
  | zero => omega
  | succ fuel ih =>
    have hp := h.position
    rw [convLoop, if_pos (by omega)]
    set cnt := passCount a c nsp with hcntdef
    have hcnt : 0 < cnt := passCount_pos hp (by omega)
    by_cases hl : LaneReadable a c m cnt nsp
    · obtain ⟨c1, m1, e1, s1, k1, p1, i1, r1, o1, g1, w1⟩ := convPass_some h u (κ.sub nsp) a m nsp hl
      rw [e1]
      simp only
      have hcov : nsp + cnt ≤ t := by
        by_contra hlt
        have := hl t ht (by omega) hin
        rw [hr] at this
        cases this
      apply ih _ _ _ s1 (by omega) hcov
      · rw [k1.laneIndex]; exact hin
      · rw [k1.laneIndex, ← hr]
        apply Memory.read_congr
        intro x hx
        refine o1 x (fun j _ hj2 hj => ?_)
        have hlt : laneIndex c j < laneIndex c t := by
          have hlane := h.lane
          have := Nat.mul_le_mul_right c.numChannels (show j + 1 ≤ t by omega)
          rw [Nat.add_mul] at this
          unfold laneIndex
          omega
        omega
    · have hg : gather a c m cnt nsp = none := by
        rcases hg : gather a c m cnt nsp with _ | xs
        · rfl
        · exact absurd ((gather_isSome a c m cnt nsp).1 (by rw [hg]; rfl)) hl
      rw [convPass]
      simp only [← hcntdef, hg]

/-! The ways a command can end. -/

/-- `t` is `s` after a failed check: only `ERR` and `BUSY` change (R107). -/
def Failed (s t : State) : Prop := ∃ e, e ≠ Err.ok ∧ t = s.finish e

theorem checkBitrev_ne_ok (s : State) (e : Err) (h : checkBitrev s = some e) : e ≠ .ok := by
  unfold checkBitrev at h
  simp only at h
  split at h
  · cases h; simp
  · split at h
    · cases h; simp
    · split at h <;> cases h; simp

theorem checkFftFwd_ne_ok (s : State) (e : Err) (h : checkFftFwd s = some e) : e ≠ .ok := by
  unfold checkFftFwd at h
  simp only at h
  split at h
  · cases h
  · split at h
    · cases h; simp
    · split at h
      · cases h; simp
      · split at h <;> cases h; simp

theorem checkFftInv_ne_ok (s : State) (e : Err) (h : checkFftInv s = some e) : e ≠ .ok := by
  unfold checkFftInv at h
  simp only at h
  split at h
  · cases h; simp
  · split at h
    · cases h; simp
    · split at h <;> cases h; simp

theorem checkFftMag_ne_ok (s : State) (e : Err) (h : checkFftMag s = some e) : e ≠ .ok := by
  unfold checkFftMag at h
  split at h
  · cases h; simp
  · split at h <;> cases h; simp

theorem checkCmac_ne_ok (s : State) (e : Err) (h : checkCmac s = some e) : e ≠ .ok := by
  unfold checkCmac at h
  simp only at h
  split at h <;> cases h; simp

theorem checkConvNew_ne_ok (x : Nat) (s : State) (e : Err) (h : checkConvNew x s = some e) : e ≠ .ok := by
  unfold checkConvNew at h
  simp only at h
  repeat' split at h
  all_goals first | (cases h; simp) | cases h

theorem checkConvSetir_ne_ok (x : Nat) (s : State) (e : Err) (h : checkConvSetir x s = some e) : e ≠ .ok := by
  unfold checkConvSetir at h
  simp only at h
  repeat' split at h
  all_goals first | (cases h; simp) | cases h

theorem checkConvRun_ne_ok (x : Nat) (s : State) (e : Err) (h : checkConvRun x s = some e) : e ≠ .ok := by
  unfold checkConvRun at h
  repeat' split at h
  all_goals first | (cases h; simp) | cases h

/-- What `BITREV` can do when it answers a next state (R81). -/
theorem execBitrev_next {s t : State} (h : execBitrev s = .next t) :
    Failed s t ∨ checkBitrev s = none ∧ ∃ v, loadC s.dmem (s.arg 0) (s.arg 1) = some v ∧
      t = State.finish { s with dmem := storeC s.dmem (s.arg 0) (reorder v) } .ok := by
  unfold execBitrev bitrev at h
  split at h
  · rename_i e he; cases h; exact .inl ⟨e, checkBitrev_ne_ok _ _ he, rfl⟩
  · rename_i hc
    split at h
    · rename_i v hv; cases h; exact .inr ⟨hc, v, hv, rfl⟩
    · cases h

/-- What `FFT_FWD` can do when it answers a next state (R83). -/
theorem execFftFwd_next {s t : State} (h : execFftFwd s = .next t) :
    Failed s t ∨ s.arg 1 = 2 ∧ t = s.finish .ok ∨
    checkFftFwd s = none ∧ s.arg 1 ≠ 2 ∧ ∃ v, loadC s.dmem (s.arg 0) (s.arg 1) = some v ∧
      t = State.finish { s with dmem := storeC s.dmem (s.arg 0) (fwd Config.units (s.supply Config.units) v) } .ok := by
  unfold execFftFwd fftFwd at h
  split at h
  · rename_i e he; cases h; exact .inl ⟨e, checkFftFwd_ne_ok _ _ he, rfl⟩
  · rename_i hc
    split at h
    · rename_i h2; cases h; exact .inr (.inl ⟨h2, rfl⟩)
    · rename_i h2
      split at h
      · rename_i v hv; cases h; exact .inr (.inr ⟨hc, h2, v, hv, rfl⟩)
      · cases h

/-- What `FFT_INV` can do when it answers a next state (R85). -/
theorem execFftInv_next {s t : State} (h : execFftInv s = .next t) :
    Failed s t ∨ checkFftInv s = none ∧ ∃ v, loadC s.dmem (s.arg 0) (s.arg 1) = some v ∧
      t = State.finish { s with dmem := storeC s.dmem (s.arg 0) (inv Config.units (s.supply Config.units) v) } .ok := by
  unfold execFftInv fftInv at h
  split at h
  · rename_i e he; cases h; exact .inl ⟨e, checkFftInv_ne_ok _ _ he, rfl⟩
  · rename_i hc
    split at h
    · rename_i v hv; cases h; exact .inr ⟨hc, v, hv, rfl⟩
    · cases h

/-- What `FFT_MAG` can do when it answers a next state (R87). -/
theorem execFftMag_next {s t : State} (h : execFftMag s = .next t) :
    Failed s t ∨ checkFftMag s = none ∧ ∃ m,
      magLoop Config.units (s.supply Config.units) (s.arg 0) (s.arg 2) (s.arg 3) (s.arg 3) 0 s.dmem = some m ∧
      t = State.finish { s with dmem := m } .ok := by
  unfold execFftMag fftMag at h
  split at h
  · rename_i e he; cases h; exact .inl ⟨e, checkFftMag_ne_ok _ _ he, rfl⟩
  · rename_i hc
    split at h
    · rename_i m hm; cases h; exact .inr ⟨hc, m, hm, rfl⟩
    · cases h

/-- What `CMAC` can do when it answers a next state (R78). -/
theorem execCmac_next {s t : State} (h : execCmac s = .next t) :
    Failed s t ∨ checkCmac s = none ∧ ∃ m,
      cmacLoop (s.supply Config.units) (s.arg 0) (s.arg 1) (s.arg 2) (s.arg 3) 0 s.dmem = some m ∧
      t = State.finish { s with dmem := m } .ok := by
  unfold execCmac cmac at h
  split at h
  · rename_i e he; cases h; exact .inl ⟨e, checkCmac_ne_ok _ _ he, rfl⟩
  · rename_i hc
    split at h
    · rename_i m hm; cases h; exact .inr ⟨hc, m, hm, rfl⟩
    · cases h

/-- What `CONV_NEW` can do when it answers a next state (R93). -/
theorem execConvNew_next {x : Nat} {s t : State} (h : execConvNew x s = .next t) :
    Failed s t ∨ checkConvNew x s = none ∧ ∃ ir, loadR s.dmem (s.arg 3) (truncatedIr (s.arg 4)) = some ir ∧
      t = (s.setCtx x (newContext Config.units s ir)).finish .ok := by
  unfold execConvNew convNew at h
  split at h
  · rename_i e he; cases h; exact .inl ⟨e, checkConvNew_ne_ok _ _ _ he, rfl⟩
  · rename_i hc
    split at h
    · rename_i m hm; cases h; exact .inr ⟨hc, m, hm, rfl⟩
    · cases h

/-- What `CONV_SETIR` can do when it answers a next state (R94). -/
theorem execConvSetir_next {x : Nat} {s t : State} (h : execConvSetir x s = .next t) :
    Failed s t ∨ checkConvSetir x s = none ∧ ∃ ir, loadR s.dmem (s.arg 3) (truncatedIr (s.arg 4)) = some ir ∧
      t = ((markPartialBlock s (s.ctx x)).setCtx x (setirContext Config.units s (s.ctx x) ir)).finish .ok := by
  unfold execConvSetir convSetir at h
  split at h
  · rename_i e he; cases h; exact .inl ⟨e, checkConvSetir_ne_ok _ _ _ he, rfl⟩
  · rename_i hc
    split at h
    · rename_i m hm; cases h; exact .inr ⟨hc, m, hm, rfl⟩
    · cases h

/-- What `CONV_RUN` can do when it answers a next state (R95). -/
theorem execConvRun_next {x : Nat} {s t : State} (h : execConvRun x s = .next t) :
    Failed s t ∨ checkConvRun x s = none ∧ ∃ c m,
      convLoop Config.units (s.supply Config.units) (runArgs s) (s.arg 4) 0 (s.ctx x) s.dmem = .ok (c, m) ∧
      t = (State.setCtx { s with dmem := m } x c).finish .ok := by
  unfold execConvRun convRun at h
  split at h
  · rename_i e he; cases h; exact .inl ⟨e, checkConvRun_ne_ok _ _ _ he, rfl⟩
  · rename_i hc
    split at h
    · rename_i c m hm; cases h; exact .inr ⟨hc, c, m, hm, rfl⟩
    · cases h

/-! The context a convolver command leaves. -/

/-- The context that a passed `CONV_NEW` makes is shaped (R28, R32). -/
theorem newContext_shaped (u : Units) (x : Nat) (s : State) (ir : List F64) (h : checkConvNew x s = none) :
    (newContext u s ir).Shaped s.caps ∧ (newContext u s ir).FramePadded := by
  unfold checkConvNew at h
  simp only at h
  repeat' split at h
  all_goals try cases h
  rename_i hx hbs hch hl hcap hr
  simp only [Bool.not_eq_true, Bool.not_eq_false', decide_eq_true_eq] at hch
  have hB : 0 < newB s := nextPowerOfTwo_pos _
  have hF := planF_ge hB
  have hM : 1 ≤ newM s := Nat.le_add_left 1 _
  have hK : 1 ≤ planK (newB s) (newM s) := planK_pos hM
  refine ⟨
    { blockSize := isPowerOfTwo_next _, fftSize := rfl, segLength := rfl, fitsEngine := ?_, someSegment := hM, fitsSegments := ?_
      ringLength := rfl, fitsRing := ?_, ringStride := rfl, lane := ?_
      inputLength := by simp [newContext], outputLength := by simp [newContext], tempLength := by simp [newContext]
      overlapLength := by simp [newContext], overlapUpper := ?_
      ringSegments := zeroRing_length _ _, ringSegmentLength := zeroRing_segment_length _ _
      irSegments := loadImpulse_length _ _ _ _ _ _, irSegmentLength := loadImpulse_segment_length _ _ _ _ _ _
      position := hB, ringPosition := hK }, ?_⟩
  · show planF (newB s) ≤ _; omega
  · show newM s ≤ _; omega
  · show planK (newB s) (newM s) ≤ _; omega
  · show (s.argSigned 1).toNat < (s.argSigned 2).toNat; omega
  · intro t _ h2
    have h3 : t < planF (newB s) := h2
    simp [newContext, h3]
  · intro t _ h2
    have h3 : t < planF (newB s) := h2
    simp [newContext, h3]

/-- `CONV_SETIR` keeps the shape of its context, and its padding when issued at a block boundary (R32, R94). -/
theorem setirContext_shaped (u : Units) (x : Nat) (s : State) (ir : List F64) (h : checkConvSetir x s = none)
    (hs : (s.ctx x).Shaped s.caps) :
    (setirContext u s (s.ctx x) ir).Shaped s.caps ∧
    ((s.ctx x).inputPos = 0 → (s.ctx x).FramePadded → (setirContext u s (s.ctx x) ir).FramePadded) := by
  unfold checkConvSetir at h
  simp only at h
  repeat' split at h
  all_goals try cases h
  rename_i hx hcf hl hcap hr
  have hM : 1 ≤ setirM s (s.ctx x) := Nat.le_add_left 1 _
  have hK : 1 ≤ planK (s.ctx x).B (setirM s (s.ctx x)) := planK_pos hM
  refine ⟨
    { hs with
      someSegment := hM, fitsSegments := ?_, ringLength := rfl, fitsRing := ?_, ringStride := rfl
      ringSegments := zeroRing_length _ _, ringSegmentLength := zeroRing_segment_length _ _
      irSegments := loadImpulse_length _ _ _ _ _ _, irSegmentLength := loadImpulse_segment_length _ _ _ _ _ _
      position := isPowerOfTwo_pos hs.blockSize, ringPosition := hK }, fun h0 hp => ?_⟩
  · show setirM s (s.ctx x) ≤ _; omega
  · show planK (s.ctx x).B (setirM s (s.ctx x)) ≤ _; omega
  · intro t _ h2
    exact hp t (by omega) h2

end Sys2Proof.Machine
end

