-- ==== Sys2Proof/Laws/Float64.lean ====
section
/-! SUPPORT. The rounding of R64: finite encodings count units in order, and `roundBits` picks the nearest one, the even one in a tie. -/

namespace Sys2Proof.Machine

/-! Encodings in order. -/

theorem unitsOfBits_low {b : Nat} (h : b < 2 ^ 52) : unitsOfBits b = b := if_pos h

/-- The units of the encoding with exponent part `k` and significand `q`, hidden bit included. -/
theorem unitsOfBits_normal {k q : Nat} (h1 : 2 ^ 52 ≤ q) (h2 : q < 2 ^ 53) : unitsOfBits (k * 2 ^ 52 + q) = q * 2 ^ k := by
  unfold unitsOfBits
  rw [if_neg (by omega), show (k * 2 ^ 52 + q) % 2 ^ 52 = q - 2 ^ 52 by omega, show (k * 2 ^ 52 + q) / 2 ^ 52 - 1 = k by omega,
    show 2 ^ 52 + (q - 2 ^ 52) = q by omega]

/-- The same when the significand has just overflowed into the next exponent. -/
theorem unitsOfBits_carry {k q : Nat} (h1 : 2 ^ 52 ≤ q) (h2 : q ≤ 2 ^ 53) : unitsOfBits (k * 2 ^ 52 + q) = q * 2 ^ k := by
  rcases Nat.lt_or_ge q (2 ^ 53) with h | h
  · exact unitsOfBits_normal h1 h
  · have hq : q = 2 ^ 53 := by omega
    subst hq
    rw [show k * 2 ^ 52 + 2 ^ 53 = (k + 1) * 2 ^ 52 + 2 ^ 52 by ring, unitsOfBits_normal (le_refl _) (by norm_num)]
    ring

theorem unitsOfBits_lt_succ (b : Nat) : unitsOfBits b < unitsOfBits (b + 1) := by
  rcases Nat.lt_or_ge b (2 ^ 52) with h | h
  · rw [unitsOfBits_low h]
    rcases Nat.lt_or_ge (b + 1) (2 ^ 52) with h1 | h1
    · rw [unitsOfBits_low h1]; omega
    · have := unitsOfBits_normal (k := 0) (q := b + 1) (by omega) (by omega)
      rw [Nat.zero_mul, Nat.zero_add] at this
      rw [this]; omega
  · have e1 : b = (b / 2 ^ 52 - 1) * 2 ^ 52 + (2 ^ 52 + b % 2 ^ 52) := by omega
    have h1 := unitsOfBits_normal (k := b / 2 ^ 52 - 1) (q := 2 ^ 52 + b % 2 ^ 52) (by omega) (by omega)
    have h2 := unitsOfBits_carry (k := b / 2 ^ 52 - 1) (q := 2 ^ 52 + b % 2 ^ 52 + 1) (by omega) (by omega)
    rw [← e1] at h1
    rw [show (b / 2 ^ 52 - 1) * 2 ^ 52 + (2 ^ 52 + b % 2 ^ 52 + 1) = b + 1 by omega] at h2
    rw [h1, h2]
    exact Nat.mul_lt_mul_of_pos_right (by omega) (by positivity)

/-- Larger encodings stand for larger magnitudes. -/
theorem unitsOfBits_strictMono : StrictMono unitsOfBits := strictMono_nat_of_lt_succ unitsOfBits_lt_succ

/-! Rounding. -/

/-- The exponent part, the significand and the remainder that `roundBits` works with. -/
theorem roundBits_parts (num den : Nat) (hd : 0 < den) :
    let k := Nat.log2 (num / den) - 52
    let d := den * 2 ^ k
    let q := num / d
    num = q * d + num % d ∧ num % d < d ∧ q < 2 ^ 53 ∧ (k = 0 ∨ 2 ^ 52 ≤ q) := by
  intro k d q
  have hdp : 0 < d := Nat.mul_pos hd (by positivity)
  have hq : q = num / den / 2 ^ k := (Nat.div_div_eq_div_mul _ _ _).symm
  refine ⟨by rw [Nat.mul_comm]; exact (Nat.div_add_mod num d).symm, Nat.mod_lt _ hdp, ?_, ?_⟩
  · rw [hq, Nat.div_lt_iff_lt_mul (by positivity), ← pow_add]
    refine lt_of_lt_of_le Nat.lt_log2_self (Nat.pow_le_pow_right (by norm_num) ?_)
    show Nat.log2 (num / den) + 1 ≤ 53 + (Nat.log2 (num / den) - 52)
    omega
  · by_cases hk : k = 0
    · exact .inl hk
    · right
      have hlog : Nat.log2 (num / den) = 52 + k := by
        have : k = Nat.log2 (num / den) - 52 := rfl
        omega
      have hne : num / den ≠ 0 := by
        intro h
        rw [h] at hlog
        simp [Nat.log2] at hlog
        omega
      rw [hq, Nat.le_div_iff_mul_le (by positivity), ← pow_add, ← hlog]
      exact Nat.log2_self_le hne

/-- The two neighbouring encodings that `roundBits` chooses between, and its choice: the nearer one, the even one in a tie. -/
theorem roundBits_between (num den : Nat) (hd : 0 < den) :
    ∃ b, unitsOfBits b * den ≤ num ∧ num < unitsOfBits (b + 1) * den ∧
      ((roundBits num den = min b infBits ∧
          (2 * num < (unitsOfBits b + unitsOfBits (b + 1)) * den ∨
            2 * num = (unitsOfBits b + unitsOfBits (b + 1)) * den ∧ b % 2 = 0)) ∨
        (roundBits num den = min (b + 1) infBits ∧
          ((unitsOfBits b + unitsOfBits (b + 1)) * den < 2 * num ∨
            2 * num = (unitsOfBits b + unitsOfBits (b + 1)) * den ∧ b % 2 = 1))) := by
  obtain ⟨hnum, hr, hq, hk⟩ := roundBits_parts num den hd
  unfold roundBits
  simp only
  generalize hkd : Nat.log2 (num / den) - 52 = k at *
  set d := den * 2 ^ k with hdd
  set q := num / d with hqd
  generalize hrr : num % d = r at *
  have hU : unitsOfBits (k * 2 ^ 52 + q) = q * 2 ^ k ∧ unitsOfBits (k * 2 ^ 52 + q + 1) = (q + 1) * 2 ^ k := by
    rcases Nat.lt_or_ge q (2 ^ 52) with h | h
    · have hk0 : k = 0 := by omega
      subst hk0
      rw [Nat.zero_mul, Nat.zero_add, unitsOfBits_low h, pow_zero, Nat.mul_one]
      refine ⟨rfl, ?_⟩
      rcases Nat.lt_or_ge (q + 1) (2 ^ 52) with h1 | h1
      · rw [unitsOfBits_low h1]; omega
      · have := unitsOfBits_normal (k := 0) (q := q + 1) (by omega) (by omega)
        rw [Nat.zero_mul, Nat.zero_add, pow_zero] at this
        exact this
    · exact ⟨unitsOfBits_normal h hq, by rw [Nat.add_assoc]; exact unitsOfBits_carry (by omega) (by omega)⟩
  have e1 : unitsOfBits (k * 2 ^ 52 + q) * den = q * d := by rw [hU.1, hdd]; ring
  have e2 : unitsOfBits (k * 2 ^ 52 + q + 1) * den = q * d + d := by rw [hU.2, hdd]; ring
  have e3 : (unitsOfBits (k * 2 ^ 52 + q) + unitsOfBits (k * 2 ^ 52 + q + 1)) * den = 2 * (q * d) + d := by
    rw [Nat.add_mul, e1, e2]; ring
  refine ⟨k * 2 ^ 52 + q, by rw [e1]; omega, by rw [e2]; omega, ?_⟩
  rw [e3]
  have hpar : (k * 2 ^ 52 + q) % 2 = q % 2 := by omega
  by_cases h1 : d < 2 * r
  · right
    rw [if_pos h1]
    exact ⟨by rw [Nat.add_assoc], .inl (by omega)⟩
  · rw [if_neg h1]
    by_cases h2 : 2 * r = d
    · rw [if_pos h2]
      rcases Nat.mod_two_eq_zero_or_one q with h3 | h3
      · left
        rw [h3]
        exact ⟨rfl, .inr ⟨by omega, by rw [hpar]; exact h3⟩⟩
      · right
        rw [h3]
        exact ⟨by rw [Nat.add_assoc], .inr ⟨by omega, by rw [hpar]; exact h3⟩⟩
    · left
      rw [if_neg h2]
      exact ⟨rfl, .inl (by omega)⟩

/-- What the encoding of infinity would count, were it finite. -/
theorem unitsOfBits_infBits : unitsOfBits infBits = 2 ^ 52 * 2 ^ 2046 := by
  rw [show infBits = 2046 * 2 ^ 52 + 2 ^ 52 by unfold infBits; norm_num]
  exact unitsOfBits_normal (le_refl _) (by norm_num)

/-- The largest finite magnitude. -/
theorem unitsOfBits_maxFinite : unitsOfBits (infBits - 1) = (2 ^ 53 - 1) * 2 ^ 2045 := by
  rw [show infBits - 1 = 2045 * 2 ^ 52 + (2 ^ 53 - 1) by unfold infBits; norm_num]
  exact unitsOfBits_normal (by norm_num) (by norm_num)

theorem roundBits_le (num den : Nat) : roundBits num den ≤ infBits := by
  unfold roundBits
  exact Nat.min_le_right _ _

/-! The fields of a packed encoding. -/

theorem infBits_eq : infBits = 9218868437227405312 := by unfold infBits; norm_num

theorem packF64_toNat {neg : Bool} {b : Nat} (h : b < 2 ^ 63) : (packF64 neg b).toNat = (if neg then 2 ^ 63 else 0) + b := by
  unfold packF64
  rw [BitVec.toNat_ofNat]
  apply Nat.mod_eq_of_lt
  split <;> omega

theorem packF64_low {neg : Bool} {b : Nat} (h : b < 2 ^ 63) : (packF64 neg b).toNat % 2 ^ 63 = b := by
  rw [packF64_toNat h]
  split <;> omega

@[simp] theorem signBit_packF64 {neg : Bool} {b : Nat} (h : b < 2 ^ 63) : signBit (packF64 neg b) = neg := by
  unfold signBit
  rw [packF64_toNat h]
  cases neg <;> simp
  all_goals omega

theorem magUnits_packF64 {neg : Bool} {b : Nat} (h : b < 2 ^ 63) : magUnits (packF64 neg b) = unitsOfBits b := by
  unfold magUnits
  rw [packF64_low h]

theorem fracField_packF64 {neg : Bool} {b : Nat} (h : b < 2 ^ 63) : fracField (packF64 neg b) = b % 2 ^ 52 := by
  unfold fracField
  rw [packF64_toNat h]
  split <;> omega

theorem expField_packF64 {neg : Bool} {b : Nat} (h : b < 2 ^ 63) : expField (packF64 neg b) = b / 2 ^ 52 := by
  unfold expField
  rw [packF64_toNat h]
  split <;> omega

theorem isFinite_packF64 {neg : Bool} {b : Nat} (h : b ≤ infBits) : isFinite (packF64 neg b) = decide (b < infBits) := by
  rw [infBits_eq] at *
  unfold isFinite
  rw [expField_packF64 (by omega)]
  congr 1
  simp only [ne_eq, eq_iff_iff]
  omega

theorem isInf_packF64 {neg : Bool} {b : Nat} (h : b ≤ infBits) : isInf (packF64 neg b) = decide (b = infBits) := by
  rw [infBits_eq] at *
  unfold isInf
  rw [expField_packF64 (by omega), fracField_packF64 (by omega)]
  congr 1
  simp only [eq_iff_iff]
  omega

theorem isNaN_packF64 {neg : Bool} {b : Nat} (h : b ≤ infBits) : isNaN (packF64 neg b) = false := by
  rw [infBits_eq] at h
  unfold isNaN
  rw [expField_packF64 (by omega), fracField_packF64 (by omega)]
  simp only [ne_eq, decide_eq_false_iff_not]
  omega

/-- A NaN made of a free value is a NaN (R65). -/
@[simp] theorem isNaN_nanOf (d : BitVec 64) : isNaN (nanOf d) = true := by
  have hf : fracField d < 2 ^ 52 := Nat.mod_lt _ (by norm_num)
  unfold nanOf
  rw [infBits_eq]
  unfold isNaN
  rw [expField_packF64 (by split <;> omega), fracField_packF64 (by split <;> omega)]
  simp only [ne_eq, decide_eq_true_eq]
  split <;> omega

/-- A finite encoding's magnitude bits are below those of infinity. -/
theorem low_lt_infBits {x : F64} (h : isFinite x = true) : x.toNat % 2 ^ 63 < infBits := by
  unfold isFinite expField at h
  rw [infBits_eq]
  simp only [ne_eq, decide_eq_true_eq] at h
  have := x.isLt
  omega

theorem fracField_parity (x : F64) : fracField x % 2 = x.toNat % 2 ^ 63 % 2 := by
  unfold fracField
  omega

/-- An encoding is a NaN, an infinity or finite, and only one of them. -/
theorem class_cases (x : F64) :
    (isNaN x = true ∧ isInf x = false ∧ isFinite x = false) ∨ (isNaN x = false ∧ isInf x = true ∧ isFinite x = false) ∨
    (isNaN x = false ∧ isInf x = false ∧ isFinite x = true) := by
  unfold isNaN isInf isFinite
  by_cases h1 : expField x = 2047 <;> by_cases h2 : fracField x = 0 <;> simp [h1, h2]

end Sys2Proof.Machine
end

