-- ==== Sys2Proof/Laws/PerInstr.lean ====
section
/-! SUPPORT. What the encoder puts in the fields of a command word, per instruction (R52, R53). -/

namespace Sys2Proof.Laws.Fields

/-- The word of `i` has the opcode of the map in `OPC`, and `RSV = 0` (R52, R53, R55). -/
def Statement (i : Instr) : Prop := opcField (encode i) = i.opcode ∧ rsvField (encode i) = 0

/-- A command word's fields are the ones it is made of. -/
theorem commandWord_fields (opc ctx : Nat) (h : opc < 256) :
    opcField (commandWord opc ctx) = opc ∧ rsvField (commandWord opc ctx) = 0 ∧ ctxField (commandWord opc ctx) = ctx % 16 := by
  have h1 : ctx % 2 ^ 4 < 16 := Nat.mod_lt _ (by norm_num)
  have h2 : (commandWord opc ctx).toNat = opc + 2 ^ 8 * (ctx % 2 ^ 4) := by
    rw [commandWord, BitVec.toNat_ofNat, Nat.mod_eq_of_lt]
    omega
  simp only [opcField, rsvField, ctxField, h2]
  omega

theorem nop : Statement .nop := by simp [Statement, encode, Instr.opcode, commandWord_fields]
theorem bitrev : Statement .bitrev := by simp [Statement, encode, Instr.opcode, commandWord_fields]
theorem fftFwd : Statement .fftFwd := by simp [Statement, encode, Instr.opcode, commandWord_fields]
theorem fftInv : Statement .fftInv := by simp [Statement, encode, Instr.opcode, commandWord_fields]
theorem fftMag : Statement .fftMag := by simp [Statement, encode, Instr.opcode, commandWord_fields]
theorem cmac : Statement .cmac := by simp [Statement, encode, Instr.opcode, commandWord_fields]
theorem convNew (ctx : Nat) : Statement (.convNew ctx) := by simp [Statement, encode, Instr.opcode, commandWord_fields]
theorem convSetir (ctx : Nat) : Statement (.convSetir ctx) := by simp [Statement, encode, Instr.opcode, commandWord_fields]
theorem convRun (ctx : Nat) : Statement (.convRun ctx) := by simp [Statement, encode, Instr.opcode, commandWord_fields]

end Sys2Proof.Laws.Fields
end

