-- ==== Sys2Proof/Tests/Slice0.lean ====
section
/-! SUPPORT. Tests: ill-formed terms, command words written out from the spec's fields, one-step tests whose expected values are the
vectors of 95_test_vectors.md, and for every obligation with hypotheses a concrete state that meets them. -/

set_option maxRecDepth 8000

namespace Sys2Proof.Tests

open Sys2Proof.Machine Sys2Proof.Claims

/-! Well-formedness: context indices that do not fit `CTX[11:8]`. -/

theorem test_wellFormed_convNew_refused : (Instr.convNew 16).wellFormed = false := by decide
theorem test_wellFormed_convSetir_refused : (Instr.convSetir 16).wellFormed = false := by decide
theorem test_wellFormed_convRun_refused : (Instr.convRun 4096).wellFormed = false := by decide
theorem test_wellFormed_convRun_accepted : (Instr.convRun 15).wellFormed = true := by decide

/-! Decoding: words written bit by bit from R52 and R53. -/

theorem test_decode_nop : decode 0b00000000000000000000_0000_00000000 = .ok .nop := by decide
theorem test_decode_bitrev : decode 0b00000000000000000000_0000_00000001 = .ok .bitrev := by decide
theorem test_decode_fftFwd : decode 0b00000000000000000000_0000_00000010 = .ok .fftFwd := by decide
theorem test_decode_fftInv : decode 0b00000000000000000000_0000_00000011 = .ok .fftInv := by decide
theorem test_decode_fftMag : decode 0b00000000000000000000_0000_00000100 = .ok .fftMag := by decide
theorem test_decode_cmac : decode 0b00000000000000000000_0000_00000101 = .ok .cmac := by decide
theorem test_decode_convNew : decode 0b00000000000000000000_1010_00010000 = .ok (.convNew 10) := by decide
theorem test_decode_convSetir : decode 0b00000000000000000000_0001_00010001 = .ok (.convSetir 1) := by decide
theorem test_decode_convRun : decode 0b00000000000000000000_1111_00010010 = .ok (.convRun 15) := by decide
theorem test_decode_reserved_bit : decode 0b00000000000000000001_0000_00000000 = .error .reservedBits := by decide
theorem test_decode_nop_with_context : decode 0b00000000000000000000_0001_00000000 = .error .ctxNotZero := by decide
theorem test_decode_gap : decode 0x00000006 = .error .unassignedOpcode ∧ decode 0x0000000F = .error .unassignedOpcode ∧
    decode 0x00000013 = .error .unassignedOpcode ∧ decode 0x000000FF = .error .unassignedOpcode := by decide
theorem test_decode_bytes_little_endian : decodeBytes [0x12, 0x01, 0x00, 0x00, 0xAA] = .ok (.convRun 1, [0xAA]) := by decide
theorem test_decodeTableWord_convSetir : decodeTableWord 32 0x211 = some (.convSetir 2) := by decide

/-! The device of the tests: the parameters of the programs of 95_test_vectors.md, `TW_REF(32, k)` of its section 2.1, `HYPOT_REF`, and
`MARKER_RESIDUAL = false`. -/

/-- `NMAX = 256`, `NCTX = 2`, `MMAX = 11`, `KMAX = 33`, `DMEM_WORDS = 64`. -/
def caps : Caps := { nmaxLog2 := 8, nctxLast := 1, mmax := 11, kmax := 33, dmemLast := 63 }

/-- The pairs `(c, s)` of `TW_REF(32, k)`. -/
def rom32 : List (F64 × F64) :=
  [(0x3FF0000000000000, 0x0000000000000000), (0x3FEF6297CFF75CB0, 0x3FC8F8B83C69A60B), (0x3FED906BCF328D46, 0x3FD87DE2A6AEA963),
    (0x3FEA9B66290EA1A3, 0x3FE1C73B39AE68C8), (0x3FE6A09E667F3BCD, 0x3FE6A09E667F3BCD), (0x3FE1C73B39AE68C8, 0x3FEA9B66290EA1A3),
    (0x3FD87DE2A6AEA963, 0x3FED906BCF328D46), (0x3FC8F8B83C69A60B, 0x3FEF6297CFF75CB0)] ++
  [(0x0000000000000000, 0x3FF0000000000000), (0xBFC8F8B83C69A60B, 0x3FEF6297CFF75CB0), (0xBFD87DE2A6AEA963, 0x3FED906BCF328D46),
    (0xBFE1C73B39AE68C8, 0x3FEA9B66290EA1A3), (0xBFE6A09E667F3BCD, 0x3FE6A09E667F3BCD), (0xBFEA9B66290EA1A3, 0x3FE1C73B39AE68C8),
    (0xBFED906BCF328D46, 0x3FD87DE2A6AEA963), (0xBFEF6297CFF75CB0, 0x3FC8F8B83C69A60B)]

/-- The units of the tests. -/
def units : Units :=
  { tw := fun n k => let p := rom32.getD (k * (32 / n)) (0, 0); { c := p.1, s := p.2 }
    hypot := hypotRef, markerResidual := false, draw := fun _ _ => 0x123456789ABCDEF0 }

/-- `-n` as a binary64 value. -/
def neg64 (n : Nat) : F64 := fneg (f64 n)

/-- A busy state with a latched command, its arguments, a data memory that holds `xs` from word 0 on, and context 0. -/
def busy (cmd : Word) (args : Vector Word 5) (xs : List F64) (c : Context) : State :=
  { State.reset with
    caps := caps
    status := { busy := true, err := .addressRange, undef := false, ovr := false }
    cmd := cmd
    args := args
    ctxs := (Vector.replicate 16 Context.blank).set 0 c
    dmem := storeR [] 0 xs }

/-- The error a step reports, when it answers a next state. -/
def errOf : Answer → Option Err
  | .next t => some t.status.err
  | .fault _ => none
  | .refused _ => none

/-- The real buffer a step leaves at `base`. -/
def wordsOf (base n : Nat) : Answer → Option (List F64)
  | .next t => loadR t.dmem base n
  | .fault _ => none
  | .refused _ => none

/-- What a step leaves of context 0. -/
def ctxOf {α : Type} (f : Context → α) : Answer → Option α
  | .next t => some (f (t.ctx 0))
  | .fault _ => none
  | .refused _ => none

/-- A context with `B = 2`, `F = 8`, one segment of the IR `[1]`, one sample into its block. -/
def midBlock : Context :=
  { configured := true, B := 2, F := 8, SEG := 6, M := 1, K := 3, STEP := 3, channel := 0, numChannels := 1
    inputBuf := oneF64 :: List.replicate 7 posZero, outputBuf := List.replicate 8 zeroC, tempBuf := List.replicate 8 zeroC
    overlapBuf := List.replicate 8 posZero, inputSegments := List.replicate 3 (List.replicate 8 zeroC)
    impulseSegments := [List.replicate 8 { re := oneF64, im := posZero }], inputPos := 1, inputSegmentPos := 2 }

/-- The same at the start of its block. -/
def atBoundary : Context := { midBlock with inputBuf := List.replicate 8 posZero, inputPos := 0 }

/-! One-step tests. -/

theorem test_nop_clears_err : errOf (step (busy 0x00000000 #v[0, 0, 0, 0, 0] [] .blank)) = some .ok := by decide +kernel
theorem test_illegal_words : errOf (step (busy 0x00000100 #v[8, 0, 1, 0, 4] [] .blank)) = some .illegalCommand ∧
    errOf (step (busy 0x80000000 #v[8, 0, 1, 0, 4] [] .blank)) = some .illegalCommand ∧
    errOf (step (busy 0x00000210 #v[8, 0, 1, 0, 4] [] .blank)) = some .illegalCommand := by decide +kernel

theorem test_bitrev_reorder : reorder [1, 2, 3, 4, 5, 6, 7, 8] = [1, 5, 3, 7, 2, 6, 4, 8] := by decide +kernel
theorem test_bitrev_moves_bits : wordsOf 0 8 (step (busy 0x1 #v[0, 4, 0, 0, 0] [10, 11, 0x7FF0000000000123, 0x8000000000000000, 14, 15, 16, 17]
    .blank)) = some [10, 11, 14, 15, 0x7FF0000000000123, 0x8000000000000000, 16, 17] := by decide +kernel

theorem test_fftFwd_four : wordsOf 0 8 (fftFwd units (busy 0x2 #v[0, 4, 0, 0, 0]
    [f64 1, 0, f64 2, 0, f64 3, 0, f64 4, 0] .blank)) =
    some [f64 10, 0, neg64 2, f64 2, neg64 2, 0, neg64 2, neg64 2] := by decide +kernel
theorem test_fftFwd_two_is_left_alone : wordsOf 0 4 (step (busy 0x2 #v[0, 2, 0, 0, 0] [1, 2, 3, 4] .blank)) = some [1, 2, 3, 4] ∧
    errOf (step (busy 0x2 #v[0xFFFFFFFF, 2, 0, 0, 0] [] .blank)) = some .ok := by decide +kernel

theorem test_fftInv_four : wordsOf 0 8 (fftInv units (busy 0x3 #v[0, 4, 0, 0, 0]
    [f64 10, 0, neg64 2, f64 2, neg64 2, 0, neg64 2, neg64 2] .blank)) =
    some [f64 1, 0, f64 2, 0, f64 3, 0, f64 4, 0] := by decide +kernel
theorem test_fftInv_two_halves : wordsOf 0 4 (step (busy 0x3 #v[0, 2, 0, 0, 0] [f64 1, f64 2, f64 3, f64 4] .blank)) =
    some [0x3FE0000000000000, 0, 0x3FF8000000000000, 0] := by decide +kernel

theorem test_fftMag_scales : wordsOf 8 4 (fftMag units (busy 0x4 #v[8, 4, 0, 4, 0]
    [f64 3, f64 4, 0, 0x8000000000000000, neg64 5, f64 12, posInf, 0x7FF8000000000001] .blank)) =
    some [0x3FF4000000000000, 0, 0x400A000000000000, posInf] := by decide +kernel
theorem test_fftMag_length_mismatch : errOf (step (busy 0x4 #v[0, 3, 8, 4, 0] [] .blank)) = some .lengthMismatch := by decide +kernel

theorem test_cmac_accumulates : wordsOf 0 2 (step (busy 0x5 #v[0, 2, 4, 1, 0] [f64 1, f64 1, f64 1, f64 2, f64 3, f64 4] .blank)) =
    some [neg64 4, f64 11] := by decide +kernel
theorem test_cmac_aliased : wordsOf 0 4 (step (busy 0x5 #v[0, 0, 4, 2, 0]
    [f64 1, f64 1, f64 2, 0, 0, f64 1, 0x3FE0000000000000, 0x3FE0000000000000] .blank)) = some [0, f64 2, f64 3, f64 1] := by
  decide +kernel

theorem test_convNew_plans : ctxOf (fun c => [c.B, c.F, c.SEG, c.M, c.K, c.STEP])
    (step (busy 0x10 #v[5, 0, 1, 0, 4] [0, 0, 0, 0] .blank)) = some [8, 32, 24, 1, 3, 3] := by decide +kernel
theorem test_convNew_errors : ∀ p ∈ [((#v[0, 0, 1, 0, 1] : Vector Word 5), Err.invalidBlockSize), (#v[64, 0, 1, 0, 0], .emptyImpulseResponse),
      (#v[8, 2, 2, 0, 4], .invalidChannel), (#v[8, 0xFFFFFFFF, 1, 0, 4], .invalidChannel), (#v[8, 0, 0, 0, 4], .invalidChannel),
      (#v[8, 0, 1, 0, 265], .capacityExceeded), (#v[8, 0, 1, 61, 4], .addressRange)],
    errOf (step (busy 0x10 p.1 [] midBlock)) = some p.2 ∧ ctxOf id (step (busy 0x10 p.1 [] midBlock)) = some midBlock := by
  decide +kernel

theorem test_convSetir_mid_block : ctxOf (fun c => (c.M, c.inputPos, c.inputSegmentPos, c.inputBuf)) (step (busy 0x11 #v[0, 0, 0, 0, 6]
    (List.replicate 6 0) midBlock)) = some (2, 0, 0, midBlock.inputBuf) := by decide +kernel
theorem test_convSetir_marks_undef : (match step (busy 0x11 #v[0, 0, 0, 0, 6] (List.replicate 6 0) midBlock) with
    | .next t => t.status.undef && t.status.err == .ok | .fault _ => false | .refused _ => false) = true := by decide +kernel

/-- Block size 1, IR `[1, 2, 3, 4]`, input `[1, 0, 0, 0, 0, 0]`: the impulse response comes out. -/
theorem test_convRun_unit_blocks : wordsOf 6 6 (convRun units 0 (busy 0x12 #v[6, 6, 0, 6, 6] [f64 1, 0, 0, 0, 0, 0]
    (newContext units (busy 0x10 #v[1, 0, 1, 0, 4] [] .blank) [f64 1, f64 2, f64 3, f64 4]))) =
    some [f64 1, f64 2, f64 3, f64 4, 0, 0] := by decide +kernel
theorem test_convRun_positions : ctxOf (fun c => (c.inputPos, c.inputSegmentPos)) (step (busy 0x12 #v[4, 1, 0, 2, 4] [0, 0] midBlock)) =
    some (1, 0) := by decide +kernel

theorem test_unwritten_word_faults : step (busy 0x1 #v[0, 1, 0, 0, 0] [1] .blank) = .fault .unwrittenWord := by rfl

/-! Numbers. -/

theorem test_cmul_no_recovery : (cmul (fun _ => 0) { re := posInf, im := 0 } { re := 0, im := f64 1 }).im = posInf ∧
    isNaN (cmul (fun _ => 0) { re := posInf, im := 0 } { re := 0, im := f64 1 }).re = true := by decide +kernel
theorem test_subnormal_ties : fmul 0 0x3FF8000000000000 0x0000000000000002 = 0x0000000000000003 ∧
    fmul 0 0x0000000000000001 0x3FE0000000000000 = 0 ∧ fdiv 0 (f64 1) (f64 3) = 0x3FD5555555555555 := by decide +kernel
theorem test_hypot_ref : hypotRef (f64 1) (f64 1) = 0x3FF6A09E667F3BCD ∧ hypotRef 0x0000000000000001 0x0000000000000001 = 1 ∧
    hypotRef (f64 3) (f64 4) = f64 5 := by decide +kernel
theorem test_reverseBits : reverseBits 2 8 = 64 ∧ reverseBits 1 16 = 32768 ∧ reverseBits 6 3 = 3 ∧ reverseBits 0 0 = 0 := by decide

/-! Witnesses: for every obligation with hypotheses, a state and operands that meet all of them. -/

theorem runsNext_busy (cmd : Word) (args : Vector Word 5) (xs : List F64) (c : Context) : RunsNext (busy cmd args xs c) :=
  ⟨rfl, fun _ _ h => by cases h⟩

theorem noneFails_of {checks : List (Prop × Err)} (h : ∀ q ∈ checks, ¬ q.1) : NoneFails checks := h

theorem midBlock_shaped : midBlock.Shaped caps where
  blockSize := by decide
  fftSize := by decide
  segLength := by decide
  fitsEngine := by decide
  someSegment := by decide
  fitsSegments := by decide
  ringLength := by decide
  fitsRing := by decide
  ringStride := by decide
  lane := by decide
  inputLength := by decide
  outputLength := by decide
  tempLength := by decide
  overlapLength := by decide
  overlapUpper := fun t h1 h2 => by
    have h3 : 6 ≤ t := h1
    have h4 : t < 8 := h2
    interval_cases t <;> rfl
  ringSegments := by decide
  ringSegmentLength := fun v hv => by rw [List.eq_of_mem_replicate hv]; rfl
  irSegments := by decide
  irSegmentLength := fun v hv => by rw [List.mem_singleton.1 hv]; rfl
  position := by decide
  ringPosition := by decide

theorem atBoundary_shaped : atBoundary.Shaped caps :=
  { midBlock_shaped with inputLength := by decide, position := by decide }

theorem busy_ctx_other (cmd : Word) (args : Vector Word 5) (xs : List F64) (c : Context) (x : Nat) (h : x ≠ 0) :
    (busy cmd args xs c).ctx x = Context.blank := by
  by_cases h1 : x < 16
  · interval_cases x <;> first | rfl | exact absurd rfl h
  · unfold State.ctx
    rw [Vector.getElem?_eq_none (by omega)]
    rfl

/-- A state with a context one sample into its block meets the invariant. -/
theorem busy_inv (cmd : Word) (args : Vector Word 5) : (busy cmd args [oneF64, posZero] midBlock).Inv where
  memory := show Memory.wf (storeR [] 0 [oneF64, posZero]) = true by decide +kernel
  bounded := fun a h => by
    show a < 8 * (63 + 1)
    by_contra hlt
    have : Memory.get (storeR [] 0 [oneF64, posZero]) a = none := by
      simp only [storeR]
      rw [Memory.get_write, if_neg (by omega), Memory.get_write, if_neg (by omega)]
      rfl
    have h' : (Memory.get (storeR [] 0 [oneF64, posZero]) a).isSome = true := h
    rw [this] at h'
    cases h'
  parameters := show caps.legal = true by decide
  exist := fun x h => by
    by_cases hx : x = 0
    · subst hx; show 0 < caps.nctx; decide
    · rw [busy_ctx_other _ _ _ _ _ hx] at h; cases h
  shaped := fun x h => by
    by_cases hx : x = 0
    · subst hx; exact midBlock_shaped
    · rw [busy_ctx_other _ _ _ _ _ hx] at h; cases h
  padded := fun _ x h => by
    by_cases hx : x = 0
    · subst hx
      intro t h1 h2
      have h3 : 1 ≤ t := h1
      have h4 : t < 8 := h2
      interval_cases t <;> rfl
    · rw [busy_ctx_other _ _ _ _ _ hx] at h; cases h
  resetIdle := fun h => by cases h

theorem witness_DecodeEncodeRoundTrip : (Instr.convNew 15).wellFormed = true ∧ (Instr.cmac).wellFormed = true := by decide
theorem witness_DecodedWordIsItsEncoding : decode 0x00000F11 = .ok (.convSetir 15) ∧ decode 0 = .ok .nop := by decide

/-- Each clause of R58, at the ends of its ranges. -/
theorem witness_IllegalWordRaisesIllegalCommand :
    (∀ w ∈ [(0x00001000 : Word), 0x80000000, 0x00000006, 0x0000000F, 0x00000013, 0x000000FF, 0x00000100, 0x00000F05, 0x00000210,
      0x00000F12], IllegalWord caps w) ∧ RunsNext (busy 0x00000006 #v[0, 0, 0, 0, 0] [] .blank) := by
  refine ⟨fun w hw => ?_, runsNext_busy _ _ _ _⟩
  simp only [List.mem_cons, List.not_mem_nil, or_false] at hw
  unfold IllegalWord
  rcases hw with rfl | rfl | rfl | rfl | rfl | rfl | rfl | rfl | rfl | rfl <;> decide

theorem witness_StepRunsTheLatchedCommand : RunsNext (busy 0x5 #v[0, 0, 0, 0, 0] [] .blank) ∧
    decode (busy 0x5 #v[0, 0, 0, 0, 0] [] .blank).cmd = .ok .cmac := ⟨runsNext_busy _ _ _ _, by decide⟩

/-- A state with one pending access. -/
def withAccess (s : State) (early : Bool) (a : Access) : State := { s with pending := [{ early := early, access := a }] }

theorem witness_StepMakesTheNextAccess :
    AccessNext (withAccess State.reset false (.regRead 4 32)) (.regRead 4 32) [] ∧
    AccessNext (withAccess (busy 0 #v[0, 0, 0, 0, 0] [] .blank) true (.regWrite 0 32 1)) (.regWrite 0 32 1) [] ∧
    State.reset.status.busy = false ∧ State.reset.pending = [] :=
  ⟨⟨false, rfl, fun h => by cases h⟩, ⟨true, rfl, fun _ => rfl⟩, rfl, rfl⟩

theorem witness_StepKeepsTheInvariant : (busy 0x12 #v[0, 0, 0, 1, 3] [oneF64, posZero] midBlock).Inv ∧
    (∃ t, step (busy 0x12 #v[0, 0, 0, 1, 3] [oneF64, posZero] midBlock) = .next t) ∧
    ∃ t, step (busy 0x11 #v[0, 0, 0, 0, 1] [oneF64, posZero] midBlock) = .next t :=
  ⟨busy_inv _ _, ⟨_, rfl⟩, ⟨_, rfl⟩⟩

theorem witness_StickyFlagsStay : ∃ s t, step s = .next t ∧ s.status.undef = true ∧ s.status.ovr = true :=
  ⟨{ State.reset with status := { busy := true, err := .ok, undef := true, ovr := true } }, _, rfl, rfl, rfl⟩

theorem witness_OnlyPartialBlockSwapSetsUndef : ∃ t, step (busy 0x11 #v[0, 0, 0, 0, 1] [oneF64] midBlock) = .next t ∧
    (busy 0x11 #v[0, 0, 0, 0, 1] [oneF64] midBlock).status.undef = false ∧ t.status.undef = true := ⟨_, rfl, rfl, rfl⟩

theorem witness_CapabilityRegistersAreConstant : ∃ t, step (withAccess State.reset false (.regWrite 0x1C 32 5)) = .next t := ⟨_, rfl⟩

/-- Errors that a first check and that a later check reports; no check; an illegal word. -/
theorem witness_FirstFailingCheckIsReported :
    FirstFailing (checksOf .fftMag (busy 0x4 #v[0, 3, 0, 4, 0] [] .blank)) .lengthMismatch ∧
    FirstFailing (checksOf .fftMag (busy 0x4 #v[61, 4, 0, 4, 0] [] .blank)) .addressRange ∧
    FirstFailing (checksOf (.convRun 1) (busy 0x112 #v[0, 0, 0, 0, 1] [] midBlock)) .notConfigured ∧
    FirstFailing (checksOf (.convNew 0) (busy 0x10 #v[1, 0, 1, 64, 1] [] midBlock)) .addressRange ∧
    NoneFails (checksOf .fftMag (busy 0x4 #v[60, 4, 0, 4, 0] [] .blank)) ∧
    IllegalWord caps (busy 0x6 #v[0, 0, 0, 0, 0] [] .blank).cmd := by
  refine ⟨⟨[], _, _, rfl, by decide, by simp⟩, ⟨[_], _, _, rfl, by unfold Inside; decide, ?_⟩, ⟨[_], _, _, rfl, by decide, ?_⟩,
    ⟨[_, _, _, _, _], _, _, rfl, by unfold Inside; decide, ?_⟩, ?_, ?_⟩
  · intro q hq; rw [List.mem_singleton.1 hq]; decide
  · intro q hq; rw [List.mem_singleton.1 hq]; decide
  · simp only [List.mem_cons, List.not_mem_nil, or_false, forall_eq_or_imp, forall_eq]; decide
  · intro q hq
    simp only [checksOf, List.mem_cons, List.not_mem_nil, or_false] at hq
    rcases hq with rfl | rfl
    · decide
    · unfold Inside; decide
  · unfold IllegalWord; decide

theorem witness_FailingCommandsChangeOnlyErr : ∃ t, RunsNext (busy 0x1 #v[0, 3, 0, 0, 0] [] .blank) ∧
    step (busy 0x1 #v[0, 3, 0, 0, 0] [] .blank) = .next t ∧ t.status.err ≠ .ok := ⟨_, runsNext_busy _ _ _ _, rfl, by decide⟩

/-- Every command answers a next state somewhere without an error. -/
theorem witness_CommandsLeaveTheRegisters :
    (∃ t, exec .nop (busy 0x0 #v[0, 0, 0, 0, 0] [] .blank) = .next t) ∧
    (∃ t, exec .bitrev (busy 0x1 #v[0, 1, 0, 0, 0] [0, 0] .blank) = .next t ∧ t.status.err = .ok) ∧
    (∃ t, exec .fftFwd (busy 0x2 #v[0, 1, 0, 0, 0] [0, 0] .blank) = .next t ∧ t.status.err = .ok) ∧
    (∃ t, exec .fftInv (busy 0x3 #v[0, 1, 0, 0, 0] [0, 0] .blank) = .next t ∧ t.status.err = .ok) ∧
    (∃ t, exec .fftMag (busy 0x4 #v[0, 1, 0, 1, 0] [0, 0] .blank) = .next t ∧ t.status.err = .ok) ∧
    (∃ t, exec .cmac (busy 0x5 #v[0, 0, 0, 1, 0] [0, 0] .blank) = .next t ∧ t.status.err = .ok) ∧
    (∃ t, exec (.convNew 1) (busy 0x110 #v[1, 0, 1, 0, 1] [0] .blank) = .next t ∧ t.status.err = .ok) ∧
    (∃ t, exec (.convSetir 0) (busy 0x11 #v[0, 0, 0, 0, 1] [0] midBlock) = .next t ∧ t.status.err = .ok) ∧
    (∃ t, exec (.convRun 0) (busy 0x12 #v[0, 1, 0, 1, 1] [0] midBlock) = .next t ∧ t.status.err = .ok) :=
  ⟨⟨_, rfl⟩, ⟨_, rfl, rfl⟩, ⟨_, rfl, rfl⟩, ⟨_, rfl, rfl⟩, ⟨_, rfl, rfl⟩, ⟨_, rfl, rfl⟩, ⟨_, rfl, rfl⟩, ⟨_, rfl, rfl⟩, ⟨_, rfl, rfl⟩⟩

theorem witness_CommandsStoreOnlyTheirBuffer : contextOf (.convRun 0) ≠ some 1 ∧
    (∃ t, exec (.convRun 0) (busy 0x12 #v[0, 1, 0, 1, 1] [0] midBlock) = .next t) ∧ ∃ t, exec .fftFwd (busy 0x2 #v[7, 2, 0, 0, 0] []
      .blank) = .next t := ⟨by decide, ⟨_, rfl⟩, ⟨_, rfl⟩⟩

theorem witness_CommandsIgnoreTheFlags : (∃ t, exec (.convSetir 0) (busy 0x11 #v[0, 0, 0, 0, 1] [0] midBlock) = .next t ∧
    (busy 0x11 #v[0, 0, 0, 0, 1] [0] midBlock).status.undef = false) ∧ ∃ f, exec .bitrev (busy 0x1 #v[0, 1, 0, 0, 0] [0] .blank) = .fault f :=
  ⟨⟨_, rfl, rfl⟩, ⟨_, rfl⟩⟩

theorem witness_NopOnlyClearsErr : RunsNext (busy 0x00000100 #v[0, 0, 0, 0, 0] [] .blank) ∧
    opcField (busy 0x00000100 #v[0, 0, 0, 0, 0] [] .blank).cmd = 0 ∧ ctxField (busy 0x00000100 #v[0, 0, 0, 0, 0] [] .blank).cmd ≠ 0 ∧
    opcField (0x00001000 : Word) = 0 ∧ rsvField (0x00001000 : Word) ≠ 0 := ⟨runsNext_busy _ _ _ _, by decide, by decide, by decide, by decide⟩

/-- The hypotheses of `ReportsItsErrors`, for every command: an illegal word with its opcode, and a first failing check. -/
theorem witness_ReportsItsErrors_illegal : ∀ i ∈ [Instr.bitrev, .fftFwd, .fftInv, .fftMag, .cmac, .convNew 0, .convSetir 0, .convRun 0],
    RunsNext (busy (BitVec.ofNat 32 (0x1000 + i.opcode)) #v[0, 0, 0, 0, 0] [] .blank) ∧
    opcField (BitVec.ofNat 32 (0x1000 + i.opcode)) = i.opcode ∧ IllegalWord caps (BitVec.ofNat 32 (0x1000 + i.opcode)) := by
  intro i hi
  refine ⟨runsNext_busy _ _ _ _, ?_⟩
  simp only [List.mem_cons, List.not_mem_nil, or_false] at hi
  unfold IllegalWord
  rcases hi with rfl | rfl | rfl | rfl | rfl | rfl | rfl | rfl <;> decide

theorem witness_ReportsItsErrors_checks :
    FirstFailing (checksOf .bitrev (busy 0x1 #v[0, 0, 0, 0, 0] [] .blank)) .invalidLength ∧
    FirstFailing (checksOf .fftFwd (busy 0x2 #v[0, 0, 0, 0, 0] [] .blank)) .invalidLength ∧
    FirstFailing (checksOf .fftInv (busy 0x3 #v[0, 0, 0, 0, 0] [] .blank)) .invalidLength ∧
    FirstFailing (checksOf .cmac (busy 0x5 #v[63, 0, 0, 1, 0] [] .blank)) .addressRange ∧
    FirstFailing (checksOf (.convSetir 0) (busy 0x11 #v[0, 0, 0, 0, 0] [] .blank)) .notConfigured := by
  have h0 : ¬ ∃ k, (0 : Nat) = 2 ^ k := fun ⟨k, h⟩ => absurd h (Nat.two_pow_pos k).ne
  refine ⟨⟨[], _, _, rfl, h0, by simp⟩, ⟨[], _, _, rfl, ⟨by decide, h0⟩, by simp⟩, ⟨[], _, _, rfl, ⟨by decide, h0⟩, by simp⟩,
    ⟨[], _, _, rfl, by unfold Inside; decide, by simp⟩, ⟨[_], _, _, rfl, by decide, ?_⟩⟩
  intro q hq; rw [List.mem_singleton.1 hq]; decide

/-- A transform state: `n = 4` at the end of the data memory, so that its buffer just fits. -/
def lastFour (cmd : Word) : State := { busy cmd #v[56, 4, 0, 0, 0] [] .blank with dmem := storeR [] 56 (List.replicate 8 oneF64) }

theorem lastFour_readable (cmd : Word) : Readable (lastFour cmd).dmem 56 8 := by
  show Readable (storeR [] 56 (List.replicate 8 oneF64)) 56 8
  unfold Readable
  decide +kernel

theorem lastFour_inside (cmd : Word) : Inside (lastFour cmd) 56 8 := .inr (show 56 + 8 ≤ caps.dmemWords by decide)

theorem lastFour_loadC (cmd : Word) : ∃ v, loadC (lastFour cmd).dmem 56 4 = some v :=
  Option.isSome_iff_exists.1 (loadC_isSome.2 fun t ht => lastFour_readable cmd _ (by omega) (by omega))

theorem lastFour_small (cmd : Word) : (lastFour cmd).arg 1 ≤ (lastFour cmd).caps.nmax := show 4 ≤ caps.nmax by decide

theorem witness_BitrevMovesEveryElement : (lastFour 0x1).arg 1 = 2 ^ 2 ∧ (lastFour 0x1).arg 1 ≤ (lastFour 0x1).caps.nmax ∧
    Inside (lastFour 0x1) ((lastFour 0x1).arg 0) (2 * (lastFour 0x1).arg 1) ∧
    Readable (lastFour 0x1).dmem ((lastFour 0x1).arg 0) (2 * (lastFour 0x1).arg 1) ∧
    FirstFailing (checksOf .bitrev (busy 0x1 #v[57, 4, 0, 0, 0] [] .blank)) .addressRange := by
  refine ⟨rfl, lastFour_small _, lastFour_inside _, lastFour_readable _, [_, _], _, _, rfl, by unfold Inside; decide, ?_⟩
  intro q hq
  simp only [List.mem_cons, List.not_mem_nil, or_false] at hq
  rcases hq with rfl | rfl
  · exact fun h => h ⟨2, rfl⟩
  · decide

theorem witness_FftFwdStoresTheTransform : (∃ k, (lastFour 0x2).arg 1 = 2 ^ k) ∧ (lastFour 0x2).arg 1 ≠ 2 ∧
    (lastFour 0x2).arg 1 ≤ (lastFour 0x2).caps.nmax ∧ Inside (lastFour 0x2) ((lastFour 0x2).arg 0) (2 * (lastFour 0x2).arg 1) ∧
    (∃ v, loadC (lastFour 0x2).dmem ((lastFour 0x2).arg 0) ((lastFour 0x2).arg 1) = some v) ∧
    (busy 0x2 #v[0xFFFFFFFF, 2, 0, 0, 0] [] .blank).arg 1 = 2 ∧
    FirstFailing (checksOf .fftFwd (busy 0x2 #v[0, 0, 0, 0, 0] [] .blank)) .invalidLength := by
  refine ⟨⟨2, rfl⟩, by decide, lastFour_small _, lastFour_inside _, lastFour_loadC _, rfl, [], _, _, rfl, ⟨by decide, ?_⟩, by simp⟩
  rintro ⟨k, hk⟩
  have h0 : (0 : Nat) = 2 ^ k := hk
  have := Nat.two_pow_pos k
  omega

theorem witness_FftInvStoresScaledRealParts : (∃ k, (lastFour 0x3).arg 1 = 2 ^ k) ∧
    (lastFour 0x3).arg 1 ≤ (lastFour 0x3).caps.nmax ∧ Inside (lastFour 0x3) ((lastFour 0x3).arg 0) (2 * (lastFour 0x3).arg 1) ∧
    (∃ v, loadC (lastFour 0x3).dmem ((lastFour 0x3).arg 0) ((lastFour 0x3).arg 1) = some v) ∧
    FirstFailing (checksOf .fftInv (busy 0x3 #v[0, 512, 0, 0, 0] [] .blank)) .capacityExceeded := by
  refine ⟨⟨2, rfl⟩, lastFour_small _, lastFour_inside _, lastFour_loadC _, [_], _, _, rfl, by decide, ?_⟩
  intro q hq
  rw [List.mem_singleton.1 hq]
  exact fun h => h.2 ⟨9, rfl⟩

/-- Two complex elements from word 0 on, with the destination at `dest`. -/
def twoMags (dest : Word) : State := busy 0x4 #v[dest, 2, 0, 2, 0] [oneF64, posZero, posZero, oneF64] .blank

theorem twoMags_readable (dest : Word) : Readable (twoMags dest).dmem 0 4 := by
  show Readable (storeR [] 0 [oneF64, posZero, posZero, oneF64]) 0 4
  unfold Readable
  decide +kernel

theorem twoMags_inside (dest : Word) : Inside (twoMags dest) 0 4 := .inr (show 0 + 4 ≤ caps.dmemWords by decide)

theorem witness_FftMagGoesInAscendingOrder : (twoMags 1).arg 1 = (twoMags 1).arg 3 ∧ Inside (twoMags 1) ((twoMags 1).arg 0) ((twoMags 1).arg 1) ∧
    Inside (twoMags 1) ((twoMags 1).arg 2) (2 * (twoMags 1).arg 3) ∧
    Readable (twoMags 1).dmem ((twoMags 1).arg 2) (2 * (twoMags 1).arg 3) :=
  ⟨rfl, .inr (show 1 + 2 ≤ caps.dmemWords by decide), twoMags_inside _, twoMags_readable _⟩

/-- In place, and with the destination just past the source. -/
theorem witness_FftMagWorksInPlace :
    ((twoMags 0).arg 1 = (twoMags 0).arg 3 ∧ Inside (twoMags 0) ((twoMags 0).arg 0) ((twoMags 0).arg 1) ∧
      Inside (twoMags 0) ((twoMags 0).arg 2) (2 * (twoMags 0).arg 3) ∧
      Readable (twoMags 0).dmem ((twoMags 0).arg 2) (2 * (twoMags 0).arg 3) ∧ (twoMags 0).arg 0 ≤ (twoMags 0).arg 2) ∧
    ((twoMags 4).arg 1 = (twoMags 4).arg 3 ∧ Inside (twoMags 4) ((twoMags 4).arg 0) ((twoMags 4).arg 1) ∧
      Inside (twoMags 4) ((twoMags 4).arg 2) (2 * (twoMags 4).arg 3) ∧
      Readable (twoMags 4).dmem ((twoMags 4).arg 2) (2 * (twoMags 4).arg 3) ∧
      (twoMags 4).arg 2 + 2 * (twoMags 4).arg 3 ≤ (twoMags 4).arg 0) :=
  ⟨⟨rfl, .inr (show 0 + 2 ≤ caps.dmemWords by decide), twoMags_inside _, twoMags_readable _, le_refl _⟩,
    rfl, .inr (show 4 + 2 ≤ caps.dmemWords by decide), twoMags_inside _, twoMags_readable _, le_refl _⟩

/-- `CMAC` of two elements with the accumulator aliased to its first factor. -/
def twoMacs : State := busy 0x5 #v[0, 0, 0, 2, 0] [oneF64, posZero, posZero, oneF64] .blank

theorem witness_CmacAccumulatesInAscendingOrder : Inside twoMacs (twoMacs.arg 0) (2 * twoMacs.arg 3) ∧
    Inside twoMacs (twoMacs.arg 1) (2 * twoMacs.arg 3) ∧ Inside twoMacs (twoMacs.arg 2) (2 * twoMacs.arg 3) ∧
    Readable twoMacs.dmem (twoMacs.arg 0) (2 * twoMacs.arg 3) ∧ Readable twoMacs.dmem (twoMacs.arg 1) (2 * twoMacs.arg 3) ∧
    Readable twoMacs.dmem (twoMacs.arg 2) (2 * twoMacs.arg 3) :=
  ⟨twoMags_inside 0, twoMags_inside 0, twoMags_inside 0, twoMags_readable 0, twoMags_readable 0, twoMags_readable 0⟩

theorem not_readable_nil {n : Nat} (h : 0 < n) (base : Nat) : ¬ Readable [] base n := fun hr => by
  have h1 := hr base (le_refl _) (by omega)
  have h2 : Memory.read [] base = none := by
    unfold Memory.read
    simp [Memory.getBytes, Memory.get]
  rw [h2] at h1
  cases h1

/-- Each clause: checks that pass, and a buffer of which no word holds a value. -/
theorem witness_UnwrittenWordsFault :
    (NoneFails (checksOf .bitrev (busy 0x1 #v[0, 1, 0, 0, 0] [] .blank)) ∧ ¬ Readable [] 0 2) ∧
    NoneFails (checksOf .fftFwd (busy 0x2 #v[0, 1, 0, 0, 0] [] .blank)) ∧
    NoneFails (checksOf .fftInv (busy 0x3 #v[0, 2, 0, 0, 0] [] .blank)) ∧
    NoneFails (checksOf .fftMag (busy 0x4 #v[1, 1, 1, 1, 0] [] .blank)) ∧
    NoneFails (checksOf .cmac (busy 0x5 #v[2, 2, 4, 1, 0] [] .blank)) ∧
    NoneFails (checksOf (.convNew 1) (busy 0x110 #v[1, 0, 1, 0, 1] [] .blank)) ∧
    NoneFails (checksOf (.convSetir 0) (busy 0x11 #v[0, 0, 0, 0, 1] [] midBlock)) ∧
    (NoneFails (checksOf (.convRun 0) (busy 0x12 #v[1, 1, 1, 1, 1] [] midBlock)) ∧ midBlock.Shaped caps ∧
      laneIndex midBlock 0 < 1) := by
  refine ⟨⟨?_, not_readable_nil (by decide) _⟩, ?_, ?_, ?_, ?_, ?_, ?_, ?_, midBlock_shaped, by decide⟩
  · intro q hq
    simp only [checksOf, List.mem_cons, List.not_mem_nil, or_false] at hq
    rcases hq with rfl | rfl | rfl
    · exact fun h => h ⟨0, rfl⟩
    · decide
    · unfold Inside; decide
  · intro q hq
    simp only [checksOf, List.mem_cons, List.not_mem_nil, or_false] at hq
    rcases hq with rfl | rfl | rfl
    · exact fun h => h.2 ⟨0, rfl⟩
    · decide
    · unfold Inside; decide
  · intro q hq
    simp only [checksOf, List.mem_cons, List.not_mem_nil, or_false] at hq
    rcases hq with rfl | rfl | rfl
    · exact fun h => h.1 rfl
    · decide
    · unfold Inside; decide
  all_goals
    intro q hq
    simp only [checksOf, List.mem_cons, List.not_mem_nil, or_false] at hq
    unfold Inside at hq
    rcases hq with rfl | rfl | rfl | rfl | rfl | rfl <;> decide

/-- A `CONV_NEW` that asks for blocks of 129 samples, on a device with `NMAX = 512`. -/
def bigBlock : State := { busy 0x10 #v[129, 0x7FFFFFFE, 0x7FFFFFFF, 63, 1] [] .blank with
  caps := { caps with nmaxLog2 := 9 }, dmem := storeR [] 63 [oneF64] }

/-- A `CONV_NEW` that asks for blocks of one sample. -/
def unitBlock : State := busy 0x110 #v[1, 0, 1, 0, 1] [oneF64] midBlock

/-- Small blocks and large blocks, at the least and the greatest channel. -/
theorem witness_ConvNewConfiguresTheContext :
    (1 < unitBlock.caps.nctx ∧ unitBlock.arg 0 ≠ 0 ∧ (∃ k, 1 = 2 ^ k) ∧ unitBlock.arg 0 ≤ 1 ∧ (∀ j, unitBlock.arg 0 ≤ 2 ^ j → 1 ≤ 2 ^ j) ∧
      0 ≤ unitBlock.argSigned 1 ∧ unitBlock.argSigned 1 < unitBlock.argSigned 2 ∧ unitBlock.arg 4 ≠ 0 ∧
      min (unitBlock.arg 4) 1920000 = 1 ∧ 1 / (4 - 1) + 1 = 1 ∧ 4 ≤ unitBlock.caps.nmax ∧ 1 ≤ unitBlock.caps.mmax.toNat ∧
      3 ≤ unitBlock.caps.kmax.toNat ∧ Inside unitBlock (unitBlock.arg 3) 1 ∧ loadR unitBlock.dmem (unitBlock.arg 3) 1 = some [oneF64]) ∧
    (0 < bigBlock.caps.nctx ∧ bigBlock.arg 0 ≠ 0 ∧ (∃ k, 256 = 2 ^ k) ∧ bigBlock.arg 0 ≤ 256 ∧
      (∀ j, bigBlock.arg 0 ≤ 2 ^ j → 256 ≤ 2 ^ j) ∧
      0 ≤ bigBlock.argSigned 1 ∧ bigBlock.argSigned 1 < bigBlock.argSigned 2 ∧ bigBlock.arg 4 ≠ 0 ∧
      min (bigBlock.arg 4) 1920000 = 1 ∧ 1 / (512 - 256) + 1 = 1 ∧ 512 ≤ bigBlock.caps.nmax ∧ 1 ≤ bigBlock.caps.mmax.toNat ∧
      1 ≤ bigBlock.caps.kmax.toNat ∧ Inside bigBlock (bigBlock.arg 3) 1 ∧ loadR bigBlock.dmem (bigBlock.arg 3) 1 = some [oneF64]) := by
  have h129 : ∀ j, 129 ≤ 2 ^ j → nextPowerOfTwo 129 ≤ 2 ^ j := fun j h => nextPowerOfTwo_le h
  refine ⟨⟨by decide, by decide, ⟨0, rfl⟩, by decide, fun j _ => Nat.one_le_two_pow, by decide, by decide, by decide, by decide, by decide,
    by decide, by decide, by decide, .inr (show 0 + 1 ≤ caps.dmemWords by decide), by decide +kernel⟩,
    by decide, by decide, ⟨8, rfl⟩, by decide, h129, by decide, by decide, by decide, by decide, by decide, by decide, by decide, by decide,
    .inr (show 63 + 1 ≤ caps.dmemWords by decide), by decide +kernel⟩

/-- At a block boundary and inside a block. -/
theorem witness_ConvSetirReplacesTheImpulseResponse :
    let s := busy 0x11 #v[0, 0, 0, 0, 1] [oneF64] midBlock
    0 < s.caps.nctx ∧ (s.ctx 0).configured = true ∧ s.arg 4 ≠ 0 ∧ min (s.arg 4) 1920000 = 1 ∧ 1 / (s.ctx 0).SEG + 1 = 1 ∧
      1 ≤ s.caps.mmax.toNat ∧ 3 ≤ s.caps.kmax.toNat ∧ Inside s (s.arg 3) 1 ∧ loadR s.dmem (s.arg 3) 1 = some [oneF64] ∧
      midBlock.inputPos ≠ 0 ∧ atBoundary.inputPos = 0 :=
  ⟨by decide, by decide, by decide, by decide, by decide, by decide, by decide, .inr (show 0 + 1 ≤ caps.dmemWords by decide),
    by decide +kernel, by decide, by decide⟩

/-- A `CONV_RUN` of four samples over three blocks, of which `in` holds one and `out` takes two. -/
def overBlocks : State := busy 0x12 #v[62, 2, 0, 1, 4] [oneF64] midBlock

theorem witness_ConvRunProcessesItsLane : 0 < overBlocks.caps.nctx ∧ (overBlocks.ctx 0).configured = true ∧
    (overBlocks.ctx 0).Shaped overBlocks.caps ∧ Inside overBlocks (overBlocks.arg 0) (overBlocks.arg 1) ∧
    Inside overBlocks (overBlocks.arg 2) (overBlocks.arg 3) ∧
    ∀ t, t < overBlocks.arg 4 → (overBlocks.ctx 0).channel + t * (overBlocks.ctx 0).numChannels < overBlocks.arg 3 →
      (overBlocks.dmem.read (overBlocks.arg 2 + ((overBlocks.ctx 0).channel + t * (overBlocks.ctx 0).numChannels))).isSome := by
  refine ⟨by decide, by decide, midBlock_shaped, .inr (show 62 + 2 ≤ caps.dmemWords by decide), .inr (show 0 + 1 ≤ caps.dmemWords by decide), ?_⟩
  intro t _ h
  have h0 : 0 + t * 1 < 1 := h
  have h1 : t = 0 := by omega
  subst h1
  decide +kernel

theorem convRun_noneFails (s : State) (h0 : 0 < s.caps.nctx) (h1 : (s.ctx 0).configured = true) (h2 : Inside s (s.arg 0) (s.arg 1))
    (h3 : Inside s (s.arg 2) (s.arg 3)) : NoneFails (checksOf (.convRun 0) s) := by
  intro q hq
  simp only [checksOf, List.mem_cons, List.not_mem_nil, or_false] at hq
  rcases hq with rfl | rfl | rfl
  · exact not_le.2 h0
  · simp only [h1]; decide
  · exact fun h => h ⟨h2, h3⟩

theorem witness_ConvRunOfNoSamples :
    NoneFails (checksOf (.convRun 0) (busy 0x12 #v[0xFFFFFFFF, 0, 0xFFFFFFFF, 0, 0] [] midBlock)) ∧
    (busy 0x12 #v[0xFFFFFFFF, 0, 0xFFFFFFFF, 0, 0] [] midBlock).arg 4 = 0 :=
  ⟨convRun_noneFails _ (by decide) (by decide) (.inl (by decide)) (.inl (by decide)), by decide⟩

theorem witness_ConvRunInsideOneBlock : NoneFails (checksOf (.convRun 0) (busy 0x12 #v[0, 1, 0, 1, 1] [oneF64] midBlock)) ∧
    0 < (busy 0x12 #v[0, 1, 0, 1, 1] [oneF64] midBlock).arg 4 ∧
    (busy 0x12 #v[0, 1, 0, 1, 1] [oneF64] midBlock).arg 4 ≤ midBlock.B - midBlock.inputPos ∧
    gather (runArgs (busy 0x12 #v[0, 1, 0, 1, 1] [oneF64] midBlock)) midBlock (storeR [] 0 [oneF64]) 1 0 = some [oneF64] :=
  ⟨convRun_noneFails _ (by decide) (by decide) (.inr (show 0 + 1 ≤ caps.dmemWords by decide)) (.inr (show 0 + 1 ≤ caps.dmemWords by decide)),
    by decide, by decide, by decide +kernel⟩

/-- Two lanes of three. -/
def lane (ch : Nat) : Context := { midBlock with channel := ch, numChannels := 3 }

theorem witness_LanesAreDisjoint : (lane 0).numChannels = (lane 2).numChannels ∧ (lane 0).channel < (lane 0).numChannels ∧
    (lane 2).channel < (lane 2).numChannels ∧ (lane 0).channel ≠ (lane 2).channel := by decide

/-- A sample inside `in` and a sample beyond it. -/
theorem witness_PassTransformsTheFrameBuffer : midBlock.Shaped caps ∧ 1 ≤ midBlock.B - midBlock.inputPos ∧
    gather { outbase := 0, outlen := 0, inbase := 0, inlen := 1, ns := 1 } midBlock (storeR [] 0 [oneF64]) 1 0 = some [oneF64] ∧
    gather { outbase := 0, outlen := 0, inbase := 0, inlen := 1, ns := 2 } midBlock (storeR [] 0 [oneF64]) 1 1 = some [posZero] :=
  ⟨midBlock_shaped, by decide, by decide +kernel, by decide +kernel⟩

theorem witness_BlockSumIsInverted : midBlock.Shaped caps ∧ 0 < midBlock.F := ⟨midBlock_shaped, by decide⟩

/-- The context of `twoSegments` has `M = 2`, so that its tail sum has a term. -/
def twoSegments : Context := { atBoundary with
  M := 2, K := 6, inputSegments := List.replicate 6 (List.replicate 8 zeroC), impulseSegments := List.replicate 2 (List.replicate 8 zeroC) }

theorem twoSegments_shaped : twoSegments.Shaped caps :=
  { atBoundary_shaped with
    someSegment := by decide, fitsSegments := by decide, ringLength := by decide, fitsRing := by decide, ringStride := by decide
    ringSegments := by decide, ringSegmentLength := fun v hv => by rw [List.eq_of_mem_replicate hv]; rfl
    irSegments := by decide, irSegmentLength := fun v hv => by rw [List.eq_of_mem_replicate hv]; rfl
    ringPosition := by decide }

theorem witness_TailSumMeetsOlderBlocks : (midBlock.Shaped caps ∧ midBlock.inputPos ≠ 0) ∧
    (twoSegments.Shaped caps ∧ twoSegments.inputPos = 0 ∧ 1 < twoSegments.M) :=
  ⟨⟨midBlock_shaped, by decide⟩, twoSegments_shaped, by decide, by decide⟩

/-- Both ranges of the saved tail are inhabited: `t = 3` is below `F - 2B = 4`, and `t = 4` is not. -/
theorem witness_BlockBoundarySavesTheTail : midBlock.Shaped caps ∧ midBlock.inputPos + 1 = midBlock.B ∧ 3 < midBlock.F - 2 * midBlock.B ∧
    midBlock.F - 2 * midBlock.B ≤ 4 ∧ 4 < midBlock.F - midBlock.B := ⟨midBlock_shaped, by decide, by decide, by decide, by decide⟩

theorem witness_InsideTheBlockOnlyThePositionMoves : atBoundary.inputPos + 1 ≠ atBoundary.B := by decide

theorem witness_PassEmitsItsLane : atBoundary.Shaped caps ∧ atBoundary.inputPos + 2 ≤ atBoundary.B ∧
    atBoundary.channel + (0 + 1) * atBoundary.numChannels < 2 ∧ ¬ atBoundary.channel + (0 + 1) * atBoundary.numChannels < 1 :=
  ⟨atBoundary_shaped, by decide, by decide, by decide⟩

theorem witness_ImpulseSegmentsHoldTheCoefficients : 0 < [oneF64].length ∧ 0 < 3 ∧ 0 < 1 ∧ [oneF64][0 + 0 * 3]? = some oneF64 ∧
    isNaN 0x7FF8000000000000 = true ∧ isZero negZero = true := by decide

theorem witness_CmdWriteStartsOrOverruns : State.reset.inReset = false ∧ State.reset.status.busy = false ∧
    (busy 0 #v[0, 0, 0, 0, 0] [] .blank).inReset = false ∧ (busy 0 #v[0, 0, 0, 0, 0] [] .blank).status.busy = true := ⟨rfl, rfl, rfl, rfl⟩

theorem witness_ArgumentWritesSpareTheRunningCommand : (busy 0x5 #v[1, 2, 3, 4, 5] [] .blank).inReset = false ∧ (4 : Fin 5) ≠ 0 ∧
    (∃ t, exec .cmac (busy 0x5 #v[0, 0, 0, 1, 0] [0, 0] .blank) = .next t) ∧
    ∃ f, exec .bitrev (busy 0x1 #v[0, 1, 0, 0, 0] [0] .blank) = .fault f := ⟨rfl, by decide, ⟨_, rfl⟩, ⟨_, rfl⟩⟩

theorem witness_RegisterReads : State.reset.inReset = false := rfl

/-- A configured context, an unconfigured one, and a number that selects none. -/
theorem witness_ContextInfoReads :
    let s := { busy 0 #v[0, 0, 0, 0, 0] [] midBlock with status := Status.reset }
    s.inReset = false ∧ s.status.busy = false ∧ (s.csel.toNat < s.caps.nctx ∧ (s.ctx s.csel.toNat).configured = true) ∧
      ¬ ((State.ctx { s with csel := 1 } 1).configured = true) ∧ ¬ (({ s with csel := 2 } : State).csel.toNat < s.caps.nctx) ∧
      (busy 0 #v[0, 0, 0, 0, 0] [] midBlock).status.busy = true :=
  ⟨rfl, rfl, by decide, by decide, by decide, rfl⟩

theorem witness_IgnoredWritesAndReservedOffsets : State.reset.inReset = false ∧ 0x28 ∈ [0x04, 0x1C, 0x20, 0x24, 0x28] ∧
    (12 ≤ 63 ∧ 63 < 64) ∧ (22 ≤ 22 ∧ 22 < 64) := ⟨rfl, by decide, by decide, by decide⟩

theorem witness_HostAccessesTheModelRefuses : (busy 0 #v[0, 0, 0, 0, 0] [] .blank).status.busy = true ∧ State.reset.inReset = false ∧
    ((16 : Nat) ≠ 32 ∨ 0 % 4 ≠ 0 ∨ 256 ≤ 0) ∧ ((32 : Nat) ≠ 32 ∨ 6 % 4 ≠ 0 ∨ 256 ≤ 6) ∧ ((32 : Nat) ≠ 32 ∨ 256 % 4 ≠ 0 ∨ 256 ≤ 256) :=
  ⟨rfl, rfl, by decide, by decide, by decide⟩

theorem witness_HostMemoryWritesReadBack :
    let s := { busy 0 #v[0, 0, 0, 0, 0] [] .blank with status := Status.reset }
    s.status.busy = false ∧ (63 : Word).toNat < s.caps.dmemWords ∧ s.dmem.read 63 = none ∧
      (State.dmem { s with dmem := [oneF64].foldl (fun m x => m.write 63 x) [] }).read 63 = some oneF64 ∧
      s.caps.dmemWords ≤ (64 : Word).toNat := ⟨rfl, by decide, rfl, by decide +kernel, by decide⟩

theorem witness_ResetLeavesTheTableOfR36 : ({ State.reset with inReset := true } : State).inReset = true ∧
    State.reset.status.busy = false := ⟨rfl, rfl⟩

/-- A command whose checks pass, one that a check ends, and an illegal word. -/
theorem witness_ResetWhileBusyScramblesTheOutputBuffer :
    (overBlocks.status.busy = true ∧ decode overBlocks.cmd = .ok (.convRun 0) ∧ NoneFails (checksOf (.convRun 0) overBlocks)) ∧
    (decode (busy 0x4 #v[0, 3, 0, 4, 0] [] .blank).cmd = .ok .fftMag ∧
      FirstFailing (checksOf .fftMag (busy 0x4 #v[0, 3, 0, 4, 0] [] .blank)) .lengthMismatch) ∧
    decode (busy 0x6 #v[0, 0, 0, 0, 0] [] .blank).cmd = .error .unassignedOpcode :=
  ⟨⟨rfl, by decide, convRun_noneFails _ (by decide) (by decide) (.inr (show 62 + 2 ≤ caps.dmemWords by decide))
      (.inr (show 0 + 1 ≤ caps.dmemWords by decide))⟩,
    ⟨by decide, [], _, _, rfl, by decide, by simp⟩, by decide⟩

theorem witness_OperationsRoundToNearestEven : (isFinite 0x7FEFFFFFFFFFFFFF = true ∧ isFinite 0x8000000000000001 = true ∧
    isZero 0x8000000000000001 = false) ∧ (isFinite posZero = true ∧ isFinite negZero = true ∧ toRat posZero + toRat negZero = 0 ∧
    toRat negZero - toRat posZero = 0) ∧ (2 ^ 53 : Nat) ≤ 2 ^ 53 := by
  have h1 : toUnits posZero = 0 := by decide
  have h2 : toUnits negZero = 0 := by decide
  exact ⟨by decide, ⟨by decide, by decide, by simp [toRat, h1, h2], by simp [toRat, h1, h2]⟩, le_refl _⟩

theorem witness_NaNsStayNaNs : isNaN 0xFFF0000000000001 = true ∧ (isInf 0xFFF0000000000000 = true ∧ isZero negZero = true) ∧
    (isInf posInf = true ∧ isFinite negZero = true) ∧ (isInf 0xFFF0000000000000 = true ∧ signBit posInf ≠ signBit 0xFFF0000000000000) ∧
    (isNaN oneF64 = false ∧ isZero oneF64 = false) ∧ (isFinite 0x0000000000000001 = true ∧ isZero 0x0000000000000001 = false) := by
  decide

theorem witness_ModulusMeetsHypotOk : isInf 0xFFF0000000000000 = true ∧ (isInf oneF64 = false ∧ isInf 0x7FF0000000000001 = false ∧
    isNaN 0x7FF0000000000001 = true) ∧ (isFinite 0x7FEFFFFFFFFFFFFF = true ∧ isFinite posZero = true) := by decide

/-- Finite operands whose modulus overflows on every device, and others whose modulus does not. -/
theorem witness_ModulusMeetsHypotOk_overflow :
    isInf (modulus units 0 0x7FEFFFFFFFFFFFFF 0x7FEFFFFFFFFFFFFF) = true ∧ isInf (modulus units 0 oneF64 posZero) = false := by
  decide +kernel

theorem witness_BitReversalIsAnInvolution : 6 < 2 ^ 3 ∧ 0 < 2 ^ 0 := by decide
theorem witness_UtilityFunctions : 1 ≤ 1 ∧ 5 ≤ 2 ^ 3 := by decide
theorem witness_PlannerBounds : 1 ≤ 1 ∧ (nextPowerOfTwo 128 ≤ 128 ∧ 128 < nextPowerOfTwo 129) := by decide
theorem witness_ExactNetworkIsTheFourierTransform : (3 ≠ 1 ∧ (List.replicate 8 (1 : ℂ)).length = 2 ^ 3 ∧ 7 < 2 ^ 3) ∧
    (0 ≠ 1 ∧ [(1 : ℂ)].length = 2 ^ 0) := ⟨⟨by decide, rfl, by decide⟩, by decide, rfl⟩

theorem witness_ConvRunIsTheSequenceOfItsPasses : 0 < overBlocks.caps.nctx ∧ (overBlocks.ctx 0).configured = true ∧
    (overBlocks.ctx 0).Shaped overBlocks.caps ∧ Inside overBlocks (overBlocks.arg 0) (overBlocks.arg 1) ∧
    Inside overBlocks (overBlocks.arg 2) (overBlocks.arg 3) ∧ (overBlocks.ctx 0).B - (overBlocks.ctx 0).inputPos < overBlocks.arg 4 ∧
    ∀ t, t < overBlocks.arg 4 → (overBlocks.ctx 0).channel + t * (overBlocks.ctx 0).numChannels < overBlocks.arg 3 →
      (overBlocks.dmem.read (overBlocks.arg 2 + ((overBlocks.ctx 0).channel + t * (overBlocks.ctx 0).numChannels))).isSome :=
  let ⟨h1, h2, h3, h4, h5, h6⟩ := witness_ConvRunProcessesItsLane
  ⟨h1, h2, h3, h4, h5, by decide, h6⟩

theorem witness_ForwardTransformIsItsButterflies : (3 ≠ 1 ∧ (List.replicate 8 zeroC).length = 2 ^ 3) ∧
    (2 < 3 ∧ 0 < 2 ^ (3 - 2 - 1) ∧ 3 < 2 ^ 2) ∧ (5 < 2 ^ 3) := by decide

theorem witness_PseudoInstructionsLatchTheirCommand : State.reset.inReset = false ∧ State.reset.status.busy = false ∧
    State.reset.pending = [] ∧ (4, 5) ∈ (Pseudo.convRun 0 1 2 3 4 5).arguments ∧ (∀ v, (0, v) ∉ (Pseudo.convSetir 0 1 2).arguments) ∧
    ((Pseudo.convRun 15 1 2 3 4 5).wellFormed = true ∧ (Pseudo.convRun 15 1 2 3 4 5).command.wellFormed = true) ∧
    (Pseudo.convRun 16 1 2 3 4 5).wellFormed = true ∧ (Pseudo.convRun 16 1 2 3 4 5).command.wellFormed = false :=
  ⟨rfl, rfl, rfl, by decide, fun v h => by simp [Pseudo.arguments] at h, by decide, by decide, by decide⟩

/-- A context that does not fit `CTX` sets `RSV`, and `ch = 0xFFFFFFFF` is a spelling of -1 (the errors table of the test vectors). -/
theorem test_pseudo_words : decode (Pseudo.convNew 16 8 0 1 0 1).word = .error .reservedBits ∧
    (Pseudo.convNew 0 8 0xFFFFFFFF 1 0 1).wellFormed = true ∧
    (Pseudo.convNew 0 8 0xFFFFFFFF 1 0 1).arguments = (Pseudo.convNew 0 8 (-1) 1 0 1).arguments ∧
    (Pseudo.convNew 16777216 8 0 1 0 1).wellFormed = false := by decide

/-- `conv.setir 1, 4, 8` from an idle block: its three writes latch the word of R62. -/
theorem test_pseudo_convSetir_accesses : programEvents false (Pseudo.convSetir 1 4 8).expand =
    [{ early := false, access := .regWrite 0x14 32 4 }, { early := false, access := .regWrite 0x18 32 8 },
      { early := false, access := .regWrite 0x00 32 0x00000111 }, { early := false, access := .regRead 0x04 32 }] := by decide

end Sys2Proof.Tests
end

section
/-! Encodings up to the free NaNs, signs, and the cases of the four operations (R10, R63 to R67). -/

namespace Sys2Proof.Machine

/-! Classes of encodings and the sign flip. -/

theorem isNaN_of_isFinite {x : F64} (h : isFinite x = true) : isNaN x = false := by
  rw [isFinite, decide_eq_true_eq] at h
  simp [isNaN, h]

theorem isInf_of_isFinite {x : F64} (h : isFinite x = true) : isInf x = false := by
  rw [isFinite, decide_eq_true_eq] at h
  simp [isInf, h]

/-- `fneg` keeps the magnitude bits (R10). -/
theorem fneg_low (x : F64) : (fneg x).toNat % 2 ^ 63 = x.toNat % 2 ^ 63 := by
  have hz : negZero.toNat % 2 ^ 63 = 0 := by decide
  rw [fneg, BitVec.toNat_xor, Nat.xor_mod_two_pow, hz, Nat.xor_zero]

theorem signBit_eq_msb (x : F64) : signBit x = x.msb := (BitVec.msb_eq_decide x).symm

/-- `fneg` flips the sign bit (R10). -/
@[simp] theorem signBit_fneg (x : F64) : signBit (fneg x) = !signBit x := by
  have hz : negZero.msb = true := by decide
  rw [signBit_eq_msb, signBit_eq_msb, fneg, BitVec.msb_xor, hz, Bool.xor_true]

theorem expField_eq_low (x : F64) : expField x = x.toNat % 2 ^ 63 / 2 ^ 52 := by
  unfold expField
  omega

theorem fracField_eq_low (x : F64) : fracField x = x.toNat % 2 ^ 63 % 2 ^ 52 := by
  unfold fracField
  omega

@[simp] theorem expField_fneg (x : F64) : expField (fneg x) = expField x := by
  rw [expField_eq_low, expField_eq_low, fneg_low]

@[simp] theorem fracField_fneg (x : F64) : fracField (fneg x) = fracField x := by
  rw [fracField_eq_low, fracField_eq_low, fneg_low]

@[simp] theorem isNaN_fneg (x : F64) : isNaN (fneg x) = isNaN x := by simp [isNaN]

@[simp] theorem isFinite_fneg (x : F64) : isFinite (fneg x) = isFinite x := by simp [isFinite]

@[simp] theorem magUnits_fneg (x : F64) : magUnits (fneg x) = magUnits x := by rw [magUnits, magUnits, fneg_low]

/-- An infinity is known by its sign. -/
theorem eq_of_isInf_of_signBit {x y : F64} (hx : isInf x = true) (hy : isInf y = true) (hs : signBit x = signBit y) :
    x = y := by
  unfold isInf expField fracField at hx hy
  unfold signBit at hs
  rw [decide_eq_true_eq] at hx hy
  rw [decide_eq_decide] at hs
  exact BitVec.eq_of_toNat_eq (by omega)

/-- What is not a NaN is an infinity or finite. -/
theorem isInf_or_isFinite {x : F64} (h : isNaN x = false) : isInf x = true ∨ isFinite x = true := by
  rcases class_cases x with ⟨hn, _, _⟩ | ⟨_, hi, _⟩ | ⟨_, _, hf⟩
  · simp [h] at hn
  · exact .inl hi
  · exact .inr hf

theorem isNaN_of_isInf {x : F64} (h : isInf x = true) : isNaN x = false := by
  rw [isInf, decide_eq_true_eq] at h
  simp [isNaN, h.2]

/-! The cases of the operations. -/

theorem isNaN_fadd_of_isNaN {d : BitVec 64} {x y : F64} (h : isNaN x = true ∨ isNaN y = true) :
    isNaN (fadd d x y) = true := by
  rw [fadd, if_pos (by simpa using h), isNaN_nanOf]

theorem isNaN_fsub_of_isNaN {d : BitVec 64} {x y : F64} (h : isNaN x = true ∨ isNaN y = true) :
    isNaN (fsub d x y) = true :=
  isNaN_fadd_of_isNaN (by rwa [isNaN_fneg])

/-- Infinities of unlike signs have no sum (R65). -/
theorem fadd_of_isInf_of_isInf {d : BitVec 64} {x y : F64} (hx : isInf x = true) (hy : isInf y = true) :
    fadd d x y = if signBit x = signBit y then x else nanOf d := by
  simp [fadd, isNaN_of_isInf, hx, hy]

theorem fadd_of_isInf_of_isFinite {d : BitVec 64} {x y : F64} (hx : isInf x = true) (hy : isFinite y = true) :
    fadd d x y = x := by
  simp [fadd, isNaN_of_isInf, isNaN_of_isFinite, isInf_of_isFinite, hx, hy]

theorem fadd_of_isFinite_of_isInf {d : BitVec 64} {x y : F64} (hx : isFinite x = true) (hy : isInf y = true) :
    fadd d x y = y := by
  simp [fadd, isNaN_of_isInf, isNaN_of_isFinite, isInf_of_isFinite, hx, hy]

theorem fadd_of_isFinite {d : BitVec 64} {x y : F64} (hx : isFinite x = true) (hy : isFinite y = true) :
    fadd d x y = if toUnits x + toUnits y = 0 then packF64 (signBit x && signBit y) 0
      else packF64 (decide (toUnits x + toUnits y < 0)) (roundBits (toUnits x + toUnits y).natAbs 1) := by
  simp [fadd, isNaN_of_isFinite, isInf_of_isFinite, hx, hy]

theorem fmul_of_isFinite {d : BitVec 64} {x y : F64} (hx : isFinite x = true) (hy : isFinite y = true) :
    fmul d x y = packF64 (signBit x != signBit y) (roundBits (magUnits x * magUnits y) unitsPerOne) := by
  simp [fmul, isNaN_of_isFinite, isInf_of_isFinite, hx, hy]

theorem fdiv_of_isFinite {d : BitVec 64} {x y : F64} (hx : isFinite x = true) (hy : isFinite y = true)
    (h0 : isZero y = false) :
    fdiv d x y = packF64 (signBit x != signBit y) (roundBits (magUnits x * unitsPerOne) (magUnits y)) := by
  simp [fdiv, isNaN_of_isFinite, isInf_of_isFinite, hx, hy, h0]

end Sys2Proof.Machine
end

section
/-! The complex multiplier commutes up to the free NaNs (R65, R73). -/

open Sys2Proof.Machine

namespace Sys2Proof.Claims

theorem SameUpToNaN.of_isNaN {x y : F64} (hx : isNaN x = true) (hy : isNaN y = true) : SameUpToNaN x y := .inr ⟨hx, hy⟩

theorem SameUpToNaN.refl (x : F64) : SameUpToNaN x x := .inl rfl

theorem SameUpToNaN.trans {x y z : F64} (hxy : SameUpToNaN x y) (hyz : SameUpToNaN y z) : SameUpToNaN x z := by
  rcases hxy with rfl | ⟨hx, hy⟩
  · exact hyz
  · rcases hyz with rfl | ⟨_, hz⟩
    · exact .of_isNaN hx hy
    · exact .of_isNaN hx hz

theorem SameUpToNaN.fneg {x y : F64} (h : SameUpToNaN x y) : SameUpToNaN (fneg x) (fneg y) := by
  rcases h with rfl | ⟨hx, hy⟩
  · exact .refl _
  · exact .of_isNaN (by rwa [isNaN_fneg]) (by rwa [isNaN_fneg])

/-- The sum does not depend on the order of its terms nor, unless it is a NaN, on the free value. -/
theorem fadd_comm_upToNaN (d d' : BitVec 64) (x y : F64) : SameUpToNaN (fadd d x y) (fadd d' y x) := by
  by_cases hn : isNaN x = true ∨ isNaN y = true
  · exact .of_isNaN (isNaN_fadd_of_isNaN hn) (isNaN_fadd_of_isNaN hn.symm)
  simp only [not_or, Bool.not_eq_true] at hn
  rcases isInf_or_isFinite hn.1 with hx | hx <;> rcases isInf_or_isFinite hn.2 with hy | hy
  · rw [fadd_of_isInf_of_isInf hx hy, fadd_of_isInf_of_isInf hy hx]
    by_cases hs : signBit x = signBit y
    · rw [if_pos hs, if_pos hs.symm]
      exact .inl (eq_of_isInf_of_signBit hx hy hs)
    · rw [if_neg hs, if_neg (Ne.symm hs)]
      exact .of_isNaN (isNaN_nanOf d) (isNaN_nanOf d')
  · rw [fadd_of_isInf_of_isFinite hx hy, fadd_of_isFinite_of_isInf hy hx]
    exact .refl _
  · rw [fadd_of_isFinite_of_isInf hx hy, fadd_of_isInf_of_isFinite hy hx]
    exact .refl _
  · rw [fadd_of_isFinite hx hy, fadd_of_isFinite hy hx, Int.add_comm, Bool.and_comm]
    exact .refl _

/-- Terms that are equal up to the free NaNs have sums that are. -/
theorem SameUpToNaN.fadd {x x' y y' : F64} (hx : SameUpToNaN x x') (hy : SameUpToNaN y y') (d d' : BitVec 64) :
    SameUpToNaN (fadd d x y) (fadd d' x' y') := by
  rcases hx with rfl | ⟨hx, hx'⟩
  · rcases hy with rfl | ⟨hy, hy'⟩
    · exact (fadd_comm_upToNaN d d x y).trans (fadd_comm_upToNaN d d' y x)
    · exact .of_isNaN (isNaN_fadd_of_isNaN (.inr hy)) (isNaN_fadd_of_isNaN (.inr hy'))
  · exact .of_isNaN (isNaN_fadd_of_isNaN (.inl hx)) (isNaN_fadd_of_isNaN (.inl hx'))

theorem SameUpToNaN.fsub {x x' y y' : F64} (hx : SameUpToNaN x x') (hy : SameUpToNaN y y') (d d' : BitVec 64) :
    SameUpToNaN (fsub d x y) (fsub d' x' y') :=
  hx.fadd hy.fneg d d'

/-- The product does not depend on the order of its factors nor, unless it is a NaN, on the free value. -/
theorem fmul_comm_upToNaN (d d' : BitVec 64) (x y : F64) : SameUpToNaN (fmul d x y) (fmul d' y x) := by
  unfold fmul
  rw [Bool.or_comm (isNaN y), Bool.or_comm (isInf y), Bool.or_comm (isZero y), bne_comm (a := signBit y),
    Nat.mul_comm (magUnits y)]
  by_cases hn : (isNaN x || isNaN y) = true
  · rw [if_pos hn, if_pos hn]
    exact .of_isNaN (isNaN_nanOf d) (isNaN_nanOf d')
  rw [if_neg hn, if_neg hn]
  by_cases hi : (isInf x || isInf y) = true
  · rw [if_pos hi, if_pos hi]
    by_cases hz : (isZero x || isZero y) = true
    · rw [if_pos hz, if_pos hz]
      exact .of_isNaN (isNaN_nanOf d) (isNaN_nanOf d')
    · rw [if_neg hz, if_neg hz]
      exact .refl _
  · rw [if_neg hi, if_neg hi]
    exact .refl _

theorem cmul_comm_upToNaN (κ κ' : Draws) (a b : Cplx) : SameUpToNaNC (cmul κ a b) (cmul κ' b a) :=
  ⟨(fmul_comm_upToNaN _ _ a.re b.re).fsub (fmul_comm_upToNaN _ _ a.im b.im) _ _,
    (fadd_comm_upToNaN _ (κ' [3]) _ _).trans
      ((fmul_comm_upToNaN _ _ a.im b.re).fadd (fmul_comm_upToNaN _ _ a.re b.im) _ _)⟩

/-- Settles O50: the parts are the model's own definitions, and the two orders meet the same NaN and the same rounded cases. -/
theorem complexMultiplierCommutes : Obligations.ComplexMultiplierCommutes := fun κ κ' a b =>
  ⟨⟨_, _, rfl⟩, ⟨_, _, rfl⟩, ⟨_, _, _, _, _, _, rfl⟩, cmul_comm_upToNaN κ κ' a b⟩

end Sys2Proof.Claims
end
section
/-! Rounding to nearest even over the rationals (R64, R66), and the exact values the operations round (R10). -/

namespace Sys2Proof.Machine

/-! Nearest magnitudes. -/

/-- No encoding counts a number of units nearer to `m` than `b` does, and `b` is even in a tie. -/
def NearestBits (m : ℚ) (b : ℕ) : Prop :=
  ∀ c : ℕ, |(unitsOfBits b : ℚ) - m| < |(unitsOfBits c : ℚ) - m| ∨ c = b ∨
    (|(unitsOfBits b : ℚ) - m| = |(unitsOfBits c : ℚ) - m| ∧ b % 2 = 0)

theorem cast_unitsOfBits_lt {b c : ℕ} (h : b < c) : (unitsOfBits b : ℚ) < unitsOfBits c := by
  exact_mod_cast unitsOfBits_strictMono h

theorem cast_unitsOfBits_le {b c : ℕ} (h : b ≤ c) : (unitsOfBits b : ℚ) ≤ unitsOfBits c := by
  exact_mod_cast unitsOfBits_strictMono.monotone h

/-- Rounding down: the encoding below `m` is the nearest one up to the middle of its gap. -/
theorem nearestBits_of_below {m : ℚ} {b : ℕ} (hlo : (unitsOfBits b : ℚ) ≤ m)
    (hmid : 2 * m < unitsOfBits b + unitsOfBits (b + 1) ∨ 2 * m = unitsOfBits b + unitsOfBits (b + 1) ∧ b % 2 = 0) :
    NearestBits m b := by
  intro c
  rw [abs_of_nonpos (sub_nonpos.2 hlo)]
  rcases lt_trichotomy c b with hc | hc | hc
  · have h1 := cast_unitsOfBits_lt hc
    rw [abs_of_nonpos (by linarith)]
    exact .inl (by linarith)
  · exact .inr (.inl hc)
  · have h1 := cast_unitsOfBits_lt (Nat.lt_succ_self b)
    have h2 := cast_unitsOfBits_le (Nat.succ_le_of_lt hc)
    simp only [Nat.succ_eq_add_one] at h1 h2
    rcases hmid with h | ⟨h, heven⟩
    · rw [abs_of_nonneg (by linarith)]
      exact .inl (by linarith)
    · rw [abs_of_nonneg (by linarith)]
      rcases h2.lt_or_eq with h3 | h3
      · exact .inl (by linarith)
      · exact .inr (.inr ⟨by linarith, heven⟩)

/-- Rounding up: the encoding above `m` is the nearest one from the middle of its gap on. -/
theorem nearestBits_of_above {m : ℚ} {b : ℕ} (hhi : m < unitsOfBits (b + 1))
    (hmid : (unitsOfBits b : ℚ) + unitsOfBits (b + 1) < 2 * m ∨
      2 * m = unitsOfBits b + unitsOfBits (b + 1) ∧ (b + 1) % 2 = 0) :
    NearestBits m (b + 1) := by
  intro c
  rw [abs_of_pos (sub_pos.2 hhi)]
  rcases lt_trichotomy c (b + 1) with hc | hc | hc
  · have h1 := cast_unitsOfBits_lt (Nat.lt_succ_self b)
    have h2 := cast_unitsOfBits_le (Nat.le_of_lt_succ hc)
    simp only [Nat.succ_eq_add_one] at h1
    rcases hmid with h | ⟨h, heven⟩
    · rw [abs_of_nonpos (by linarith)]
      exact .inl (by linarith)
    · rw [abs_of_nonpos (by linarith)]
      rcases h2.lt_or_eq with h3 | h3
      · exact .inl (by linarith)
      · exact .inr (.inr ⟨by linarith, heven⟩)
  · exact .inr (.inl hc)
  · have h1 := cast_unitsOfBits_lt hc
    rw [abs_of_pos (by linarith)]
    exact .inl (by linarith)

/-- The neighbours of `num/den` and the choice between them, over the rationals. -/
theorem roundBits_choice (num : ℕ) {den : ℕ} (hd : 0 < den) :
    ∃ b, (unitsOfBits b : ℚ) ≤ num / den ∧ (num / den : ℚ) < unitsOfBits (b + 1) ∧
      ((roundBits num den = min b infBits ∧ (2 * (num / den : ℚ) < unitsOfBits b + unitsOfBits (b + 1) ∨
          2 * (num / den : ℚ) = unitsOfBits b + unitsOfBits (b + 1) ∧ b % 2 = 0)) ∨
        (roundBits num den = min (b + 1) infBits ∧ ((unitsOfBits b : ℚ) + unitsOfBits (b + 1) < 2 * (num / den) ∨
          2 * (num / den : ℚ) = unitsOfBits b + unitsOfBits (b + 1) ∧ (b + 1) % 2 = 0))) := by
  obtain ⟨b, hlo, hhi, hchoice⟩ := roundBits_between num den hd
  have hd' : (0 : ℚ) < den := by exact_mod_cast hd
  have hlt (s : ℕ) : 2 * (num / den : ℚ) < s ↔ 2 * num < s * den := by
    rw [← mul_div_assoc, div_lt_iff₀ hd']
    norm_cast
  have hgt (s : ℕ) : (s : ℚ) < 2 * (num / den) ↔ s * den < 2 * num := by
    rw [← mul_div_assoc, lt_div_iff₀ hd']
    norm_cast
  have heq (s : ℕ) : 2 * (num / den : ℚ) = s ↔ 2 * num = s * den := by
    rw [← mul_div_assoc, div_eq_iff hd'.ne']
    norm_cast
  have hpar : (b + 1) % 2 = 0 ↔ b % 2 = 1 := by omega
  refine ⟨b, (le_div_iff₀ hd').2 (by exact_mod_cast hlo), (div_lt_iff₀ hd').2 (by exact_mod_cast hhi), ?_⟩
  simpa only [← Nat.cast_add, hlt, hgt, heq, hpar] using hchoice

/-- A result below infinity is nearest to the exact value (R64). -/
theorem roundBits_nearest {num den : ℕ} (hd : 0 < den) (h : roundBits num den < infBits) :
    NearestBits (num / den) (roundBits num den) := by
  obtain ⟨b, hlo, hhi, ⟨hr, hmid⟩ | ⟨hr, hmid⟩⟩ := roundBits_choice num hd
  · rw [show roundBits num den = b by omega]
    exact nearestBits_of_below hlo hmid
  · rw [show roundBits num den = b + 1 by omega]
    exact nearestBits_of_above hhi hmid

/-- Rounding overflows from the middle of the gap above the largest finite magnitude on (R66). -/
theorem roundBits_lt_infBits_iff {num den : ℕ} (hd : 0 < den) :
    roundBits num den < infBits ↔ 2 * (num / den : ℚ) < unitsOfBits (infBits - 1) + unitsOfBits infBits := by
  have hpos : 0 < infBits := by rw [infBits_eq]; norm_num
  have hodd : (infBits - 1) % 2 = 1 := by rw [infBits_eq]
  have hlast := cast_unitsOfBits_lt (Nat.sub_lt hpos one_pos)
  obtain ⟨b, hlo, hhi, ⟨hr, hmid⟩ | ⟨hr, hmid⟩⟩ := roundBits_choice num hd
  · rw [show roundBits num den < infBits ↔ b < infBits by omega]
    constructor
    · intro hb
      have h1 := cast_unitsOfBits_le (show b + 1 ≤ infBits by omega)
      rcases hmid with h | ⟨h, heven⟩
      · have h2 := cast_unitsOfBits_le (show b ≤ infBits - 1 by omega)
        linarith
      · have h2 := cast_unitsOfBits_lt (show b < infBits - 1 by omega)
        linarith
    · contrapose!
      intro hb
      have h1 := cast_unitsOfBits_le hb
      linarith
  · rw [show roundBits num den < infBits ↔ b + 1 < infBits by omega]
    constructor
    · intro hb
      have h1 := cast_unitsOfBits_le (show b + 1 ≤ infBits - 1 by omega)
      linarith
    · contrapose!
      intro hb
      have h1 := cast_unitsOfBits_le hb
      have h2 := cast_unitsOfBits_le (show infBits - 1 ≤ b by omega)
      rcases hmid with h | ⟨h, _⟩ <;> linarith

theorem unitsPerOne_pos : (0 : ℚ) < unitsPerOne := by
  unfold unitsPerOne
  positivity

/-- The middle of the gap above the largest finite magnitude is `2^1024 - 2^970`. -/
theorem overflow_units :
    (unitsOfBits (infBits - 1) : ℚ) + unitsOfBits infBits = 2 * (((2 : ℚ) ^ 1024 - 2 ^ 970) * unitsPerOne) := by
  have h1 : (2 : ℚ) ^ 1024 = 2 ^ 54 * 2 ^ 970 := by rw [← pow_add]
  have h2 : (2 : ℚ) ^ 2046 = 2 * 2 ^ 2045 := by rw [← pow_succ']
  have h3 : (2 : ℚ) ^ 2045 = 2 * (2 ^ 970 * 2 ^ 1074) := by rw [← pow_add, ← pow_succ']
  rw [unitsOfBits_maxFinite, unitsOfBits_infBits, unitsPerOne, Nat.cast_mul, Nat.cast_mul, Nat.cast_pred (by norm_num)]
  simp only [Nat.cast_pow, Nat.cast_ofNat]
  rw [h1, h2, h3]
  generalize (2 : ℚ) ^ 970 = p, (2 : ℚ) ^ 1074 = u
  ring

/-- The same in terms of the value: infinity exactly beyond the halfway point above the largest finite value (R66). -/
theorem roundBits_overflow_iff {num den : ℕ} (hd : 0 < den) :
    roundBits num den < infBits ↔ (num / den / unitsPerOne : ℚ) < 2 ^ 1024 - 2 ^ 970 := by
  rw [roundBits_lt_infBits_iff hd, overflow_units, div_lt_iff₀ unitsPerOne_pos]
  exact mul_lt_mul_iff_right₀ two_pos

/-- What an encoding counts exactly, rounding gives back. -/
theorem roundBits_unitsOfBits {b : ℕ} (h : b ≤ infBits) : roundBits (unitsOfBits b) 1 = b := by
  obtain ⟨c, hlo, hhi, hchoice⟩ := roundBits_between (unitsOfBits b) 1 one_pos
  rw [Nat.mul_one] at hlo hhi
  have h1 : c ≤ b := unitsOfBits_strictMono.le_iff_le.1 hlo
  have h2 : b < c + 1 := unitsOfBits_strictMono.lt_iff_lt.1 hhi
  obtain rfl : c = b := by omega
  omega

theorem roundBits_zero : roundBits 0 1 = 0 := by
  have h := roundBits_unitsOfBits (Nat.zero_le infBits)
  rwa [unitsOfBits_low (by norm_num)] at h

/-! Signs and values. -/

/-- The factor a sign bit stands for. -/
def signFactor (neg : Bool) : ℚ := if neg then -1 else 1

@[simp] theorem signFactor_not (a : Bool) : signFactor (!a) = -signFactor a := by cases a <;> simp [signFactor]

theorem signFactor_bne (a b : Bool) : signFactor (a != b) = signFactor a * signFactor b := by
  cases a <;> cases b <;> simp [signFactor]

@[simp] theorem signFactor_mul_self (a : Bool) : signFactor a * signFactor a = 1 := by cases a <;> simp [signFactor]

theorem signFactor_ne_zero (a : Bool) : signFactor a ≠ 0 := by cases a <;> simp [signFactor]

@[simp] theorem abs_signFactor (a : Bool) : |signFactor a| = 1 := by cases a <;> simp [signFactor]

theorem abs_signFactor_mul (a : Bool) (q : ℚ) : |signFactor a * q| = |q| := by rw [abs_mul, abs_signFactor, one_mul]

theorem signFactor_mul_neg_iff {a : Bool} {q : ℚ} (h : 0 < q) : signFactor a * q < 0 ↔ a = true := by
  cases a <;> simp [signFactor, h, h.le]

theorem toUnits_eq (x : F64) : (toUnits x : ℚ) = signFactor (signBit x) * magUnits x := by
  unfold toUnits signFactor
  split <;> simp

theorem toRat_eq (x : F64) : toRat x = signFactor (signBit x) * (magUnits x / unitsPerOne) := by
  rw [toRat, toUnits_eq, mul_div_assoc]

@[simp] theorem toUnits_fneg (x : F64) : toUnits (fneg x) = -toUnits x := by
  rw [toUnits, toUnits, magUnits_fneg, signBit_fneg]
  cases signBit x <;> simp

@[simp] theorem toRat_fneg (x : F64) : toRat (fneg x) = -toRat x := by
  rw [toRat, toRat, toUnits_fneg, Int.cast_neg, neg_div]

theorem toRat_packF64 {neg : Bool} {b : ℕ} (h : b < 2 ^ 63) :
    toRat (packF64 neg b) = signFactor neg * (unitsOfBits b / unitsPerOne) := by
  rw [toRat_eq, signBit_packF64 h, magUnits_packF64 h]

theorem lt_two_pow_of_le_infBits {b : ℕ} (h : b ≤ infBits) : b < 2 ^ 63 := by
  rw [infBits_eq] at h
  omega

theorem magUnits_pos {x : F64} (h : isZero x = false) : 0 < magUnits x := by
  rw [isZero, decide_eq_false_iff_not] at h
  exact unitsOfBits_strictMono (Nat.pos_of_ne_zero h)

/-- An integer is its sign times its magnitude. -/
theorem signFactor_mul_natAbs (t : ℤ) : signFactor (decide (t < 0)) * t.natAbs = (t : ℚ) := by
  rw [Nat.cast_natAbs, signFactor]
  rcases lt_or_ge t 0 with h | h
  · simp [h, abs_of_neg h]
  · simp [not_lt.2 h, abs_of_nonneg h]

/-! The exact results that the operations round. -/

theorem toRat_add (x y : F64) : toRat x + toRat y = ((toUnits x + toUnits y : ℤ) : ℚ) / unitsPerOne := by
  rw [toRat, toRat, Int.cast_add, add_div]

theorem toRat_add_eq_zero_iff {x y : F64} : toRat x + toRat y = 0 ↔ toUnits x + toUnits y = 0 := by
  rw [toRat_add, div_eq_zero_iff, or_iff_left unitsPerOne_pos.ne', Int.cast_eq_zero]

theorem toRat_mul (x y : F64) : toRat x * toRat y =
    signFactor (signBit x != signBit y) * ((magUnits x * magUnits y : ℕ) / unitsPerOne / unitsPerOne) := by
  rw [toRat_eq, toRat_eq, signFactor_bne, Nat.cast_mul]
  ring

theorem toRat_div (x y : F64) : toRat x / toRat y =
    signFactor (signBit x != signBit y) * ((magUnits x * unitsPerOne : ℕ) / magUnits y / unitsPerOne) := by
  have hu := unitsPerOne_pos.ne'
  have hs : (signFactor (signBit y))⁻¹ = signFactor (signBit y) :=
    inv_eq_of_mul_eq_one_left (signFactor_mul_self _)
  rw [toRat_eq, toRat_eq, signFactor_bne, Nat.cast_mul, mul_div_mul_comm, div_eq_mul_inv (signFactor _), hs,
    div_div_div_cancel_right₀ hu, mul_div_right_comm, mul_div_cancel_right₀ _ hu]

/-! Distances. -/

/-- The distance of two values written with one sign is that of their units. -/
theorem abs_signFactor_sub (a : Bool) (m n : ℚ) :
    |signFactor a * (m / unitsPerOne) - signFactor a * (n / unitsPerOne)| = |m - n| / unitsPerOne := by
  rw [← mul_sub, ← sub_div, abs_signFactor_mul, abs_div, abs_of_pos unitsPerOne_pos]

/-- The nearest magnitude, with the sign of the exact value, is the nearest value: one of the other sign is farther than zero. -/
theorem NearestBits.nearest_value {m : ℚ} {r : ℕ} (h : NearestBits m r) (hm : 0 ≤ m) (neg : Bool) (w : F64) :
    let q := signFactor neg * (m / unitsPerOne)
    let z := signFactor neg * (unitsOfBits r / unitsPerOne)
    |z - q| < |toRat w - q| ∨ z = toRat w ∨ (|z - q| = |toRat w - q| ∧ r % 2 = 0) := by
  intro q z
  by_cases hs : signBit w = neg ∨ magUnits w = 0
  · have hw : toRat w = signFactor neg * (unitsOfBits (w.toNat % 2 ^ 63) / unitsPerOne) := by
      change toRat w = signFactor neg * (magUnits w / unitsPerOne)
      rcases hs with hs | hs
      · rw [toRat_eq, hs]
      · rw [toRat_eq, hs, Nat.cast_zero, zero_div, mul_zero, mul_zero]
    rw [hw, abs_signFactor_sub, abs_signFactor_sub]
    rcases h (w.toNat % 2 ^ 63) with h1 | h1 | ⟨h1, heven⟩
    · exact .inl (div_lt_div_of_pos_right h1 unitsPerOne_pos)
    · exact .inr (.inl (by rw [h1]))
    · exact .inr (.inr ⟨by rw [h1], heven⟩)
  · obtain ⟨hs, h0⟩ := not_or.1 hs
    have hw : toRat w = signFactor neg * (-magUnits w / unitsPerOne) := by
      rw [toRat_eq, Bool.eq_not_of_ne hs, signFactor_not]
      ring
    have hpos : (0 : ℚ) < magUnits w := by exact_mod_cast Nat.pos_of_ne_zero h0
    have hz : |(unitsOfBits r : ℚ) - m| ≤ m := by
      have hm0 : |(unitsOfBits 0 : ℚ) - m| = m := by
        rw [unitsOfBits_low (by norm_num), Nat.cast_zero, zero_sub, abs_neg, abs_of_nonneg hm]
      refine le_trans ?_ hm0.le
      rcases h 0 with h1 | h1 | ⟨h1, _⟩
      · exact h1.le
      · rw [h1]
      · exact h1.le
    rw [hw, abs_signFactor_sub, abs_signFactor_sub, abs_of_nonpos (show -(magUnits w : ℚ) - m ≤ 0 by linarith)]
    exact .inl (div_lt_div_of_pos_right (by linarith) unitsPerOne_pos)

/-! `f64`. -/

/-- A left shift brings a number from 1 to `2^53` into the range of a significand with its hidden bit. -/
theorem exists_shift_to_significand {n : ℕ} (hpos : 0 < n) (h : n ≤ 2 ^ 53) :
    ∃ j, j ≤ 52 ∧ 2 ^ 52 ≤ n * 2 ^ j ∧ n * 2 ^ j ≤ 2 ^ 53 := by
  rcases Nat.lt_or_ge n (2 ^ 53) with hlt | hge
  · have hl : Nat.log2 n < 53 := (Nat.log2_lt hpos.ne').2 hlt
    have e1 : 2 ^ Nat.log2 n * 2 ^ (52 - Nat.log2 n) = 2 ^ 52 := by rw [← pow_add, Nat.add_sub_cancel' (by omega)]
    have e2 : 2 ^ (Nat.log2 n + 1) * 2 ^ (52 - Nat.log2 n) = 2 ^ 53 := by
      rw [← pow_add, show Nat.log2 n + 1 + (52 - Nat.log2 n) = 53 by omega]
    refine ⟨52 - Nat.log2 n, Nat.sub_le _ _, ?_, ?_⟩
    · rw [← e1]
      exact Nat.mul_le_mul_right _ (Nat.log2_self_le hpos.ne')
    · rw [← e2]
      exact Nat.mul_le_mul_right _ Nat.lt_log2_self.le
  · exact ⟨0, by omega, by omega, by omega⟩

/-- Every whole number up to `2^53` has an encoding that counts it exactly. -/
theorem exists_unitsOfBits_eq_mul {n : ℕ} (h : n ≤ 2 ^ 53) : ∃ b, b < infBits ∧ unitsOfBits b = n * unitsPerOne := by
  rcases Nat.eq_zero_or_pos n with rfl | hpos
  · exact ⟨0, by rw [infBits_eq]; norm_num, by rw [unitsOfBits_low (by norm_num), Nat.zero_mul]⟩
  obtain ⟨j, hj, hlo, hhi⟩ := exists_shift_to_significand hpos h
  refine ⟨(1074 - j) * 2 ^ 52 + n * 2 ^ j, by rw [infBits_eq]; omega, ?_⟩
  rw [unitsOfBits_carry hlo hhi, unitsPerOne, Nat.mul_assoc, ← pow_add, Nat.add_sub_cancel' (by omega)]

theorem f64_exact {n : ℕ} (h : n ≤ 2 ^ 53) : isFinite (f64 n) = true ∧ signBit (f64 n) = false ∧ toRat (f64 n) = n := by
  obtain ⟨b, hb, hn⟩ := exists_unitsOfBits_eq_mul h
  have h63 := lt_two_pow_of_le_infBits hb.le
  rw [f64, ← hn, roundBits_unitsOfBits hb.le]
  refine ⟨by rw [isFinite_packF64 hb.le, decide_eq_true hb], signBit_packF64 h63, ?_⟩
  rw [toRat_packF64 h63, hn, Nat.cast_mul, mul_div_cancel_right₀ _ unitsPerOne_pos.ne', signFactor, if_neg (by simp),
    one_mul]

end Sys2Proof.Machine
end

section
/-! The four operations round once, to nearest even (R10, R64, R66). -/

open Sys2Proof.Machine

namespace Sys2Proof.Claims

/-- `roundBits`, packed under a sign, rounds the signed quotient (R64, R66). -/
theorem roundedTo_packF64 (neg : Bool) (num : ℕ) {den : ℕ} (hd : 0 < den) :
    RoundedTo (signFactor neg * (num / den / unitsPerOne)) (packF64 neg (roundBits num den)) := by
  have hle := roundBits_le num den
  have h63 := lt_two_pow_of_le_infBits hle
  have hm : (0 : ℚ) ≤ num / den := by positivity
  have hq : |signFactor neg * (num / den / unitsPerOne : ℚ)| = num / den / unitsPerOne := by
    rw [abs_signFactor_mul, abs_of_nonneg (div_nonneg hm unitsPerOne_pos.le)]
  rw [RoundedTo, isFinite_packF64 hle, isInf_packF64 hle, hq, decide_eq_false_iff_not, decide_eq_true_eq, decide_eq_true_eq]
  constructor
  · intro hinf
    have hbig := not_lt.1 (mt (roundBits_overflow_iff hd).2 hinf)
    have hmax : (0 : ℚ) < 2 ^ 1024 - 2 ^ 970 := sub_pos.2 (pow_lt_pow_right₀ (by norm_num) (by norm_num))
    refine ⟨by omega, hbig, ?_⟩
    rw [signBit_packF64 h63, signFactor_mul_neg_iff (hmax.trans_le hbig)]
  · intro hfin
    refine ⟨(roundBits_overflow_iff hd).1 hfin, fun w _ => ?_⟩
    rw [fracField_packF64 h63, toRat_packF64 h63, Nat.mod_mod_of_dvd _ (by norm_num)]
    exact (roundBits_nearest hd hfin).nearest_value hm neg w

theorem roundedTo_zero (neg : Bool) : RoundedTo 0 (packF64 neg 0) := by
  have h := roundedTo_packF64 neg 0 one_pos
  rwa [roundBits_zero, Nat.cast_zero, zero_div, zero_div, mul_zero] at h

variable {x y : F64} (d : BitVec 64) (hx : isFinite x = true) (hy : isFinite y = true)

include hx hy

theorem roundedTo_fadd : RoundedTo (toRat x + toRat y) (fadd d x y) := by
  rw [fadd_of_isFinite hx hy]
  split
  · next h0 =>
    rw [toRat_add_eq_zero_iff.2 h0]
    exact roundedTo_zero _
  · have h := roundedTo_packF64 (decide (toUnits x + toUnits y < 0)) (toUnits x + toUnits y).natAbs one_pos
    rwa [Nat.cast_one, div_one, ← mul_div_assoc, signFactor_mul_natAbs, ← toRat_add] at h

theorem roundedTo_fsub : RoundedTo (toRat x - toRat y) (fsub d x y) := by
  rw [sub_eq_add_neg, ← toRat_fneg]
  exact roundedTo_fadd d hx (by rwa [isFinite_fneg])

theorem roundedTo_fmul : RoundedTo (toRat x * toRat y) (fmul d x y) := by
  rw [fmul_of_isFinite hx hy, toRat_mul]
  exact roundedTo_packF64 _ _ (by unfold unitsPerOne; positivity)

theorem roundedTo_fdiv (h0 : isZero y = false) : RoundedTo (toRat x / toRat y) (fdiv d x y) := by
  rw [fdiv_of_isFinite hx hy h0, toRat_div]
  exact roundedTo_packF64 _ _ (magUnits_pos h0)

/-- An exact zero sum is `-0.0` when both terms are negative, else `+0.0` (R66). -/
theorem fadd_of_sum_zero (h0 : toRat x + toRat y = 0) :
    fadd d x y = if signBit x = true ∧ signBit y = true then negZero else posZero := by
  rw [fadd_of_isFinite hx hy, if_pos (toRat_add_eq_zero_iff.1 h0)]
  cases signBit x <;> cases signBit y <;> rfl

theorem fsub_of_difference_zero (h0 : toRat x - toRat y = 0) :
    fsub d x y = if signBit x = true ∧ signBit y = false then negZero else posZero := by
  rw [sub_eq_add_neg, ← toRat_fneg] at h0
  rw [fsub, fadd_of_sum_zero d hx (by rwa [isFinite_fneg]) h0]
  simp only [signBit_fneg, Bool.not_eq_true']

theorem signBit_fmul : signBit (fmul d x y) = true ↔ signBit x ≠ signBit y := by
  rw [fmul_of_isFinite hx hy, signBit_packF64 (lt_two_pow_of_le_infBits (roundBits_le _ _)), bne_iff_ne]

theorem signBit_fdiv (h0 : isZero y = false) : signBit (fdiv d x y) = true ↔ signBit x ≠ signBit y := by
  rw [fdiv_of_isFinite hx hy h0, signBit_packF64 (lt_two_pow_of_le_infBits (roundBits_le _ _)), bne_iff_ne]

end Sys2Proof.Claims
end

section
open Sys2Proof.Machine

namespace Sys2Proof.Claims

/-- Settles O48: each operation packs `roundBits` of its exact result, which is the nearest magnitude, under the exact result's sign. -/
theorem operationsRoundToNearestEven : Obligations.OperationsRoundToNearestEven :=
  ⟨fun d _ _ hx hy => ⟨roundedTo_fadd d hx hy, roundedTo_fsub d hx hy, roundedTo_fmul d hx hy, roundedTo_fdiv d hx hy,
    fadd_of_sum_zero d hx hy, fsub_of_difference_zero d hx hy, signBit_fmul d hx hy, signBit_fdiv d hx hy⟩,
    fun _ h => f64_exact h⟩

end Sys2Proof.Claims
end

section
/-! What a step can do (R13, R25, R46, R118), said once. -/

open Sys2Proof.Machine

namespace Sys2Proof.Claims

theorem step_of_runsNext {s : State} (h : RunsNext s) : step s = runCommand s := by
  obtain ⟨hbusy, hlate⟩ := h
  unfold step
  split
  · rw [if_pos hbusy]
  · next e rest hp => rw [if_pos (by simp [hbusy, hlate e rest hp])]

theorem step_of_accessNext {s : State} {a : Access} {rest : List HostEvent} (h : AccessNext s a rest) :
    step s = hostAccess Config.units a { s with pending := rest } := by
  obtain ⟨early, hp, hearly⟩ := h
  unfold step
  rw [hp]
  exact if_neg (by simpa using hearly)

theorem step_of_idle {s : State} (hb : s.status.busy = false) (hp : s.pending = []) : step s = .next s := by
  unfold step
  rw [hp]
  exact if_neg (by simp [hb])

theorem runCommand_of_decode {s : State} {i : Instr} (h : decode s.cmd = .ok i) : runCommand s = exec i s := by
  rw [runCommand, h]

/-- A block runs its latched command next, or an access comes next, or it is idle and nothing comes. -/
theorem runsNext_or_accessNext_or_idle (s : State) :
    RunsNext s ∨ (∃ a rest, AccessNext s a rest) ∨ (s.status.busy = false ∧ s.pending = []) := by
  rcases hp : s.pending with _ | ⟨⟨early, a⟩, rest⟩
  · cases hb : s.status.busy with
    | true => exact .inl ⟨hb, fun e rest h => by simp [hp] at h⟩
    | false => exact .inr (.inr ⟨rfl, rfl⟩)
  · by_cases hl : s.status.busy = true ∧ early = false
    · refine .inl ⟨hl.1, fun e rest' h => ?_⟩
      rw [hp, List.cons.injEq] at h
      rw [← h.1]
      exact hl.2
    · exact .inr (.inl ⟨a, rest, early, hp, fun hb => by simpa [hb] using hl⟩)

/-- The ways a step can answer a next state. -/
theorem step_next {s t : State} (h : step s = .next t) :
    t = s ∨ (RunsNext s ∧ t = s.finish .illegalCommand) ∨ (RunsNext s ∧ ∃ i, decode s.cmd = .ok i ∧ exec i s = .next t) ∨
    ∃ a rest, AccessNext s a rest ∧ hostAccess Config.units a { s with pending := rest } = .next t := by
  rcases runsNext_or_accessNext_or_idle s with hr | ⟨a, rest, ha⟩ | ⟨hb, hp⟩
  · rw [step_of_runsNext hr, runCommand] at h
    split at h
    · next i hi => exact .inr (.inr (.inl ⟨hr, i, hi, h⟩))
    · cases h
      exact .inr (.inl ⟨hr, rfl⟩)
  · exact .inr (.inr (.inr ⟨a, rest, ha, by rwa [step_of_accessNext ha] at h⟩))
  · rw [step_of_idle hb hp] at h
    cases h
    exact .inl rfl

end Sys2Proof.Claims
end

section
/-! A command is determined by its latched arguments, the parameters, the contexts, the data memory and the counter of draws: what it
does said once, for every block that agrees on these (R19, R26, R35, R107, R113). -/

namespace Sys2Proof.Machine

/-- `o` with everything that a running command reads taken from `s`. -/
def State.withInputs (o s : State) : State :=
  { o with args := s.args, caps := s.caps, ctxs := s.ctxs, dmem := s.dmem, draws := s.draws }

/-- What a command leaves: its error, the data memory, the contexts, and whether it sets `UNDEF`. -/
structure Effect where
  err : Err
  dmem : Memory
  ctxs : Vector Context 16
  marks : Bool

/-- The state after a command with this effect. -/
def Effect.apply (r : Effect) (s : State) : State :=
  State.finish
    { s with dmem := r.dmem, ctxs := r.ctxs, status := { s.status with undef := s.status.undef || r.marks } } r.err

/-- From every state with the inputs of `s`, the command `f` has one and the same effect or one and the same fault; it sets `UNDEF`
exactly when it succeeds and `marks` holds. -/
def Determined (f : State → Answer) (s : State) (marks : Prop) : Prop :=
  (∃ r : Effect, (r.marks = true ↔ r.err = .ok ∧ marks) ∧
    ∀ o : State, f (o.withInputs s) = .next (r.apply (o.withInputs s))) ∨
  ∃ x : Fault, ∀ o : State, f (o.withInputs s) = .fault x

section Inputs
variable (o s : State)

@[simp] theorem withInputs_self : s.withInputs s = s := rfl
@[simp] theorem withInputs_dmem : (o.withInputs s).dmem = s.dmem := rfl
@[simp] theorem withInputs_arg (i : Fin 5) : (o.withInputs s).arg i = s.arg i := rfl
@[simp] theorem withInputs_ctx (x : Nat) : (o.withInputs s).ctx x = s.ctx x := rfl
@[simp] theorem withInputs_supply (u : Units) : (o.withInputs s).supply u = s.supply u := rfl
@[simp] theorem withInputs_runArgs : runArgs (o.withInputs s) = runArgs s := rfl
@[simp] theorem withInputs_newContext (u : Units) (h : List F64) : newContext u (o.withInputs s) h = newContext u s h := rfl
@[simp] theorem withInputs_setirContext (u : Units) (c : Context) (h : List F64) :
    setirContext u (o.withInputs s) c h = setirContext u s c h := rfl
@[simp] theorem withInputs_checkBitrev : checkBitrev (o.withInputs s) = checkBitrev s := rfl
@[simp] theorem withInputs_checkFftFwd : checkFftFwd (o.withInputs s) = checkFftFwd s := rfl
@[simp] theorem withInputs_checkFftInv : checkFftInv (o.withInputs s) = checkFftInv s := rfl
@[simp] theorem withInputs_checkFftMag : checkFftMag (o.withInputs s) = checkFftMag s := rfl
@[simp] theorem withInputs_checkCmac : checkCmac (o.withInputs s) = checkCmac s := rfl
@[simp] theorem withInputs_checkConvNew (x : Nat) : checkConvNew x (o.withInputs s) = checkConvNew x s := rfl
@[simp] theorem withInputs_checkConvSetir (x : Nat) : checkConvSetir x (o.withInputs s) = checkConvSetir x s := rfl
@[simp] theorem withInputs_checkConvRun (x : Nat) : checkConvRun x (o.withInputs s) = checkConvRun x s := rfl
end Inputs

section Determined
variable {f : State → Answer} {s : State} {marks : Prop}

theorem determined_of_fault (x : Fault) (h : ∀ o : State, f (o.withInputs s) = .fault x) : Determined f s marks := .inr ⟨x, h⟩

/-- An effect that sets no flag. -/
theorem determined_of_effect (e : Err) (m : Memory) (cs : Vector Context 16) (hm : ¬ (e = .ok ∧ marks))
    (h : ∀ o : State, f (o.withInputs s) = .next (State.finish { o.withInputs s with dmem := m, ctxs := cs } e)) :
    Determined f s marks :=
  .inl ⟨⟨e, m, cs, false⟩, by simpa using hm, fun o => by simp [h, Effect.apply]⟩

theorem determined_of_raise {e : Err} (he : e ≠ .ok) (h : ∀ o : State, f (o.withInputs s) = (o.withInputs s).raise e) :
    Determined f s marks :=
  determined_of_effect e s.dmem s.ctxs (fun hm => he hm.1) h

/-- A success that stores to the data memory. -/
theorem determined_of_store (m : Memory)
    (h : ∀ o : State, f (o.withInputs s) = .next (State.finish { o.withInputs s with dmem := m } .ok)) : Determined f s False :=
  determined_of_effect .ok m s.ctxs (fun h => h.2) h

theorem Determined.congr {marks' : Prop} (h : Determined f s marks) (hm : marks ↔ marks') : Determined f s marks' := by
  rwa [← propext hm]
end Determined

theorem execNop_determined (s : State) : Determined execNop s False :=
  determined_of_store s.dmem fun _ => rfl

theorem execBitrev_determined (s : State) : Determined execBitrev s False := by
  rcases hc : checkBitrev s with _ | e
  · rcases hv : loadC s.dmem (s.arg 0) (s.arg 1) with _ | v
    · exact determined_of_fault .unwrittenWord fun o => by simp [execBitrev, bitrev, hc, hv]
    · exact determined_of_store (storeC s.dmem (s.arg 0) (reorder v)) fun o => by simp [execBitrev, bitrev, hc, hv]
  · exact determined_of_raise (checkBitrev_ne_ok s e hc) fun o => by simp [execBitrev, bitrev, hc]

theorem execFftFwd_determined (s : State) : Determined execFftFwd s False := by
  rcases hc : checkFftFwd s with _ | e
  · by_cases h2 : s.arg 1 = 2
    · exact determined_of_store s.dmem fun o => by simp [execFftFwd, fftFwd, hc, h2]; rfl
    · rcases hv : loadC s.dmem (s.arg 0) (s.arg 1) with _ | v
      · exact determined_of_fault .unwrittenWord fun o => by simp [execFftFwd, fftFwd, hc, h2, hv]
      · exact determined_of_store (storeC s.dmem (s.arg 0) (fwd Config.units (s.supply Config.units) v))
          fun o => by simp [execFftFwd, fftFwd, hc, h2, hv]
  · exact determined_of_raise (checkFftFwd_ne_ok s e hc) fun o => by simp [execFftFwd, fftFwd, hc]

theorem execFftInv_determined (s : State) : Determined execFftInv s False := by
  rcases hc : checkFftInv s with _ | e
  · rcases hv : loadC s.dmem (s.arg 0) (s.arg 1) with _ | v
    · exact determined_of_fault .unwrittenWord fun o => by simp [execFftInv, fftInv, hc, hv]
    · exact determined_of_store (storeC s.dmem (s.arg 0) (inv Config.units (s.supply Config.units) v))
        fun o => by simp [execFftInv, fftInv, hc, hv]
  · exact determined_of_raise (checkFftInv_ne_ok s e hc) fun o => by simp [execFftInv, fftInv, hc]

theorem execFftMag_determined (s : State) : Determined execFftMag s False := by
  rcases hc : checkFftMag s with _ | e
  · rcases hm : magLoop Config.units (s.supply Config.units) (s.arg 0) (s.arg 2) (s.arg 3) (s.arg 3) 0 s.dmem with _ | m
    · exact determined_of_fault .unwrittenWord fun o => by simp [execFftMag, fftMag, hc, hm]
    · exact determined_of_store m fun o => by simp [execFftMag, fftMag, hc, hm]
  · exact determined_of_raise (checkFftMag_ne_ok s e hc) fun o => by simp [execFftMag, fftMag, hc]

theorem execCmac_determined (s : State) : Determined execCmac s False := by
  rcases hc : checkCmac s with _ | e
  · rcases hm : cmacLoop (s.supply Config.units) (s.arg 0) (s.arg 1) (s.arg 2) (s.arg 3) 0 s.dmem with _ | m
    · exact determined_of_fault .unwrittenWord fun o => by simp [execCmac, cmac, hc, hm]
    · exact determined_of_store m fun o => by simp [execCmac, cmac, hc, hm]
  · exact determined_of_raise (checkCmac_ne_ok s e hc) fun o => by simp [execCmac, cmac, hc]

theorem execConvNew_determined (x : Nat) (s : State) : Determined (execConvNew x) s False := by
  rcases hc : checkConvNew x s with _ | e
  · rcases hv : loadR s.dmem (s.arg 3) (truncatedIr (s.arg 4)) with _ | ir
    · exact determined_of_fault .unwrittenWord fun o => by simp [execConvNew, convNew, hc, hv]
    · exact determined_of_effect .ok s.dmem (s.ctxs.setIfInBounds x (newContext Config.units s ir)) (fun h => h.2)
        fun o => by simp [execConvNew, convNew, hc, hv]; rfl
  · exact determined_of_raise (checkConvNew_ne_ok x s e hc) fun o => by simp [execConvNew, convNew, hc]

/-- `CONV_SETIR` sets `UNDEF` inside a block, whatever `UNDEF` was (R94, R113). -/
theorem execConvSetir_determined (x : Nat) (s : State) : Determined (execConvSetir x) s ((s.ctx x).inputPos ≠ 0) := by
  rcases hc : checkConvSetir x s with _ | e
  · rcases hv : loadR s.dmem (s.arg 3) (truncatedIr (s.arg 4)) with _ | ir
    · exact determined_of_fault .unwrittenWord fun o => by simp [execConvSetir, convSetir, hc, hv]
    · refine .inl ⟨⟨.ok, s.dmem, s.ctxs.setIfInBounds x (setirContext Config.units s (s.ctx x) ir),
        decide ((s.ctx x).inputPos ≠ 0)⟩, by simp, fun o => ?_⟩
      simp only [execConvSetir, convSetir, withInputs_checkConvSetir, withInputs_dmem, withInputs_arg, withInputs_ctx, hc, hv]
      by_cases hp : (s.ctx x).inputPos = 0
      · simp [markPartialBlock, Effect.apply, hp]; rfl
      · simp [markPartialBlock, Effect.apply, hp]; rfl
  · exact determined_of_raise (checkConvSetir_ne_ok x s e hc) fun o => by simp [execConvSetir, convSetir, hc]

theorem execConvRun_determined (x : Nat) (s : State) : Determined (execConvRun x) s False := by
  rcases hc : checkConvRun x s with _ | e
  · rcases hr : convLoop Config.units (s.supply Config.units) (runArgs s) (s.arg 4) 0 (s.ctx x) s.dmem with f | ⟨c, m⟩
    · exact determined_of_fault f fun o => by simp [execConvRun, convRun, hc, hr]
    · exact determined_of_effect .ok m (s.ctxs.setIfInBounds x c) (fun h => h.2)
        fun o => by simp [execConvRun, convRun, hc, hr]; rfl
  · exact determined_of_raise (checkConvRun_ne_ok x s e hc) fun o => by simp [execConvRun, convRun, hc]

/-- What every command can do, said once. -/
theorem exec_determined (i : Instr) (s : State) : Determined (exec i) s (∃ x, i = .convSetir x ∧ (s.ctx x).inputPos ≠ 0) := by
  cases i with
  | nop => exact (execNop_determined s).congr (by simp)
  | bitrev => exact (execBitrev_determined s).congr (by simp)
  | fftFwd => exact (execFftFwd_determined s).congr (by simp)
  | fftInv => exact (execFftInv_determined s).congr (by simp)
  | fftMag => exact (execFftMag_determined s).congr (by simp)
  | cmac => exact (execCmac_determined s).congr (by simp)
  | convNew x => exact (execConvNew_determined x s).congr (by simp)
  | convSetir x => exact (execConvSetir_determined x s).congr (by simp)
  | convRun x => exact (execConvRun_determined x s).congr (by simp)

/-- A command that answers a next state has one effect, on every block with its inputs. -/
theorem exec_next {i : Instr} {s t : State} (h : exec i s = .next t) :
    ∃ r : Effect, t = r.apply s ∧ (r.marks = true ↔ r.err = .ok ∧ ∃ x, i = .convSetir x ∧ (s.ctx x).inputPos ≠ 0) ∧
      ∀ o : State, exec i (o.withInputs s) = .next (r.apply (o.withInputs s)) := by
  rcases exec_determined i s with ⟨r, hm, hr⟩ | ⟨x, hx⟩
  · have hs := hr s
    rw [withInputs_self, h, Host.Outcome.next.injEq] at hs
    exact ⟨r, hs, hm, hr⟩
  · have hs := hx s
    rw [withInputs_self, h] at hs
    cases hs

theorem exec_fault {i : Instr} {s : State} {f : Fault} (h : exec i s = .fault f) (o : State) :
    exec i (o.withInputs s) = .fault f := by
  rcases exec_determined i s with ⟨r, -, hr⟩ | ⟨x, hx⟩
  · have hs := hr s
    rw [withInputs_self, h] at hs
    cases hs
  · have hs := hx s
    rw [withInputs_self, h] at hs
    rw [hs, hx]

/-- Every command has a meaning. -/
theorem exec_ne_refused (i : Instr) (s : State) (r : Refusal) : exec i s ≠ .refused r := by
  intro h
  rcases exec_determined i s with ⟨_, -, hs⟩ | ⟨_, hs⟩ <;>
    · have hs := hs s
      rw [withInputs_self, h] at hs
      cases hs

end Sys2Proof.Machine
end

section
open Sys2Proof.Machine

namespace Sys2Proof.Claims

/-- Settles O5: no access comes first, so the step runs the latched word, which decodes to the instruction. -/
theorem stepRunsTheLatchedCommand : Obligations.StepRunsTheLatchedCommand :=
  fun _ _ hr hi => (step_of_runsNext hr).trans (runCommand_of_decode hi)

/-- Settles O6, by the two other cases of a step. -/
theorem stepMakesTheNextAccess : Obligations.StepMakesTheNextAccess :=
  ⟨fun _ _ _ h => step_of_accessNext h, fun _ hb hp => step_of_idle hb hp⟩

/-- Settles O14: a command's effect is an error, a data memory, contexts and `UNDEF`. -/
theorem commandsLeaveTheRegisters : Obligations.CommandsLeaveTheRegisters := by
  intro i s t h
  obtain ⟨r, rfl, -, -⟩ := exec_next h
  exact ⟨rfl, rfl, rfl, rfl, rfl, rfl, rfl, rfl, rfl⟩

/-- Settles O16: the state with other flags has the same inputs, so the command has the same effect or the same fault there. -/
theorem commandsIgnoreTheFlags : Obligations.CommandsIgnoreTheFlags := by
  refine fun i s => ⟨fun t h => ?_, fun f h e undef ovr => exec_fault h (withFlags s e undef ovr)⟩
  obtain ⟨r, rfl, hmarks, hr⟩ := exec_next h
  exact ⟨r.marks, hmarks, fun e undef ovr => hr (withFlags s e undef ovr)⟩

end Sys2Proof.Claims
end

section
/-! The check of each command passes exactly when none of the conditions of R109 and R110 fails, and then the words it stores are
inside the data memory. -/

open Sys2Proof.Machine

namespace Sys2Proof.Claims

theorem noneFails_nil : NoneFails [] ↔ True := by simp [NoneFails]

theorem noneFails_cons (q : Prop × Err) (checks : List (Prop × Err)) :
    NoneFails (q :: checks) ↔ ¬ q.1 ∧ NoneFails checks := by
  simp [NoneFails]

/-- A chain of checks passes when its first one does and the rest does. -/
theorem check_eq_none_iff {p : Prop} [Decidable p] {e : Err} {rest : Option Err} :
    (if p then some e else rest) = none ↔ ¬ p ∧ rest = none := by
  by_cases hp : p <;> simp [hp]

theorem inRangeReal_iff {s : State} {base n : Nat} : inRangeReal s base n = true ↔ Inside s base n := by
  simp [inRangeReal, Inside]

theorem inRangeComplex_iff {s : State} {base n : Nat} : inRangeComplex s base n = true ↔ Inside s base (2 * n) := by
  simp [inRangeComplex, Inside]

section Checks
variable {s : State} {x : Nat}

theorem checkBitrev_eq_none_iff : checkBitrev s = none ↔ NoneFails (checksOf .bitrev s) := by
  simp only [checkBitrev, checksOf, check_eq_none_iff, noneFails_cons, noneFails_nil, Bool.not_eq_true', Bool.not_eq_false,
    isPowerOfTwo_iff, inRangeComplex_iff, not_not]

theorem checkFftFwd_eq_none_iff : checkFftFwd s = none ↔ NoneFails (checksOf .fftFwd s) := by
  by_cases h2 : s.arg 1 = 2
  · simp [checkFftFwd, checksOf, h2, noneFails_cons, noneFails_nil]
  · simp only [checkFftFwd, checksOf, if_neg h2, check_eq_none_iff, noneFails_cons, noneFails_nil, Bool.not_eq_true',
      Bool.not_eq_false, isPowerOfTwo_iff, inRangeComplex_iff]
    simp [h2]

theorem checkFftInv_eq_none_iff : checkFftInv s = none ↔ NoneFails (checksOf .fftInv s) := by
  simp only [checkFftInv, checksOf, check_eq_none_iff, noneFails_cons, noneFails_nil, Bool.not_eq_true', Bool.not_eq_false,
    Bool.and_eq_true, decide_eq_true_eq, ← isPowerOfTwo_iff, Bool.not_eq_true, inRangeComplex_iff, not_not]

theorem checkFftMag_eq_none_iff : checkFftMag s = none ↔ NoneFails (checksOf .fftMag s) := by
  simp only [checkFftMag, checksOf, check_eq_none_iff, noneFails_cons, noneFails_nil, Bool.not_eq_true', Bool.not_eq_false,
    Bool.and_eq_true, inRangeReal_iff, inRangeComplex_iff, not_not]

theorem checkCmac_eq_none_iff : checkCmac s = none ↔ NoneFails (checksOf .cmac s) := by
  simp only [checkCmac, checksOf, check_eq_none_iff, noneFails_cons, noneFails_nil, Bool.not_eq_true', Bool.not_eq_false,
    Bool.and_eq_true, inRangeComplex_iff, not_not, and_assoc]

theorem checkConvNew_eq_none_iff : checkConvNew x s = none ↔ NoneFails (checksOf (.convNew x) s) := by
  simp only [checkConvNew, checksOf, check_eq_none_iff, noneFails_cons, noneFails_nil, Bool.not_eq_true', Bool.not_eq_false,
    decide_eq_true_eq, inRangeReal_iff, not_not]
  rfl

theorem checkConvSetir_eq_none_iff : checkConvSetir x s = none ↔ NoneFails (checksOf (.convSetir x) s) := by
  simp only [checkConvSetir, checksOf, check_eq_none_iff, noneFails_cons, noneFails_nil, Bool.not_eq_true', Bool.not_eq_false,
    inRangeReal_iff, not_not]
  rfl

theorem checkConvRun_eq_none_iff : checkConvRun x s = none ↔ NoneFails (checksOf (.convRun x) s) := by
  simp only [checkConvRun, checksOf, check_eq_none_iff, noneFails_cons, noneFails_nil, Bool.not_eq_true', Bool.not_eq_false,
    Bool.and_eq_true, inRangeReal_iff, not_not]

end Checks

/-- A buffer that is empty unless `p` holds is inside the data memory when `p` puts it there. -/
theorem inside_ite {s : State} {p : Prop} [Decidable p] {base n : Nat} (h : p → Inside s base n) :
    Inside s (if p then (base, n) else (0, 0)).1 (if p then (base, n) else (0, 0)).2 := by
  split
  · exact h ‹_›
  · exact .inl rfl

/-- The words that a command stores are inside the data memory (R44, R110). -/
theorem storeBuffer_inside (i : Instr) (s : State) : Inside s (storeBuffer i s).1 (storeBuffer i s).2 := by
  cases i with
  | nop => exact .inl rfl
  | convNew x => exact .inl rfl
  | convSetir x => exact .inl rfl
  | bitrev =>
    refine inside_ite fun h => ?_
    have hin := checkBitrev_eq_none_iff.1 (Option.isNone_iff_eq_none.1 h) _ (.tail _ (.tail _ (.head _)))
    exact not_not.1 hin
  | fftFwd =>
    refine inside_ite fun ⟨h, h2⟩ => ?_
    have hin := checkFftFwd_eq_none_iff.1 (Option.isNone_iff_eq_none.1 h) _ (.tail _ (.tail _ (.head _)))
    exact not_not.1 fun ho => hin ⟨h2, ho⟩
  | fftInv =>
    refine inside_ite fun h => ?_
    have hin := checkFftInv_eq_none_iff.1 (Option.isNone_iff_eq_none.1 h) _ (.tail _ (.tail _ (.head _)))
    exact not_not.1 hin
  | fftMag =>
    refine inside_ite fun h => ?_
    have hin := checkFftMag_eq_none_iff.1 (Option.isNone_iff_eq_none.1 h) _ (.tail _ (.head _))
    exact (not_not.1 hin).1
  | cmac =>
    refine inside_ite fun h => ?_
    have hin := checkCmac_eq_none_iff.1 (Option.isNone_iff_eq_none.1 h) _ (.head _)
    exact (not_not.1 hin).1
  | convRun x =>
    refine inside_ite fun h => ?_
    have hin := checkConvRun_eq_none_iff.1 (Option.isNone_iff_eq_none.1 h) _ (.tail _ (.tail _ (.head _)))
    exact (not_not.1 hin).1

theorem abandonedBuffer_inside (s : State) : Inside s (abandonedBuffer s).1 (abandonedBuffer s).2 := by
  unfold abandonedBuffer
  split
  · exact storeBuffer_inside _ s
  · exact .inl rfl

/-! What a command does to the data memory. -/

/-- `m'` is `m` after stores to the words of the buffer `b` at most: every other byte is unchanged, and a canonical form stays one. -/
def StoredWithin (b : Nat × Nat) (m m' : Memory) : Prop := SameOutside m m' b.1 b.2 ∧ (m.wf = true → m'.wf = true)

theorem storedWithin_self (b : Nat × Nat) (m : Memory) : StoredWithin b m m := ⟨fun _ _ => rfl, id⟩

theorem storedWithin_storeC {m : Memory} {base n : Nat} {zs : List Cplx} (h : zs.length = n) :
    StoredWithin (base, 2 * n) m (storeC m base zs) := by
  subst h
  exact ⟨fun x hx => get_storeC_other zs m base x hx, wf_storeC zs m base⟩

/-- A command stores only to its buffer (R34, R120). -/
theorem exec_storedWithin {i : Instr} {s t : State} (h : exec i s = .next t) : StoredWithin (storeBuffer i s) s.dmem t.dmem := by
  cases i with
  | nop => cases h; exact storedWithin_self _ _
  | bitrev =>
    rcases execBitrev_next h with ⟨e, -, rfl⟩ | ⟨hc, v, hv, rfl⟩
    · exact storedWithin_self _ _
    · rw [show storeBuffer .bitrev s = (s.arg 0, 2 * s.arg 1) by simp [storeBuffer, hc]]
      exact storedWithin_storeC ((reorder_length v).trans (loadC_eq_some.1 hv).1)
  | fftFwd =>
    rcases execFftFwd_next h with ⟨e, -, rfl⟩ | ⟨-, rfl⟩ | ⟨hc, h2, v, hv, rfl⟩
    · exact storedWithin_self _ _
    · exact storedWithin_self _ _
    · rw [show storeBuffer .fftFwd s = (s.arg 0, 2 * s.arg 1) by simp [storeBuffer, hc, h2]]
      exact storedWithin_storeC ((fwd_length _ _ v).trans (loadC_eq_some.1 hv).1)
  | fftInv =>
    rcases execFftInv_next h with ⟨e, -, rfl⟩ | ⟨hc, v, hv, rfl⟩
    · exact storedWithin_self _ _
    · rw [show storeBuffer .fftInv s = (s.arg 0, 2 * s.arg 1) by simp [storeBuffer, hc]]
      exact storedWithin_storeC ((inv_length _ _ v).trans (loadC_eq_some.1 hv).1)
  | fftMag =>
    rcases execFftMag_next h with ⟨e, -, rfl⟩ | ⟨hc, m, hm, rfl⟩
    · exact storedWithin_self _ _
    · have hlen : s.arg 1 = s.arg 3 := not_not.1 (checkFftMag_eq_none_iff.1 hc _ (.head _))
      rw [show storeBuffer .fftMag s = (s.arg 0, s.arg 1) by simp [storeBuffer, hc], hlen]
      exact ⟨fun x hx => get_magLoop_other _ _ _ _ _ _ _ _ _ hm x hx, wf_magLoop _ _ _ _ _ _ _ _ _ hm⟩
  | cmac =>
    rcases execCmac_next h with ⟨e, -, rfl⟩ | ⟨hc, m, hm, rfl⟩
    · exact storedWithin_self _ _
    · rw [show storeBuffer .cmac s = (s.arg 0, 2 * s.arg 3) by simp [storeBuffer, hc]]
      exact ⟨fun x hx => get_cmacLoop_other _ _ _ _ _ _ _ _ hm x (by simpa using hx), wf_cmacLoop _ _ _ _ _ _ _ _ hm⟩
  | convNew x =>
    rcases execConvNew_next h with ⟨e, -, rfl⟩ | ⟨-, ir, -, rfl⟩
    · exact storedWithin_self _ _
    · exact storedWithin_self _ _
  | convSetir x =>
    rcases execConvSetir_next h with ⟨e, -, rfl⟩ | ⟨-, ir, -, rfl⟩
    · exact storedWithin_self _ _
    · simpa using storedWithin_self _ s.dmem
  | convRun x =>
    rcases execConvRun_next h with ⟨e, -, rfl⟩ | ⟨hc, c, m, hl, rfl⟩
    · exact storedWithin_self _ _
    · rw [show storeBuffer (.convRun x) s = (s.arg 0, s.arg 1) by simp [storeBuffer, hc]]
      exact convLoop_frame _ _ _ _ _ _ _ _ _ hl

end Sys2Proof.Claims
end

section
/-! What each access of the outside world does (R13, R119), said once. -/

namespace Sys2Proof.Machine

/-- What a host write to a register can do (R15, R16). -/
theorem writeReg_cases (s : State) (r : Reg) (v : Word) :
    writeReg s r v = s ∨ (s.status.busy = false ∧ writeReg s r v = s.latch v) ∨
    (s.status.busy = true ∧ writeReg s r v = { s with status := s.status.setOvr }) ∨
    (∃ b, writeReg s r v = { s with a := b }) ∨ ∃ c, writeReg s r v = { s with csel := c } := by
  cases r with
  | cmd =>
    by_cases hb : s.status.busy = true
    · exact .inr (.inr (.inl ⟨hb, if_pos hb⟩))
    · exact .inr (.inl ⟨by simpa using hb, if_neg hb⟩)
  | arg i => exact .inr (.inr (.inr (.inl ⟨_, rfl⟩)))
  | csel => exact .inr (.inr (.inr (.inr ⟨_, rfl⟩)))
  | _ => exact .inl rfl

/-- A register read changes the reply and the counter of draws alone (R42). -/
theorem readReg_eq (u : Units) (s : State) (r : Reg) : ∃ w n, readReg u s r = { s with reply := .reg w, draws := n } := by
  unfold readReg
  split
  · exact ⟨_, _, rfl⟩
  · exact ⟨_, s.draws, rfl⟩

/-- What one access can leave. -/
inductive AccessLeaves (u : Units) (s : State) : Access → State → Prop
  /-- A register write that is ignored. -/
  | ignores (offset width : Nat) (v : Word) : AccessLeaves u s (.regWrite offset width v) s
  /-- A `CMD` write to an idle block. -/
  | starts (offset width : Nat) (v : Word) (hb : s.status.busy = false) (hr : s.inReset = false) :
    AccessLeaves u s (.regWrite offset width v) (s.latch v)
  /-- A `CMD` write to a busy block. -/
  | overruns (offset width : Nat) (v : Word) : AccessLeaves u s (.regWrite offset width v) { s with status := s.status.setOvr }
  | writesArg (offset width : Nat) (v : Word) (b : Vector Word 5) : AccessLeaves u s (.regWrite offset width v) { s with a := b }
  | writesCsel (offset width : Nat) (v : Word) (c : BitVec 4) : AccessLeaves u s (.regWrite offset width v) { s with csel := c }
  | repliesReg (offset width : Nat) (r : Reply) (n : Nat) :
    AccessLeaves u s (.regRead offset width) { s with reply := r, draws := n }
  | repliesWord (addr : Word) (v : F64) : AccessLeaves u s (.dmemRead addr) { s with reply := .word v }
  | stores (addr : Word) (v : F64) (hb : s.status.busy = false) (ha : addr.toNat < s.caps.dmemWords) :
    AccessLeaves u s (.dmemWrite addr v) { s with dmem := s.dmem.write addr.toNat v }
  | resets : AccessLeaves u s .assertReset (assertReset u s)
  | releases : AccessLeaves u s .releaseReset { s with inReset := false }
  | powersOn : AccessLeaves u s .powerOn { State.resetBlock { s with inReset := true } with dmem := [] }

theorem hostAccess_next {u : Units} {a : Access} {s t : State} (h : hostAccess u a s = .next t) : AccessLeaves u s a t := by
  cases a with
  | regWrite offset width v =>
    rw [hostAccess] at h
    split at h
    · cases h; exact .ignores offset width v
    · next hr =>
      split at h
      · cases h
      · cases h
        rcases writeReg_cases s (regAt offset) v with e | ⟨hb, e⟩ | ⟨-, e⟩ | ⟨b, e⟩ | ⟨c, e⟩ <;> rw [e]
        · exact .ignores offset width v
        · exact .starts offset width v hb (by simpa using hr)
        · exact .overruns offset width v
        · exact .writesArg offset width v b
        · exact .writesCsel offset width v c
  | regRead offset width =>
    rw [hostAccess] at h
    split at h
    · cases h; exact .repliesReg _ _ .empty s.draws
    · split at h
      · cases h
      · cases h
        obtain ⟨w, n, e⟩ := readReg_eq u s (regAt offset)
        rw [e]
        exact .repliesReg _ _ (.reg w) n
  | dmemWrite addr v =>
    rw [hostAccess] at h
    split at h
    · cases h
    · next hb =>
      split at h
      · cases h
      · next ha => cases h; exact .stores addr v (by simpa using hb) (by omega)
  | dmemRead addr =>
    rw [hostAccess] at h
    split at h
    · cases h
    · split at h
      · cases h
      · split at h
        · next v _ => cases h; exact .repliesWord addr v
        · cases h
  | assertReset => cases h; exact .resets
  | releaseReset => cases h; exact .releases
  | powerOn => cases h; exact .powersOn

/-- Asserting reset resets the block, with some data memory and counter of draws (R119, R120). -/
theorem assertReset_eq (u : Units) (s : State) :
    ∃ m n, assertReset u s = State.resetBlock { s with dmem := m, inReset := true, draws := n } := by
  unfold assertReset
  split
  · exact ⟨_, _, rfl⟩
  · exact ⟨s.dmem, s.draws, rfl⟩

@[simp] theorem assertReset_caps (u : Units) (s : State) : (assertReset u s).caps = s.caps := by
  obtain ⟨m, n, h⟩ := assertReset_eq u s
  rw [h, resetBlock_caps]

@[simp] theorem assertReset_ctx (u : Units) (s : State) (x : Nat) : (assertReset u s).ctx x = Context.blank := by
  obtain ⟨m, n, h⟩ := assertReset_eq u s
  rw [h, resetBlock_ctx]

@[simp] theorem assertReset_status (u : Units) (s : State) : (assertReset u s).status = Status.reset := by
  obtain ⟨m, n, h⟩ := assertReset_eq u s
  rw [h, resetBlock_status]

theorem assertReset_dmem_of_idle (u : Units) {s : State} (h : s.status.busy = false) : (assertReset u s).dmem = s.dmem := by
  unfold assertReset
  rw [if_neg (by simp [h])]
  rfl

theorem assertReset_dmem_of_busy (u : Units) {s : State} (h : s.status.busy = true) :
    (assertReset u s).dmem = scramble (s.supply u) s.dmem (abandonedBuffer s).1 (abandonedBuffer s).2 0 := by
  unfold assertReset
  rw [if_pos h]
  rfl

end Sys2Proof.Machine
end

section
open Sys2Proof.Machine

namespace Sys2Proof.Claims

/-- Settles O11: an effect of a command and an access of the outside world both leave the capability registers. -/
theorem capabilityRegistersAreConstant : Obligations.CapabilityRegistersAreConstant := by
  intro s t h
  rcases step_next h with rfl | ⟨-, rfl⟩ | ⟨-, i, -, hi⟩ | ⟨a, rest, -, ha⟩
  · rfl
  · rfl
  · obtain ⟨r, rfl, -, -⟩ := exec_next hi
    rfl
  · cases hostAccess_next ha with
    | resets => exact assertReset_caps _ _
    | _ => rfl

/-- Settles O9: a command only ever adds to `UNDEF`, and of the accesses only the two resets write the sticky flags otherwise. -/
theorem stickyFlagsStay : Obligations.StickyFlagsStay := by
  intro s t h
  rcases step_next h with rfl | ⟨-, rfl⟩ | ⟨-, i, -, hi⟩ | ⟨a, rest, hnext, ha⟩
  · exact .inl ⟨id, id⟩
  · exact .inl ⟨id, id⟩
  · obtain ⟨r, rfl, -, -⟩ := exec_next hi
    exact .inl ⟨fun hu => by simp [Effect.apply, hu], id⟩
  · cases hostAccess_next ha with
    | resets => exact .inr ⟨rest, .inl hnext⟩
    | powersOn => exact .inr ⟨rest, .inr hnext⟩
    | overruns => exact .inl ⟨id, fun _ => rfl⟩
    | _ => exact .inl ⟨id, id⟩

end Sys2Proof.Claims
end

section
/-! The invariant of the machine (R28, R32, R34) in three parts: the data memory, the contexts, and the rest. -/

open Sys2Proof.Machine

namespace Sys2Proof.Claims

/-- The data memory is in canonical form and inside `DMEM_WORDS` (R34). -/
def MemoryOk (caps : Caps) (m : Memory) : Prop := m.wf = true ∧ ∀ a, (m.get a).isSome → a < 8 * caps.dmemWords

/-- A context at place `x`, if it is configured, exists and has its shape, and its frame buffer is padded unless the run is marked
faulty (R28, R32). -/
def ContextOk (caps : Caps) (faulty : Bool) (x : Nat) (c : Context) : Prop :=
  c.configured = true → x < caps.nctx ∧ c.Shaped caps ∧ (faulty = false → c.FramePadded)

/-- Every context meets `ContextOk`. -/
def ContextsOk (s : State) : Prop := ∀ x, ContextOk s.caps s.faulty x (s.ctx x)

theorem inv_iff {s : State} : s.Inv ↔ MemoryOk s.caps s.dmem ∧ ContextsOk s ∧ s.caps.legal = true ∧
    (s.inReset = true → s.status.busy = false) := by
  constructor
  · intro h
    exact ⟨⟨h.memory, h.bounded⟩, fun x hx => ⟨h.exist x hx, h.shaped x hx, fun hf => h.padded hf x hx⟩, h.parameters,
      h.resetIdle⟩
  · rintro ⟨⟨hwf, hbound⟩, hctx, hcaps, hreset⟩
    exact ⟨hwf, hbound, hcaps, fun x hx => (hctx x hx).1, fun x hx => (hctx x hx).2.1, fun hf x hx => (hctx x hx).2.2 hf, hreset⟩

/-! The data memory. -/

theorem memoryOk_nil (caps : Caps) : MemoryOk caps [] := ⟨rfl, fun _ h => by cases h⟩

/-- Stores inside the data memory keep it in form and in bounds. -/
theorem MemoryOk.store {s : State} {b : Nat × Nat} {m' : Memory} (h : MemoryOk s.caps s.dmem) (hin : Inside s b.1 b.2)
    (hst : StoredWithin b s.dmem m') : MemoryOk s.caps m' := by
  obtain ⟨hwf, hbound⟩ := h
  obtain ⟨hout, hkeep⟩ := hst
  refine ⟨hkeep hwf, fun a ha => ?_⟩
  by_cases hb : a / 8 < b.1 ∨ b.1 + b.2 ≤ a / 8
  · rw [hout a hb] at ha
    exact hbound a ha
  · have hin' : b.2 = 0 ∨ b.1 + b.2 ≤ s.caps.dmemWords := hin
    omega

theorem storedWithin_write (m : Memory) (addr : Nat) (v : F64) : StoredWithin (addr, 1) m (m.write addr v) :=
  ⟨fun x hx => by
    have hx' : x / 8 < addr ∨ addr + 1 ≤ x / 8 := hx
    rw [Memory.get_write, if_neg (by omega)], Memory.wf_write m addr v⟩

theorem storedWithin_scramble (κ : Draws) (m : Memory) (b : Nat × Nat) : StoredWithin b m (scramble κ m b.1 b.2 0) :=
  ⟨fun x hx => get_scramble_other κ m b.1 b.2 0 x (by simpa using hx), wf_scramble κ m b.1 b.2 0⟩

/-- A reset scrambles words inside the data memory (R120). -/
theorem assertReset_memoryOk (u : Units) {s : State} (h : MemoryOk s.caps s.dmem) : MemoryOk s.caps (assertReset u s).dmem := by
  cases hb : s.status.busy with
  | false => rwa [assertReset_dmem_of_idle u hb]
  | true =>
    rw [assertReset_dmem_of_busy u hb]
    exact h.store (abandonedBuffer_inside s) (storedWithin_scramble _ _ _)

theorem exec_memoryOk {i : Instr} {s t : State} (h : exec i s = .next t) (hm : MemoryOk s.caps s.dmem) : MemoryOk s.caps t.dmem :=
  hm.store (storeBuffer_inside i s) (exec_storedWithin h)

/-! The contexts. -/

theorem contextOk_blank (caps : Caps) (faulty : Bool) (x : Nat) : ContextOk caps faulty x Context.blank := fun h => by cases h

/-- The contexts stay in order when none of them changes and the run does not lose its fault mark. -/
theorem ContextsOk.congr {s t : State} (h : ContextsOk s) (hcaps : t.caps = s.caps) (hctx : ∀ x, t.ctx x = s.ctx x)
    (hf : t.faulty = false → s.faulty = false) : ContextsOk t := by
  intro x hx
  rw [hctx] at hx
  obtain ⟨hlt, hshape, hpad⟩ := h x hx
  rw [hcaps, hctx]
  exact ⟨hlt, hshape, fun ht => hpad (hf ht)⟩

/-- A context put at a place that exists keeps the contexts in order when it is. -/
theorem ContextsOk.setCtx {s : State} {x : Nat} {c : Context} (h : ContextsOk s) (hx : x < s.caps.nctx) (hs : c.Shaped s.caps)
    (hp : s.faulty = false → c.FramePadded) : ContextsOk (s.setCtx x c) := by
  intro y
  rw [setCtx_caps]
  by_cases hxy : x = y
  · subst hxy
    have hx16 : x < 16 := hx.trans_le s.caps.nctxLast.isLt
    rw [setCtx_ctx_self s x c hx16]
    exact fun _ => ⟨hx, hs, hp⟩
  · rw [setCtx_ctx_other s x c hxy]
    exact h y

/-- A pass that ends read only words that hold a value. -/
theorem laneReadable_of_convPass {u : Units} {κ : Draws} {a : RunArgs} {c c' : Context} {m m' : Memory} {nsp : Nat}
    (h : convPass u κ a c m nsp = some (c', m')) : LaneReadable a c m (passCount a c nsp) nsp := by
  rw [← gather_isSome]
  rw [convPass] at h
  cases hg : gather a c m (passCount a c nsp) nsp with
  | none => simp [hg] at h
  | some xs => rfl

/-- A `CONV_RUN` loop that ends keeps the shape of its context, its configuration and its padding (R32). -/
theorem convLoop_keeps {caps : Caps} {u : Units} {κ : Draws} {a : RunArgs} {fuel nsp : Nat} {c c' : Context} {m m' : Memory}
    (h : convLoop u κ a fuel nsp c m = .ok (c', m')) (hs : c.Shaped caps) :
    c'.Shaped caps ∧ (c.FramePadded → c'.FramePadded) := by
  induction fuel generalizing nsp c m with
  | zero =>
    rw [convLoop] at h
    split at h
    · cases h
    · cases h
      exact ⟨hs, id⟩
  | succ fuel ih =>
    rw [convLoop] at h
    split at h
    · split at h
      · next c₁ m₁ hpass =>
        obtain ⟨c₂, m₂, hpass', hs₂, -, hp₂, -⟩ := convPass_some hs u (κ.sub nsp) a m nsp (laneReadable_of_convPass hpass)
        obtain ⟨rfl, rfl⟩ : c₁ = c₂ ∧ m₁ = m₂ := by simpa [hpass] using hpass'
        obtain ⟨hs', hp'⟩ := ih h hs₂
        exact ⟨hs', fun hp => hp' (hp₂ hp)⟩
      · cases h
    · cases h
      exact ⟨hs, id⟩

/-- A command keeps the contexts in order. -/
theorem exec_contextsOk {i : Instr} {s t : State} (h : exec i s = .next t) (hs : ContextsOk s) : ContextsOk t := by
  have unchanged : t.caps = s.caps → t.ctxs = s.ctxs → t.status.undef = s.status.undef → ContextsOk t :=
    fun hcaps hctxs hundef => hs.congr hcaps (fun x => by rw [State.ctx, hctxs]; rfl) (fun hf => by rwa [State.faulty, hundef] at hf)
  cases i with
  | nop => cases h; exact unchanged rfl rfl rfl
  | bitrev => rcases execBitrev_next h with ⟨e, -, rfl⟩ | ⟨-, v, -, rfl⟩ <;> exact unchanged rfl rfl rfl
  | fftFwd => rcases execFftFwd_next h with ⟨e, -, rfl⟩ | ⟨-, rfl⟩ | ⟨-, -, v, -, rfl⟩ <;> exact unchanged rfl rfl rfl
  | fftInv => rcases execFftInv_next h with ⟨e, -, rfl⟩ | ⟨-, v, -, rfl⟩ <;> exact unchanged rfl rfl rfl
  | fftMag => rcases execFftMag_next h with ⟨e, -, rfl⟩ | ⟨-, m, -, rfl⟩ <;> exact unchanged rfl rfl rfl
  | cmac => rcases execCmac_next h with ⟨e, -, rfl⟩ | ⟨-, m, -, rfl⟩ <;> exact unchanged rfl rfl rfl
  | convNew x =>
    rcases execConvNew_next h with ⟨e, -, rfl⟩ | ⟨hc, ir, -, rfl⟩
    · exact unchanged rfl rfl rfl
    · have hx : x < s.caps.nctx := not_le.1 (checkConvNew_eq_none_iff.1 hc _ (.head _))
      obtain ⟨hshape, hpad⟩ := newContext_shaped Config.units x s ir hc
      exact hs.setCtx hx hshape fun _ => hpad
  | convSetir x =>
    rcases execConvSetir_next h with ⟨e, -, rfl⟩ | ⟨hc, ir, -, rfl⟩
    · exact unchanged rfl rfl rfl
    · have hx : x < s.caps.nctx := not_le.1 (checkConvSetir_eq_none_iff.1 hc _ (.head _))
      have hconf : (s.ctx x).configured = true := by simpa using checkConvSetir_eq_none_iff.1 hc _ (.tail _ (.head _))
      obtain ⟨-, hshape, hpad⟩ := hs x hconf
      obtain ⟨hshape', hpad'⟩ := setirContext_shaped Config.units x s ir hc hshape
      have hundef := markPartialBlock_undef s (s.ctx x)
      have hmarked : (markPartialBlock s (s.ctx x)).faulty = false → s.faulty = false ∧ (s.ctx x).inputPos = 0 := by
        simp [State.faulty, hundef]
      refine (hs.congr (markPartialBlock_caps _ _) (markPartialBlock_ctx s _) fun hf => (hmarked hf).1).setCtx ?_ ?_ ?_
      · rwa [markPartialBlock_caps]
      · rwa [markPartialBlock_caps]
      · exact fun hf => hpad' (hmarked hf).2 (hpad (hmarked hf).1)
  | convRun x =>
    rcases execConvRun_next h with ⟨e, -, rfl⟩ | ⟨hc, c, m, hl, rfl⟩
    · exact unchanged rfl rfl rfl
    · have hx : x < s.caps.nctx := not_le.1 (checkConvRun_eq_none_iff.1 hc _ (.head _))
      have hconf : (s.ctx x).configured = true := by simpa using checkConvRun_eq_none_iff.1 hc _ (.tail _ (.head _))
      obtain ⟨-, hshape, hpad⟩ := hs x hconf
      obtain ⟨hshape', hpad'⟩ := convLoop_keeps hl hshape
      exact (hs : ContextsOk { s with dmem := m }).setCtx hx hshape' fun hf => hpad' (hpad hf)

/-! The whole invariant. -/

theorem finish_inv {s : State} (h : s.Inv) (e : Err) : (s.finish e).Inv := by
  obtain ⟨hm, hc, hp, -⟩ := inv_iff.1 h
  exact inv_iff.2 ⟨hm, hc, hp, fun _ => rfl⟩

theorem exec_inv {i : Instr} {s t : State} (h : exec i s = .next t) (hs : s.Inv) : t.Inv := by
  obtain ⟨hm, hc, hp, -⟩ := inv_iff.1 hs
  have hm' := exec_memoryOk h hm
  have hc' := exec_contextsOk h hc
  obtain ⟨r, rfl, -, -⟩ := exec_next h
  exact inv_iff.2 ⟨hm', hc', hp, fun _ => rfl⟩

theorem hostAccess_inv {u : Units} {a : Access} {s t : State} (h : hostAccess u a s = .next t) (hs : s.Inv) : t.Inv := by
  obtain ⟨hm, hc, hp, hr⟩ := inv_iff.1 hs
  rw [inv_iff]
  cases hostAccess_next h with
  | ignores => exact ⟨hm, hc, hp, hr⟩
  | starts offset width v hb hreset => exact ⟨hm, hc, hp, fun hin => by simp [hreset] at hin⟩
  | overruns => exact ⟨hm, hc, hp, hr⟩
  | writesArg => exact ⟨hm, hc, hp, hr⟩
  | writesCsel => exact ⟨hm, hc, hp, hr⟩
  | repliesReg => exact ⟨hm, hc, hp, hr⟩
  | repliesWord => exact ⟨hm, hc, hp, hr⟩
  | stores addr v hb ha => exact ⟨hm.store (b := (addr.toNat, 1)) (.inr ha) (storedWithin_write _ _ _), hc, hp, hr⟩
  | resets =>
    rw [assertReset_caps, assertReset_status]
    exact ⟨assertReset_memoryOk u hm, fun x => by rw [assertReset_ctx]; exact contextOk_blank _ _ x, hp, fun _ => rfl⟩
  | releases => exact ⟨hm, hc, hp, fun h => by cases h⟩
  | powersOn =>
    refine ⟨memoryOk_nil _, fun x => ?_, hp, fun _ => rfl⟩
    rw [setDmem_ctx, resetBlock_ctx]
    exact contextOk_blank _ _ x

end Sys2Proof.Claims
end

section
open Sys2Proof.Machine

namespace Sys2Proof.Claims

/-- Settles O8: an illegal word only ends its command, every command and every access keep the invariant. -/
theorem stepKeepsTheInvariant : Obligations.StepKeepsTheInvariant := by
  intro s t hs h
  rcases step_next h with rfl | ⟨-, rfl⟩ | ⟨-, i, -, hi⟩ | ⟨a, rest, -, ha⟩
  · exact hs
  · exact finish_inv hs .illegalCommand
  · exact exec_inv hi hs
  · have hrest : State.Inv { s with pending := rest } := 
      ⟨hs.memory, hs.bounded, hs.parameters, hs.exist, hs.shaped, hs.padded, hs.resetIdle⟩
    exact hostAccess_inv ha hrest

end Sys2Proof.Claims
end

section
/-! A command that reads a word holding no value faults (R121). -/

open Sys2Proof.Machine

namespace Sys2Proof.Claims

theorem readable_iff {m : Memory} {base n : Nat} : Readable m base n ↔ ∀ t, t < n → (m.read (base + t)).isSome := by
  constructor
  · exact fun h t ht => h _ (by omega) (by omega)
  · intro h w h1 h2
    have hw := h (w - base) (by omega)
    rwa [Nat.add_sub_cancel' h1] at hw

theorem exists_missing_of_not_readable {m : Memory} {base n : Nat} (h : ¬ Readable m base n) :
    ∃ w, base ≤ w ∧ w < base + n ∧ m.read w = none := by
  simpa [Readable] using h

theorem loadR_eq_none {m : Memory} {base n : Nat} (h : ¬ Readable m base n) : loadR m base n = none := by
  rwa [readable_iff, ← loadR_isSome, Option.not_isSome_iff_eq_none] at h

theorem loadC_eq_none {m : Memory} {base n : Nat} (h : ¬ Readable m base (2 * n)) : loadC m base n = none := by
  rwa [readable_iff, ← loadC_isSome, Option.not_isSome_iff_eq_none] at h

/-- `FFT_MAG`'s loop stops at a missing source word that no store before its read supplies: the destination starts at or below the
source, or past the word. -/
theorem magLoop_eq_none {u : Units} {κ : Draws} {d s n k t w : Nat} {m : Memory} (hw : s + 2 * t ≤ w) (hw' : w < s + 2 * (t + k))
    (hd : d ≤ s ∨ w < d) (hm : m.read w = none) : magLoop u κ d s n k t m = none := by
  induction k generalizing t m with
  | zero => omega
  | succ k ih =>
    rw [magLoop]
    split
    · next x y hx hy =>
      have h0 : w ≠ s + 2 * t := fun h => by simp [← h, hm] at hx
      have h1 : w ≠ s + 2 * t + 1 := fun h => by simp [← h, hm] at hy
      refine ih (by omega) (by omega) ?_
      rwa [Memory.read_write_other m _ _ _ (by omega)]
    · rfl

theorem readC_eq_none {m : Memory} {a w : Nat} (hm : m.read w = none) (hw : w = a ∨ w = a + 1) : m.readC a = none := by
  rw [← Option.not_isSome_iff_eq_none, readC_isSome]
  rcases hw with rfl | rfl <;> simp [hm]

/-- `CMAC`'s loop stops at a missing word of one of the buffers it reads, when no store before its read supplies it: the accumulator
starts at or below that buffer, or past the word. -/
theorem cmacLoop_eq_none {κ : Draws} {p a b src n t w : Nat} {m : Memory} (hsrc : src ∈ [p, a, b]) (hw : src + 2 * t ≤ w)
    (hw' : w < src + 2 * (t + n)) (hd : p ≤ src ∨ w < p) (hm : m.read w = none) : cmacLoop κ p a b n t m = none := by
  induction n generalizing t m with
  | zero => omega
  | succ n ih =>
    rw [cmacLoop]
    split
    · next za zb zp ha hb hp =>
      have hread : (m.readC (src + 2 * t)).isSome := by
        simp only [List.mem_cons, List.not_mem_nil, or_false] at hsrc
        rcases hsrc with rfl | rfl | rfl
        · rw [hp]; rfl
        · rw [ha]; rfl
        · rw [hb]; rfl
      have hlater : ¬ (w = src + 2 * t ∨ w = src + 2 * t + 1) := fun h => by simp [readC_eq_none hm h] at hread
      refine ih (by omega) (by omega) ?_
      rwa [Memory.read_writeC, if_neg (by omega), if_neg (by omega)]
    · rfl

section Commands
variable {s : State} {x : Nat}

theorem execBitrev_fault (hc : NoneFails (checksOf .bitrev s)) (h : ¬ Readable s.dmem (s.arg 0) (2 * s.arg 1)) :
    execBitrev s = .fault .unwrittenWord := by
  simp [execBitrev, bitrev, checkBitrev_eq_none_iff.2 hc, loadC_eq_none h]

theorem execFftFwd_fault (hc : NoneFails (checksOf .fftFwd s)) (h2 : s.arg 1 ≠ 2)
    (h : ¬ Readable s.dmem (s.arg 0) (2 * s.arg 1)) : execFftFwd s = .fault .unwrittenWord := by
  simp [execFftFwd, fftFwd, checkFftFwd_eq_none_iff.2 hc, h2, loadC_eq_none h]

theorem execFftInv_fault (hc : NoneFails (checksOf .fftInv s)) (h : ¬ Readable s.dmem (s.arg 0) (2 * s.arg 1)) :
    execFftInv s = .fault .unwrittenWord := by
  simp [execFftInv, fftInv, checkFftInv_eq_none_iff.2 hc, loadC_eq_none h]

theorem execFftMag_fault (hc : NoneFails (checksOf .fftMag s)) (hd : s.arg 0 ≤ s.arg 2 ∨ s.arg 2 + 2 * s.arg 3 ≤ s.arg 0)
    (h : ¬ Readable s.dmem (s.arg 2) (2 * s.arg 3)) : execFftMag s = .fault .unwrittenWord := by
  obtain ⟨w, hw, hw', hm⟩ := exists_missing_of_not_readable h
  have hloop : magLoop Config.units (s.supply Config.units) (s.arg 0) (s.arg 2) (s.arg 3) (s.arg 3) 0 s.dmem = none :=
    magLoop_eq_none (w := w) (by omega) (by omega) (by omega) hm
  simp [execFftMag, fftMag, checkFftMag_eq_none_iff.2 hc, hloop]

/-- A missing word of the accumulator is the case of a source that starts at the accumulator. -/
theorem execCmac_fault {src : Nat} (hsrc : src ∈ [s.arg 0, s.arg 1, s.arg 2]) (hc : NoneFails (checksOf .cmac s))
    (hd : s.arg 0 ≤ src ∨ src + 2 * s.arg 3 ≤ s.arg 0) (h : ¬ Readable s.dmem src (2 * s.arg 3)) :
    execCmac s = .fault .unwrittenWord := by
  obtain ⟨w, hw, hw', hm⟩ := exists_missing_of_not_readable h
  have hloop : cmacLoop (s.supply Config.units) (s.arg 0) (s.arg 1) (s.arg 2) (s.arg 3) 0 s.dmem = none :=
    cmacLoop_eq_none (w := w) hsrc (by omega) (by omega) (by omega) hm
  simp [execCmac, cmac, checkCmac_eq_none_iff.2 hc, hloop]

theorem execConvNew_fault (hc : NoneFails (checksOf (.convNew x) s))
    (h : ¬ Readable s.dmem (s.arg 3) (truncatedIr (s.arg 4))) : execConvNew x s = .fault .unwrittenWord := by
  simp [execConvNew, convNew, checkConvNew_eq_none_iff.2 hc, loadR_eq_none h]

theorem execConvSetir_fault (hc : NoneFails (checksOf (.convSetir x) s))
    (h : ¬ Readable s.dmem (s.arg 3) (truncatedIr (s.arg 4))) : execConvSetir x s = .fault .unwrittenWord := by
  simp [execConvSetir, convSetir, checkConvSetir_eq_none_iff.2 hc, loadR_eq_none h]

theorem execConvRun_fault {t : Nat} (hc : NoneFails (checksOf (.convRun x) s)) (hs : (s.ctx x).Shaped s.caps)
    (hd : s.arg 0 ≤ s.arg 2 ∨ s.arg 2 + s.arg 3 ≤ s.arg 0) (ht : t < s.arg 4) (hin : laneIndex (s.ctx x) t < s.arg 3)
    (hm : s.dmem.read (s.arg 2 + laneIndex (s.ctx x) t) = none) : execConvRun x s = .fault .unwrittenWord := by
  have hloop : convLoop Config.units (s.supply Config.units) (runArgs s) (s.arg 4) 0 (s.ctx x) s.dmem = .error .unwrittenWord :=
    convLoop_unwritten _ _ (runArgs s) (s.arg 4) 0 _ _ hs (Nat.le_add_left _ _) t (Nat.zero_le t) ht hin hm hd
  simp [execConvRun, convRun, checkConvRun_eq_none_iff.2 hc, hloop]

end Commands

end Sys2Proof.Claims
end

section
open Sys2Proof.Machine

namespace Sys2Proof.Claims

/-- Settles O25, command by command: a load of a missing word fails, and a loop stops at the word before any store to it. -/
theorem unwrittenWordsFault : Obligations.UnwrittenWordsFault := fun _ =>
  ⟨execBitrev_fault, execFftFwd_fault, execFftInv_fault, execFftMag_fault,
    fun hc h => execCmac_fault (.head _) hc (.inl le_rfl) h,
    fun _ hsrc hc hd h => execCmac_fault (.tail _ hsrc) hc hd h,
    fun _ => execConvNew_fault, fun _ => execConvSetir_fault, fun _ _ => execConvRun_fault⟩

end Sys2Proof.Claims
end

section
/-! The host's accesses, equation by equation (R15 to R24, R34, R40, R119). -/

namespace Sys2Proof.Machine

/-! Data memory. -/

theorem getElem?_bytesOfNat {v n i : Nat} (h : i < n) : (bytesOfNat v n)[i]? = some (BitVec.ofNat 8 (v / 2 ^ (8 * i))) := by
  induction n generalizing v i with
  | zero => omega
  | succ n ih =>
    rw [bytesOfNat]
    cases i with
    | zero => simp
    | succ i =>
      rw [List.getElem?_cons_succ, ih (by omega), Nat.div_div_eq_div_mul]
      congr 3
      rw [Nat.mul_succ, Nat.pow_add, Nat.mul_comm]

theorem read_nil (w : Nat) : Memory.read [] w = none := rfl

section Dmem
variable (u : Units) {s : State} {addr : Word}

theorem hostAccess_dmemWrite (hb : s.status.busy = false) (ha : addr.toNat < s.caps.dmemWords) (v : F64) :
    hostAccess u (.dmemWrite addr v) s = .next { s with dmem := s.dmem.write addr.toNat v } := by
  simp [hostAccess, hb, ha]

theorem hostAccess_dmemRead_of_some (hb : s.status.busy = false) (ha : addr.toNat < s.caps.dmemWords) {v : F64}
    (hv : s.dmem.read addr.toNat = some v) : hostAccess u (.dmemRead addr) s = .next { s with reply := .word v } := by
  simp [hostAccess, hb, ha, hv]

theorem hostAccess_dmemRead_of_none (hb : s.status.busy = false) (ha : addr.toNat < s.caps.dmemWords)
    (hv : s.dmem.read addr.toNat = none) : hostAccess u (.dmemRead addr) s = .fault .unwrittenWord := by
  simp [hostAccess, hb, ha, hv]

theorem hostAccess_dmemWrite_outside (hb : s.status.busy = false) (ha : s.caps.dmemWords ≤ addr.toNat) (v : F64) :
    hostAccess u (.dmemWrite addr v) s = .fault .noSuchWord := by
  simp [hostAccess, hb, ha]

theorem hostAccess_dmemRead_outside (hb : s.status.busy = false) (ha : s.caps.dmemWords ≤ addr.toNat) :
    hostAccess u (.dmemRead addr) s = .fault .noSuchWord := by
  simp [hostAccess, hb, ha]
end Dmem

/-! Registers. -/

section Registers
variable (u : Units) {s : State} (hr : s.inReset = false)
include hr

theorem hostAccess_regWrite {off : Nat} (ho : goodAccess off 32 = true) (v : Word) :
    hostAccess u (.regWrite off 32 v) s = .next (writeReg s (regAt off) v) := by
  simp [hostAccess, hr, ho]

theorem hostAccess_regRead {off : Nat} (ho : goodAccess off 32 = true) :
    hostAccess u (.regRead off 32) s = .next (readReg u s (regAt off)) := by
  simp [hostAccess, hr, ho]

theorem hostAccess_regWrite_refused {off width : Nat} (ho : goodAccess off width = false) (v : Word) :
    hostAccess u (.regWrite off width v) s = .refused .badRegisterAccess := by
  simp [hostAccess, hr, ho]

theorem hostAccess_regRead_refused {off width : Nat} (ho : goodAccess off width = false) :
    hostAccess u (.regRead off width) s = .refused .badRegisterAccess := by
  simp [hostAccess, hr, ho]

/-- A read of a register that is no context-information register gives its value, busy or not. -/
theorem hostAccess_regRead_value {off : Nat} (ho : goodAccess off 32 = true) (hi : (regAt off).isContextInfo = false) :
    hostAccess u (.regRead off 32) s = .next { s with reply := .reg (s.regValue (regAt off)) } := by
  rw [hostAccess_regRead u hr ho, readReg, if_neg (by simp [hi])]

/-- A read of an idle block gives the register's value. -/
theorem hostAccess_regRead_idle {off : Nat} (ho : goodAccess off 32 = true) (hb : s.status.busy = false) :
    hostAccess u (.regRead off 32) s = .next { s with reply := .reg (s.regValue (regAt off)) } := by
  rw [hostAccess_regRead u hr ho, readReg, if_neg (by simp [hb])]

/-- A busy read of a context-information register gives a free value (R23). -/
theorem hostAccess_regRead_draw {off : Nat} (ho : goodAccess off 32 = true) (hb : s.status.busy = true)
    (hi : (regAt off).isContextInfo = true) :
    hostAccess u (.regRead off 32) s =
      .next { s with reply := .reg (BitVec.ofNat 32 (s.supply u []).toNat), draws := s.draws + 1 } := by
  rw [hostAccess_regRead u hr ho, readReg, if_pos (by simp [hb, hi])]
end Registers

theorem goodAccess_slot {k : Nat} (h : k < 64) : goodAccess (4 * k) 32 = true := by
  unfold goodAccess
  rw [decide_eq_true_eq]
  omega

theorem goodAccess_eq_false {off width : Nat} (h : width ≠ 32 ∨ off % 4 ≠ 0 ∨ 256 ≤ off) : goodAccess off width = false := by
  unfold goodAccess
  rw [decide_eq_false_iff_not]
  omega

theorem regAt_arg (i : Fin 5) : regAt (0x08 + 4 * i.val) = .arg i := by
  fin_cases i <;> rfl

theorem goodAccess_arg (i : Fin 5) : goodAccess (0x08 + 4 * i.val) 32 = true := by
  fin_cases i <;> rfl

theorem regAt_reserved {k : Nat} (h : 22 ≤ k) : regAt (4 * k) = .reserved := by
  unfold regAt
  rw [Nat.mul_div_cancel_left k (by norm_num)]
  split
  case h_23 => rfl
  all_goals omega

/-- The slots from `C_FLAGS` to `C_NCHAN` are the context-information registers (R15). -/
theorem regAt_isContextInfo {k : Nat} (h : 12 ≤ k) (h' : k < 22) : (regAt (4 * k)).isContextInfo = true := by
  interval_cases k <;> rfl

theorem writeReg_of_isContextInfo {s : State} {r : Reg} (h : r.isContextInfo = true) (v : Word) : writeReg s r v = s := by
  cases r with
  | cmd => cases h
  | arg i => cases h
  | csel => cases h
  | _ => rfl

/-- `STATUS` has its fields in place and its other bits 0 (R17). -/
theorem toNat_statusWord (f : Status) :
    f.word.toNat = f.busy.toNat + 16 * f.err.code.toNat + 256 * f.undef.toNat + 512 * f.ovr.toNat := by
  have h1 := f.busy.toNat_le
  have h2 := f.err.code.isLt
  have h3 := f.undef.toNat_le
  have h4 := f.ovr.toNat_le
  rw [Status.word, BitVec.toNat_ofNat, Nat.mod_eq_of_lt] <;> omega

/-- `CAP` has its two fields in place and its other bits 0 (R20). -/
theorem toNat_capsWord (c : Caps) : c.word.toNat = c.nmaxLog2.toNat + 256 * c.nctxLast.toNat := by
  have h1 := c.nmaxLog2.isLt
  have h2 := c.nctxLast.isLt
  rw [Caps.word, BitVec.toNat_ofNat, Nat.mod_eq_of_lt] <;> omega

/-- The ten context-information registers in the order of their slots (R23). -/
theorem regValue_contextInfo (s : State) (k : Fin 10) : s.regValue (regAt (0x30 + 4 * k.val)) =
    s.info fun c => [1, c.B, c.F, c.M, c.K, c.STEP, c.inputPos, c.inputSegmentPos, c.channel, c.numChannels].getD k.val 0 := by
  fin_cases k <;> rfl

theorem info_of_shown {s : State} (h : s.csel.toNat < s.caps.nctx ∧ (s.ctx s.csel.toNat).configured = true)
    (field : Context → Nat) : s.info field = BitVec.ofNat 32 (field (s.ctx s.csel.toNat)) := by
  simp [State.info, State.shownContext, h]

theorem info_of_not_shown {s : State} (h : ¬ (s.csel.toNat < s.caps.nctx ∧ (s.ctx s.csel.toNat).configured = true))
    (field : Context → Nat) : s.info field = 0 := by
  have hn : s.shownContext = none := by simpa [State.shownContext] using h
  simp [State.info, hn]

/-! Reset. -/

/-- A reset block has the values of R36. -/
theorem resetBlock_table (s : State) : s.resetBlock.status.word = 0 ∧ (∀ i : Fin 5, s.resetBlock.a[i] = 0) ∧
    s.resetBlock.csel = 0 ∧ s.resetBlock.caps = s.caps ∧ ∀ x, (s.resetBlock.ctx x).configured = false :=
  ⟨rfl, fun _ => Vector.getElem_replicate _, rfl, rfl, fun x => by rw [resetBlock_ctx]; rfl⟩

theorem caps_device_legal : Caps.device.legal = true := by
  unfold Caps.legal Caps.device
  have h1 := Config.nmaxLog2Above8.isLt
  have h2 := Config.nctxAbove2.isLt
  have h3 := Config.mmaxAbove11.isLt
  have h4 := Config.kmaxAbove33.isLt
  simp only [BitVec.toNat_ofNat, decide_eq_true_eq]
  omega

theorem reset_ctx (x : Nat) : State.reset.ctx x = Context.blank := resetBlock_ctx State.reset x

end Sys2Proof.Machine
end

section
open Sys2Proof.Machine

namespace Sys2Proof.Claims

theorem errNumber_eq (e : Err) : errNumber e = e.code.toNat := by
  cases e <;> rfl

/-- Settles O40: the other argument registers are no input of the command, and a register write sets its own register alone. -/
theorem argumentWritesSpareTheRunningCommand : Obligations.ArgumentWritesSpareTheRunningCommand := by
  refine ⟨fun i s b => ⟨fun t h => ?_, fun f h => exec_fault h { s with a := b }, fun r h => absurd h (exec_ne_refused i s r)⟩,
    fun u s i v hr => ⟨_, hostAccess_regWrite u hr (goodAccess_arg i) v, ?_⟩⟩
  · obtain ⟨r, rfl, -, hr⟩ := exec_next h
    exact hr { s with a := b }
  · rw [regAt_arg]
    exact ⟨rfl, Vector.getElem_set_self i.isLt, fun j hj => Vector.getElem_set_ne i.isLt j.isLt fun h => hj (Fin.ext h.symm)⟩

/-- Settles O45, by the laws of the data memory. -/
theorem hostMemoryWritesReadBack : Obligations.HostMemoryWritesReadBack := by
  refine fun u s addr hb => ⟨fun ha => ⟨fun v => ?_, fun v hv => hostAccess_dmemRead_of_some u hb ha hv,
    hostAccess_dmemRead_of_none u hb ha⟩,
    fun ha => ⟨hostAccess_dmemRead_outside u hb ha, hostAccess_dmemWrite_outside u hb ha⟩⟩
  refine ⟨_, hostAccess_dmemWrite u hb ha v, rfl, ?_, fun i hi => ?_, (storedWithin_write _ _ _).1⟩
  · exact hostAccess_dmemRead_of_some (s := { s with dmem := s.dmem.write addr.toNat v }) u hb ha (Memory.read_write_self _ _ _)
  · rw [Memory.get_write, if_pos (by omega), show (8 * addr.toNat + i) % 8 = i by omega, getElem?_bytesOfNat hi]

/-- Settles O7: the reset state holds blank contexts, an empty memory and the device's legal parameters. -/
theorem resetMeetsTheInvariant : Obligations.ResetMeetsTheInvariant := by
  obtain ⟨hstatus, ha, hcsel, -, hctx⟩ := resetBlock_table State.reset
  refine ⟨inv_iff.2 ⟨memoryOk_nil _, fun x => ?_, caps_device_legal, fun _ => rfl⟩, rfl, hstatus, ha, hcsel, hctx, read_nil, rfl⟩
  rw [reset_ctx]
  exact contextOk_blank _ _ x

/-- Settles O39, by the two cases of a `CMD` write. -/
theorem cmdWriteStartsOrOverruns : Obligations.CmdWriteStartsOrOverruns := by
  intro u s w hr
  have hwrite : hostAccess u (.regWrite 0x00 32 w) s = .next (writeCmd s w) := hostAccess_regWrite u hr rfl w
  refine ⟨fun hb => ?_, fun hb => ?_, hostAccess_regRead_value u hr rfl rfl⟩
  · rw [hwrite, writeCmd, if_neg (by simp [hb])]
    rfl
  · rw [hwrite, writeCmd, if_pos hb]
    rfl

/-- Settles O41: none of these registers draws, so each read gives the register's value. -/
theorem registerReads : Obligations.RegisterReads := by
  intro u s hr
  have value : ∀ off, goodAccess off 32 = true → (regAt off).isContextInfo = false →
      hostAccess u (.regRead off 32) s = .next { s with reply := .reg (s.regValue (regAt off)) } :=
    fun _ ho hi => hostAccess_regRead_value u hr ho hi
  refine ⟨fun i => ?_, ⟨_, value _ rfl rfl, ?_⟩, ⟨_, value _ rfl rfl, ?_⟩, value _ rfl rfl, value _ rfl rfl,
    ⟨_, value _ rfl rfl, rfl⟩, ?_⟩
  · rw [value _ (goodAccess_arg i) (by rw [regAt_arg]; rfl), regAt_arg]
    rfl
  · rw [errNumber_eq]
    exact toNat_statusWord s.status
  · have hw : (s.regValue (regAt 0x1C)).toNat = s.caps.nmaxLog2.toNat + 256 * s.caps.nctxLast.toNat := toNat_capsWord s.caps
    have h1 := s.caps.nmaxLog2.isLt
    have h2 := s.caps.nctxLast.isLt
    rw [hw, Caps.nmax, Caps.nctx]
    refine ⟨?_, by omega, by omega, by omega⟩
    congr 1
    omega
  · rw [value _ rfl rfl]
    simp [State.regValue, regAt, BitVec.ofNat_toNat]

/-- Settles O42: the ten slots are the fields of the shown context in order. -/
theorem contextInfoReads : Obligations.ContextInfoReads := by
  intro u s k hr
  have hslot : 0x30 + 4 * k.val = 4 * (12 + k.val) := by omega
  have hgood : goodAccess (0x30 + 4 * k.val) 32 = true := by
    rw [hslot]
    exact goodAccess_slot (by omega)
  have hinfo : (regAt (0x30 + 4 * k.val)).isContextInfo = true := by
    rw [hslot]
    exact regAt_isContextInfo (by omega) (by omega)
  refine ⟨fun hb => ⟨_, hostAccess_regRead_idle u hr hgood hb, fun hshown => ?_, fun hnot => ?_⟩,
    fun hb => ⟨_, hostAccess_regRead_draw u hr hgood hb hinfo⟩, fun v => ?_⟩
  · rw [regValue_contextInfo, info_of_shown hshown]
  · rw [regValue_contextInfo, info_of_not_shown hnot]
  · rw [hostAccess_regWrite u hr hgood, writeReg_of_isContextInfo hinfo]

/-- Settles O43, slot by slot of the window. -/
theorem ignoredWritesAndReservedOffsets : Obligations.IgnoredWritesAndReservedOffsets := by
  intro u s v hr
  refine ⟨fun off hoff => ?_, fun k h h' => ?_, fun k h h' => ?_, ?_⟩
  · simp only [List.mem_cons, List.not_mem_nil, or_false] at hoff
    rcases hoff with rfl | rfl | rfl | rfl | rfl <;> exact hostAccess_regWrite u hr rfl v
  · rw [hostAccess_regWrite u hr (goodAccess_slot h')]
    rcases Nat.lt_or_ge k 22 with hk | hk
    · rw [writeReg_of_isContextInfo (regAt_isContextInfo h hk)]
    · rw [regAt_reserved hk]
      rfl
  · rw [hostAccess_regRead_value u hr (goodAccess_slot h') (by rw [regAt_reserved h]; rfl), regAt_reserved h]
    rfl
  · rw [hostAccess_regWrite u hr rfl]
    simp [writeReg, regAt, BitVec.ofNat_toNat]

/-- Settles O44: the accesses of R24 are not good ones, and a busy block refuses the data memory. -/
theorem hostAccessesTheModelRefuses : Obligations.HostAccessesTheModelRefuses := by
  refine fun u s => ⟨fun hb addr v => ⟨if_pos hb, if_pos hb⟩, fun hr off width v h => ?_⟩
  exact ⟨hostAccess_regWrite_refused u hr (goodAccess_eq_false h) v, hostAccess_regRead_refused u hr (goodAccess_eq_false h)⟩

/-- Settles O46: asserting reset and power-on both give the block its values of R36, and an asserted reset hides the registers. -/
theorem resetLeavesTheTableOfR36 : Obligations.ResetLeavesTheTableOfR36 := by
  refine fun u s => ⟨⟨_, rfl, ?_⟩, ⟨State.resetBlock { s with dmem := [], inReset := true }, rfl, rfl, ?_⟩,
    fun hr off width v => ⟨if_pos hr, if_pos hr⟩, rfl⟩
  · have hidle := assertReset_dmem_of_idle u (s := s)
    obtain ⟨m, n, h⟩ := assertReset_eq u s
    rw [h] at hidle ⊢
    obtain ⟨hstatus, ha, hcsel, hcaps, hctx⟩ := resetBlock_table { s with dmem := m, inReset := true, draws := n }
    exact ⟨rfl, hstatus, ha, hcsel, hcaps, hctx, hidle⟩
  · obtain ⟨hstatus, ha, hcsel, hcaps, hctx⟩ := resetBlock_table { s with dmem := [], inReset := true }
    exact ⟨hstatus, ha, hcsel, hcaps, hctx, read_nil⟩

end Sys2Proof.Claims
end

section
/-! `FFT_MAG` completes on a readable source, and when no store comes before the read of the word it overwrites, every magnitude is
that of the source as it was before the command (R87). -/

open Sys2Proof.Machine

namespace Sys2Proof.Machine

/-- A word outside the destination words that `FFT_MAG`'s loop goes over is unchanged. -/
theorem read_magLoop_other {u : Units} {κ : Draws} {d s n k t : Nat} {m m' : Memory} (h : magLoop u κ d s n k t m = some m')
    {w : Nat} (hw : w < d + t ∨ d + t + k ≤ w) : m'.read w = m.read w :=
  Memory.read_congr _ _ _ fun x hx => get_magLoop_other u κ d s n k t m m' h x (by omega)

/-- With the destination at or below the source or past it, the store of element `t` spares the elements of the source after `t`, so
the loop leaves the magnitude of each element as the loop found it. -/
theorem read_magLoop {u : Units} {κ : Draws} {d s n k t : Nat} {m m' : Memory} (h : magLoop u κ d s n k t m = some m')
    (hd : d ≤ s ∨ s + 2 * (t + k) ≤ d) {i : Nat} (hti : t ≤ i) (hik : i < t + k) :
    ∃ x y, m.read (s + 2 * i) = some x ∧ m.read (s + 2 * i + 1) = some y ∧
      m'.read (d + i) = some (scaledMag u (κ.sub i) n x y) := by
  induction k generalizing t m with
  | zero => omega
  | succ k ih =>
    rw [magLoop] at h
    split at h
    · next x y hx hy =>
      rcases hti.eq_or_lt with rfl | hlt
      · exact ⟨x, y, hx, hy, by rw [read_magLoop_other h (by omega), Memory.read_write_self]⟩
      · have hih := ih h (by omega) hlt (by omega)
        rwa [Memory.read_write_other _ _ _ _ (by omega), Memory.read_write_other _ _ _ _ (by omega)] at hih
    · cases h

end Sys2Proof.Machine

namespace Sys2Proof.Claims

/-- On a readable source, with the checks passed, `FFT_MAG` succeeds with the memory that its loop leaves (R87). -/
theorem execFftMag_succeeds {s : State} (hc : NoneFails (checksOf .fftMag s)) (hs : Readable s.dmem (s.arg 2) (2 * s.arg 3)) :
    ∃ m, magLoop Config.units (s.supply Config.units) (s.arg 0) (s.arg 2) (s.arg 3) (s.arg 3) 0 s.dmem = some m ∧
      execFftMag s = .next (State.finish { s with dmem := m } .ok) := by
  obtain ⟨m, hm⟩ := Option.isSome_iff_exists.1
    (magLoop_isSome Config.units (s.supply Config.units) (s.arg 0) (s.arg 2) (s.arg 3) (s.arg 3) 0 s.dmem
      fun w hw hw' => hs w (by omega) (by omega))
  exact ⟨m, hm, by simp [execFftMag, fftMag, checkFftMag_eq_none_iff.2 hc, hm, State.succeed]⟩

/-- Settles O22: no store of the loop comes before the read of the source word it overwrites. -/
theorem fftMagWorksInPlace : Obligations.FftMagWorksInPlace := by
  intro s hlen hdst hsrc hread hd
  have hc : NoneFails (checksOf .fftMag s) := by simp [checksOf, noneFails_cons, noneFails_nil, hlen, hlen ▸ hdst, hsrc]
  obtain ⟨m, hm, hexec⟩ := execFftMag_succeeds hc hread
  refine ⟨_, hexec, fun i hi => ?_⟩
  obtain ⟨x, y, hx, hy, hmag⟩ := read_magLoop hm (by omega) (Nat.zero_le i) (by omega)
  exact ⟨x, y, _, _, hx, hy, hmag⟩

end Sys2Proof.Claims
end

section
/-! The decoder and the encoder by the fields of the command word (R40, R52 to R55, R58). -/

open Sys2Proof.Machine

namespace Sys2Proof.Claims

/-! The fields of a word. -/

/-- What the field `CTX` of an instruction's command word holds (R54). -/
def ctxIndex (i : Instr) : Nat := (contextOf i).getD 0

/-- The three fields are the whole word (R52). -/
theorem toNat_eq_fields (w : Word) : w.toNat = opcField w + 2 ^ 8 * ctxField w + 2 ^ 12 * rsvField w := by
  unfold opcField ctxField rsvField
  omega

/-- The fields of a word that is an opcode with a context from bit 8 on; a context of 16 or more runs into `RSV` (R52). -/
theorem fields_of_toNat {w : Word} {opc ctx : Nat} (h : w.toNat = 256 * ctx + opc) (hopc : opc < 256) :
    opcField w = opc ∧ ctxField w = ctx % 16 ∧ rsvField w = ctx / 16 := by
  unfold opcField ctxField rsvField
  omega

theorem opcode_lt (i : Instr) : i.opcode < 256 := by
  cases i <;> simp [Instr.opcode]

theorem wellFormed_iff {i : Instr} : i.wellFormed = true ↔ ctxIndex i < 16 := by
  cases i <;> simp [Instr.wellFormed, ctxFits, ctxIndex, contextOf]

theorem encode_eq_commandWord (i : Instr) : encode i = commandWord i.opcode (ctxIndex i) := by
  cases i <;> rfl

/-! The decoder. -/

theorem plainCommand_eq_ok_iff {ctx : Nat} {i j : Instr} : plainCommand ctx j = .ok i ↔ ctx = 0 ∧ j = i := by
  unfold plainCommand
  split <;> simp [*]

/-- A word decodes to an instruction exactly when its fields are the instruction's, with `RSV = 0` (R52 to R55). -/
theorem decode_eq_ok_iff {w : Word} {i : Instr} :
    decode w = .ok i ↔ rsvField w = 0 ∧ opcField w = i.opcode ∧ ctxField w = ctxIndex i := by
  constructor
  · intro h
    unfold decode at h
    split at h
    · cases h
    · next hrsv =>
      have hrsv : rsvField w = 0 := not_not.1 hrsv
      split at h
      case h_1 hopc | h_2 hopc | h_3 hopc | h_4 hopc | h_5 hopc | h_6 hopc =>
        obtain ⟨hctx, rfl⟩ := plainCommand_eq_ok_iff.1 h
        exact ⟨hrsv, hopc, hctx⟩
      case h_7 hopc | h_8 hopc | h_9 hopc =>
        cases h
        exact ⟨hrsv, hopc, rfl⟩
      case h_10 => cases h
  · rintro ⟨hrsv, hopc, hctx⟩
    unfold decode
    rw [if_neg (not_not.2 hrsv), hopc, hctx]
    cases i <;> rfl

/-- No two words decode to one instruction: the fields are the whole word (R52). -/
theorem decode_injective {v w : Word} {i : Instr} (hv : decode v = .ok i) (hw : decode w = .ok i) : v = w := by
  obtain ⟨hrsv, hopc, hctx⟩ := decode_eq_ok_iff.1 hv
  obtain ⟨hrsv', hopc', hctx'⟩ := decode_eq_ok_iff.1 hw
  apply BitVec.eq_of_toNat_eq
  rw [toNat_eq_fields v, toNat_eq_fields w, hopc, hctx, hrsv, hopc', hctx', hrsv']

theorem wellFormed_of_decode {w : Word} {i : Instr} (h : decode w = .ok i) : i.wellFormed = true := by
  obtain ⟨-, -, hctx⟩ := decode_eq_ok_iff.1 h
  rw [wellFormed_iff, ← hctx]
  exact Nat.mod_lt _ (by norm_num)

/-- The command word of a well-formed instruction has the instruction's fields. -/
theorem decode_encode {i : Instr} (h : i.wellFormed = true) : decode (encode i) = .ok i := by
  obtain ⟨hopc, hrsv, hctx⟩ := Laws.Fields.commandWord_fields i.opcode (ctxIndex i) (opcode_lt i)
  rw [Nat.mod_eq_of_lt (wellFormed_iff.1 h)] at hctx
  rw [encode_eq_commandWord]
  exact decode_eq_ok_iff.2 ⟨hrsv, hopc, hctx⟩

/-- The four bytes of a word make the word again (R40). -/
theorem wordOfBytes_bytesOfWord (w : Word) :
    wordOfBytes (BitVec.ofNat 8 w.toNat) (BitVec.ofNat 8 (w.toNat / 2 ^ 8)) (BitVec.ofNat 8 (w.toNat / 2 ^ 16))
      (BitVec.ofNat 8 (w.toNat / 2 ^ 24)) = w := by
  apply BitVec.eq_of_toNat_eq
  simp only [wordOfBytes, BitVec.toNat_ofNat]
  have := w.isLt
  omega

theorem decodeBytes_bytesOfWord {w : Word} {i : Instr} (h : decode w = .ok i) (rest : List Byte) :
    decodeBytes (bytesOfWord w ++ rest) = .ok (i, rest) := by
  simp only [bytesOfWord, List.cons_append, List.nil_append, decodeBytes, wordOfBytes_bytesOfWord, h]

/-! Illegal words. -/

/-- A word that decodes is illegal exactly when its context does not exist (R54, R58). -/
theorem illegalWord_iff_of_decode {caps : Caps} {w : Word} {i : Instr} (h : decode w = .ok i) :
    IllegalWord caps w ↔ ∃ x, contextOf i = some x ∧ caps.nctx ≤ x := by
  obtain ⟨hrsv, hopc, hctx⟩ := decode_eq_ok_iff.1 h
  unfold IllegalWord
  rw [hrsv, hopc, hctx]
  cases i <;> simp [Instr.opcode, ctxIndex, contextOf]

/-- A command on a context that does not exist is illegal (R54). -/
theorem exec_of_nctx_le {i : Instr} {s : State} {x : Nat} (hi : contextOf i = some x) (hx : s.caps.nctx ≤ x) :
    exec i s = s.raise .illegalCommand := by
  cases i with
  | convNew y =>
    cases hi
    simp [exec, execConvNew, convNew, checkConvNew, hx]
  | convSetir y =>
    cases hi
    simp [exec, execConvSetir, convSetir, checkConvSetir, hx]
  | convRun y =>
    cases hi
    simp [exec, execConvRun, convRun, checkConvRun, hx]
  | _ => cases hi

/-- An illegal word does not decode, or names a context that does not exist; either way it raises `IllegalCommand` (R58). -/
theorem runCommand_of_illegalWord {s : State} (h : IllegalWord s.caps s.cmd) : runCommand s = s.raise .illegalCommand := by
  unfold runCommand
  split
  · next i hi =>
    obtain ⟨x, hctx, hx⟩ := (illegalWord_iff_of_decode hi).1 h
    exact exec_of_nctx_le hctx hx
  · rfl

end Sys2Proof.Claims
end

section
open Sys2Proof.Machine

namespace Sys2Proof.Claims

/-- Settles O1: the command word has the instruction's fields, and its bytes make the word again. -/
theorem decodeEncodeRoundTrip : Obligations.DecodeEncodeRoundTrip :=
  fun _ h => ⟨decode_encode h, decodeBytes_bytesOfWord (decode_encode h)⟩

/-- Settles O2: the context is what a field of four bits holds, and no other word decodes to the instruction. -/
theorem decodedWordIsItsEncoding : Obligations.DecodedWordIsItsEncoding := by
  intro w i h
  have hwf := wellFormed_of_decode h
  exact ⟨hwf, decode_injective (decode_encode hwf) h⟩

/-- Settles O3: the latched word runs, and an illegal one only ends its command. -/
theorem illegalWordRaisesIllegalCommand : Obligations.IllegalWordRaisesIllegalCommand :=
  fun _ hr h => (step_of_runsNext hr).trans (runCommand_of_illegalWord h)

/-- Settles O4: the words are those of the encoder. -/
theorem wordsOfTheOpcodeMap : Obligations.WordsOfTheOpcodeMap :=
  ⟨decode_encode (i := .nop) rfl, decode_encode (i := .bitrev) rfl, decode_encode (i := .fftFwd) rfl,
    decode_encode (i := .fftInv) rfl, decode_encode (i := .fftMag) rfl, decode_encode (i := .cmac) rfl,
    decode_encode (i := .convNew 1) rfl, decode_encode (i := .convSetir 15) rfl, decode_encode (i := .convRun 10) rfl⟩

end Sys2Proof.Claims
end

section
/-! What a command leaves of the data memory and of the contexts (R54, R56, R120). -/

open Sys2Proof.Machine

namespace Sys2Proof.Claims

/-- A command stores its whole buffer, or nothing when a check ends it. -/
theorem storeBuffer_cases (i : Instr) (s : State) : storeBuffer i s = storeWords i s ∨ (storeBuffer i s).2 = 0 := by
  have of_ite : ∀ (p : Prop) [Decidable p] (b : Nat × Nat),
      (if p then b else (0, 0)) = b ∨ (if p then b else (0, 0)).2 = 0 := fun p _ b => by by_cases hp : p <;> simp [hp]
  cases i with
  | nop | convNew x | convSetir x => exact .inl rfl
  | bitrev | fftInv | fftMag | cmac | convRun x => exact of_ite _ _
  | fftFwd =>
    by_cases h2 : s.arg 1 = 2
    · exact .inl (by simp [storeBuffer, storeWords, h2])
    · rw [storeWords, if_neg h2]
      exact of_ite _ _

/-- A command changes no byte outside the words it may store to. -/
theorem exec_sameOutside {i : Instr} {s t : State} (h : exec i s = .next t) :
    SameOutside s.dmem t.dmem (storeWords i s).1 (storeWords i s).2 := by
  obtain ⟨hout, -⟩ := exec_storedWithin h
  rcases storeBuffer_cases i s with hb | hb
  · rwa [hb] at hout
  · rw [hb] at hout
    exact fun x _ => hout x (by omega)

/-- A command changes no context but the one its word names. -/
theorem exec_ctx_other {i : Instr} {s t : State} (h : exec i s = .next t) {x : Nat} (hx : contextOf i ≠ some x) :
    t.ctx x = s.ctx x := by
  cases i with
  | nop => cases h; rfl
  | bitrev => rcases execBitrev_next h with ⟨e, -, rfl⟩ | ⟨-, v, -, rfl⟩ <;> rfl
  | fftFwd => rcases execFftFwd_next h with ⟨e, -, rfl⟩ | ⟨-, rfl⟩ | ⟨-, -, v, -, rfl⟩ <;> rfl
  | fftInv => rcases execFftInv_next h with ⟨e, -, rfl⟩ | ⟨-, v, -, rfl⟩ <;> rfl
  | fftMag => rcases execFftMag_next h with ⟨e, -, rfl⟩ | ⟨-, m, -, rfl⟩ <;> rfl
  | cmac => rcases execCmac_next h with ⟨e, -, rfl⟩ | ⟨-, m, -, rfl⟩ <;> rfl
  | convNew y =>
    have hyx : y ≠ x := fun hyx => hx (congrArg some hyx)
    rcases execConvNew_next h with ⟨e, -, rfl⟩ | ⟨-, ir, -, rfl⟩
    · rfl
    · rw [finish_ctx, setCtx_ctx_other _ _ _ hyx]
  | convSetir y =>
    have hyx : y ≠ x := fun hyx => hx (congrArg some hyx)
    rcases execConvSetir_next h with ⟨e, -, rfl⟩ | ⟨-, ir, -, rfl⟩
    · rfl
    · rw [finish_ctx, setCtx_ctx_other _ _ _ hyx, markPartialBlock_ctx]
  | convRun y =>
    have hyx : y ≠ x := fun hyx => hx (congrArg some hyx)
    rcases execConvRun_next h with ⟨e, -, rfl⟩ | ⟨-, c, m, -, rfl⟩
    · rfl
    · rw [finish_ctx, setCtx_ctx_other _ _ _ hyx, setDmem_ctx]

/-- Settles O15, by the frames of the data memory and of the contexts. -/
theorem commandsStoreOnlyTheirBuffer : Obligations.CommandsStoreOnlyTheirBuffer :=
  fun _ _ _ h => ⟨exec_sameOutside h, fun _ hx => exec_ctx_other h hx⟩

end Sys2Proof.Claims
end

section
/-! What the accesses of a command pseudo-instruction leave of an idle block (R16, R19, R62). -/

open Sys2Proof.Machine

namespace Sys2Proof.Claims

/-! The word of a pseudo-instruction. -/

theorem toNat_convWord {ctx opc : Nat} (hctx : ctxWritable ctx = true) (hopc : opc < 2 ^ 8) :
    (convWord ctx opc).toNat = 256 * ctx + opc := by
  have hctx : ctx < 2 ^ 24 := by simpa [ctxWritable] using hctx
  rw [convWord, ← Nat.shiftLeft_add_eq_or_of_lt hopc, Nat.shiftLeft_eq, BitVec.toNat_ofNat, Nat.mod_eq_of_lt] <;> omega

/-- The word is the opcode with the context from bit 8 on (R62). -/
theorem toNat_pseudoWord {p : Pseudo} (h : p.wellFormed = true) :
    p.word.toNat = 256 * ctxIndex p.command + p.command.opcode := by
  cases p with
  | convNew ctx bs ch nch irbase len =>
    simp only [Pseudo.wellFormed, Bool.and_eq_true] at h
    obtain ⟨⟨hctx, -⟩, -⟩ := h
    exact toNat_convWord hctx (by norm_num)
  | convSetir ctx irbase len => exact toNat_convWord h (by norm_num)
  | convRun ctx outbase outlen inbase inlen ns => exact toNat_convWord h (by norm_num)
  | _ => rfl

theorem decode_pseudoWord {p : Pseudo} (h : p.wellFormed = true) (hc : p.command.wellFormed = true) :
    decode p.word = .ok p.command := by
  obtain ⟨hopc, hctx, hrsv⟩ := fields_of_toNat (toNat_pseudoWord h) (opcode_lt _)
  have hlt := wellFormed_iff.1 hc
  exact decode_eq_ok_iff.2 ⟨by omega, hopc, by omega⟩

/-- A context that does not fit `CTX` sets bits of `RSV` (R55). -/
theorem illegalWord_pseudoWord (caps : Caps) {p : Pseudo} (h : p.wellFormed = true) (hc : p.command.wellFormed = false) :
    IllegalWord caps p.word := by
  obtain ⟨-, -, hrsv⟩ := fields_of_toNat (toNat_pseudoWord h) (opcode_lt _)
  have hge : ¬ ctxIndex p.command < 16 := fun hlt => by simp [wellFormed_iff.2 hlt] at hc
  exact .inl (by omega)

/-! The argument writes. -/

/-- The accesses that write argument registers. -/
def argWrites (early : Bool) (l : List (Fin 5 × Word)) : List HostEvent :=
  l.map fun iv => { early := early, access := .regWrite (0x08 + 4 * iv.1.val) 32 iv.2 }

/-- The argument registers after these writes. -/
def writeArgs (a : Vector Word 5) (l : List (Fin 5 × Word)) : Vector Word 5 :=
  l.foldl (fun b iv => b.set iv.1 iv.2) a

/-- A pseudo-instruction is its argument writes, one `CMD` write and the last poll of its `wait`. -/
theorem programEvents_expand (early : Bool) (p : Pseudo) :
    programEvents early p.expand = argWrites early p.arguments ++
      [{ early := early, access := .regWrite 0x00 32 p.word }, { early := false, access := .regRead 0x04 32 }] := by
  have hdata : p.expand.flatMap HostStmt.dataEvents = [] := by
    simp [Pseudo.expand, List.flatMap_map, HostStmt.dataEvents]
  rw [programEvents, hdata, Pseudo.expand, List.flatMap_append, List.flatMap_map, List.nil_append]
  congr 1
  exact List.map_eq_flatMap.symm

/-- A register that none of the writes names keeps its value. -/
theorem writeArgs_other {l : List (Fin 5 × Word)} (a : Vector Word 5) {i : Fin 5} (h : ∀ v, (i, v) ∉ l) :
    (writeArgs a l)[i] = a[i] := by
  induction l generalizing a with
  | nil => rfl
  | cons jw l ih =>
    obtain ⟨j, w⟩ := jw
    have hij : j.val ≠ i.val := fun e => h w (by simp [Fin.ext e])
    rw [writeArgs, List.foldl_cons]
    exact (ih _ fun v hv => h v (.tail _ hv)).trans (Vector.getElem_set_ne j.isLt i.isLt hij)

/-- Writes to different registers all stay. -/
theorem writeArgs_of_mem {l : List (Fin 5 × Word)} (hl : (l.map Prod.fst).Nodup) (a : Vector Word 5) {i : Fin 5} {v : Word}
    (h : (i, v) ∈ l) : (writeArgs a l)[i] = v := by
  induction l generalizing a with
  | nil => cases h
  | cons jw l ih =>
    rw [List.map_cons, List.nodup_cons] at hl
    rw [writeArgs, List.foldl_cons]
    cases h with
    | head =>
      exact (writeArgs_other _ fun w hw => hl.1 (List.mem_map.2 ⟨_, hw, rfl⟩)).trans (Vector.getElem_set_self i.isLt)
    | tail _ h => exact ih hl.2 _ h

theorem arguments_nodup (p : Pseudo) : (p.arguments.map Prod.fst).Nodup := by
  cases p <;> simp [Pseudo.arguments]

/-! The steps. -/

/-- A register write that comes next to an idle block is made. -/
theorem step_regWrite {s : State} {early : Bool} {off : Nat} {v : Word} {rest : List HostEvent} (hr : s.inReset = false)
    (hb : s.status.busy = false) (ho : goodAccess off 32 = true)
    (hp : s.pending = { early := early, access := .regWrite off 32 v } :: rest) :
    step s = .next (writeReg { s with pending := rest } (regAt off) v) :=
  (step_of_accessNext ⟨early, hp, fun hbusy => by simp [hb] at hbusy⟩).trans
    (hostAccess_regWrite (s := { s with pending := rest }) _ hr ho v)

/-- A `CMD` write that comes next to an idle block latches its word and the arguments (R16, R19). -/
theorem step_cmdWrite {s : State} {early : Bool} {w : Word} {rest : List HostEvent} (hr : s.inReset = false)
    (hb : s.status.busy = false) (hp : s.pending = { early := early, access := .regWrite 0x00 32 w } :: rest) :
    step s = .next (State.latch { s with pending := rest } w) :=
  (step_regWrite hr hb rfl hp).trans (congrArg Host.Outcome.next (if_neg (by simp [hb])))

/-- Argument writes that come next are made in turn. -/
theorem reaches_writeArgs {s₀ s : State} {early : Bool} {l : List (Fin 5 × Word)} {rest : List HostEvent}
    (hr : s.inReset = false) (hb : s.status.busy = false) (h : Reaches s₀ { s with pending := argWrites early l ++ rest }) :
    Reaches s₀ { s with a := writeArgs s.a l, pending := rest } := by
  induction l generalizing s with
  | nil => exact h
  | cons iv l ih =>
    have hnext := h.step (step_regWrite hr hb (goodAccess_arg iv.1) rfl)
    rw [regAt_arg] at hnext
    exact ih (s := { s with a := s.a.set iv.1 iv.2 }) hr hb hnext

/-- The accesses of a pseudo-instruction but its `wait` end with its word and the written arguments latched. -/
theorem reaches_latched {s : State} (p : Pseudo) (early : Bool) (hr : s.inReset = false) (hb : s.status.busy = false)
    (hp : s.pending = []) :
    Reaches (s.withProgram early p.expand)
      (State.latch
        { s with a := writeArgs s.a p.arguments, pending := [{ early := false, access := .regRead 0x04 32 }] } p.word) := by
  have hstart : Reaches (s.withProgram early p.expand) (s.withProgram early p.expand) := .start
  rw [State.withProgram, hp, List.nil_append, programEvents_expand] at hstart ⊢
  exact (reaches_writeArgs hr hb hstart).step (step_cmdWrite hr hb rfl)

/-- Settles O58: the argument writes go to different registers, and the `CMD` write latches them with the word. -/
theorem pseudoInstructionsLatchTheirCommand : Obligations.PseudoInstructionsLatchTheirCommand := by
  intro s p early hr hb hp hw
  refine ⟨_, reaches_latched p early hr hb hp, ⟨rfl, fun e rest he => ?_⟩, rfl, toNat_pseudoWord hw, decode_pseudoWord hw,
    illegalWord_pseudoWord s.caps hw, fun iv hiv => writeArgs_of_mem (arguments_nodup p) s.a hiv,
    fun i hi => writeArgs_other s.a hi, rfl⟩
  cases he
  rfl

end Sys2Proof.Claims
end

section
/-! `NOP`, and the utility functions (R69 to R72, R77). -/

open Sys2Proof.Machine

namespace Sys2Proof.Claims

/-- Settles O17: `NOP` is the bare end of a command, and an illegal word with its opcode has `CTX` or `RSV` set. -/
theorem nopOnlyClearsErr : Obligations.NopOnlyClearsErr := by
  refine ⟨decode_encode (i := .nop) rfl, fun _ => rfl, fun s hr hopc h => illegalWordRaisesIllegalCommand s hr ?_⟩
  rcases h with hctx | hrsv
  · exact .inr (.inr (.inr (.inl ⟨by omega, hctx⟩)))
  · exact .inl hrsv

/-- Settles O53, by the laws of `reverseBits`. -/
theorem bitReversalIsAnInvolution : Obligations.BitReversalIsAnInvolution :=
  fun v bits h => ⟨reverseBits_lt v bits, testBit_reverseBits v bits, reverseBits_reverseBits v bits h⟩

/-- Settles O54, by the laws of the three functions; `log2` is `Nat.log2`. -/
theorem utilityFunctions : Obligations.UtilityFunctions := by
  refine fun v => ⟨decide_eq_true_iff, isPowerOfTwo_iff, fun hv => ?_⟩
  exact ⟨isPowerOfTwo_iff.1 (isPowerOfTwo_next v), le_nextPowerOfTwo v, fun _ => nextPowerOfTwo_le,
    Nat.log2_self_le (by omega), Nat.lt_log2_self⟩

end Sys2Proof.Claims
end

section
/-! The sign of a product, and the operations on NaNs, infinities and zeros (R65, R66). -/

namespace Sys2Proof.Machine

/-! The sign flip. -/

@[simp] theorem isInf_fneg (x : F64) : isInf (fneg x) = isInf x := by simp [isInf]

@[simp] theorem isZero_fneg (x : F64) : isZero (fneg x) = isZero x := by rw [isZero, isZero, fneg_low]

/-- An encoding is known by its sign and its magnitude bits (R63). -/
theorem eq_of_signBit_of_low {x y : F64} (hs : signBit x = signBit y) (hl : x.toNat % 2 ^ 63 = y.toNat % 2 ^ 63) :
    x = y := by
  rw [signBit, signBit, decide_eq_decide] at hs
  exact BitVec.eq_of_toNat_eq (by omega)

@[simp] theorem fneg_fneg (x : F64) : fneg (fneg x) = x :=
  eq_of_signBit_of_low (by simp) (by rw [fneg_low, fneg_low])

theorem fneg_packF64 {neg : Bool} {b : Nat} (h : b < 2 ^ 63) : fneg (packF64 neg b) = packF64 (!neg) b :=
  eq_of_signBit_of_low (by rw [signBit_fneg, signBit_packF64 h, signBit_packF64 h])
    (by rw [fneg_low, packF64_low h, packF64_low h])

/-! Classes of operands. -/

theorem isFinite_of_isZero {x : F64} (h : isZero x = true) : isFinite x = true := by
  rw [isZero, decide_eq_true_eq] at h
  rw [isFinite, decide_eq_true_eq, expField_eq_low, h]
  decide

theorem isZero_of_isInf {x : F64} (h : isInf x = true) : isZero x = false := by
  by_contra h0
  rw [Bool.not_eq_false] at h0
  simp [isInf_of_isFinite (isFinite_of_isZero h0)] at h

/-! Products. -/

theorem isNaN_fmul_of_isNaN {d : BitVec 64} {x y : F64} (h : isNaN x = true ∨ isNaN y = true) :
    isNaN (fmul d x y) = true := by
  rw [fmul, if_pos (by simpa using h), isNaN_nanOf]

/-- An infinity times what is not a NaN: invalid for a zero, else infinite (R65, R66). -/
theorem fmul_of_isInf {d : BitVec 64} {x y : F64} (hx : isInf x = true) (hy : isNaN y = false) :
    fmul d x y = if isZero y then nanOf d else packF64 (signBit x != signBit y) infBits := by
  simp [fmul, isNaN_of_isInf, isZero_of_isInf, hx, hy]

theorem fmul_of_isInf_right {d : BitVec 64} {x y : F64} (hx : isNaN x = false) (hy : isInf y = true) :
    fmul d x y = if isZero x then nanOf d else packF64 (signBit x != signBit y) infBits := by
  simp [fmul, isNaN_of_isInf, isZero_of_isInf, hx, hy]

/-! Quotients. -/

theorem isNaN_fdiv_of_isNaN {d : BitVec 64} {x y : F64} (h : isNaN x = true ∨ isNaN y = true) :
    isNaN (fdiv d x y) = true := by
  rw [fdiv, if_pos (by simpa using h), isNaN_nanOf]

theorem isNaN_fdiv_of_isInf {d : BitVec 64} {x y : F64} (hx : isInf x = true) (hy : isInf y = true) :
    isNaN (fdiv d x y) = true := by
  simp [fdiv, isNaN_of_isInf, hx, hy]

theorem fdiv_of_isInf_of_isFinite {d : BitVec 64} {x y : F64} (hx : isInf x = true) (hy : isFinite y = true) :
    fdiv d x y = packF64 (signBit x != signBit y) infBits := by
  simp [fdiv, isNaN_of_isInf, isNaN_of_isFinite, isInf_of_isFinite, hx, hy]

theorem fdiv_of_isFinite_of_isInf {d : BitVec 64} {x y : F64} (hx : isFinite x = true) (hy : isInf y = true) :
    fdiv d x y = packF64 (signBit x != signBit y) 0 := by
  simp [fdiv, isNaN_of_isInf, isNaN_of_isFinite, isInf_of_isFinite, hx, hy]

/-- A zero divisor of a finite value: invalid for a zero, else infinite (R65, R66). -/
theorem fdiv_of_isZero {d : BitVec 64} {x y : F64} (hx : isFinite x = true) (hy : isZero y = true) :
    fdiv d x y = if isZero x then nanOf d else packF64 (signBit x != signBit y) infBits := by
  have hyf := isFinite_of_isZero hy
  simp [fdiv, isNaN_of_isFinite, isInf_of_isFinite, hx, hyf, hy]

/-- A quotient is a NaN or has the sign of its operands' signs (R65, R66). -/
theorem isNaN_or_signBit_fdiv (d : BitVec 64) (x y : F64) :
    isNaN (fdiv d x y) = true ∨ signBit (fdiv d x y) = (signBit x != signBit y) := by
  have hinf : infBits < 2 ^ 63 := lt_two_pow_of_le_infBits le_rfl
  by_cases hn : isNaN x = true ∨ isNaN y = true
  · exact .inl (isNaN_fdiv_of_isNaN hn)
  simp only [not_or, Bool.not_eq_true] at hn
  rcases isInf_or_isFinite hn.1 with hx | hx <;> rcases isInf_or_isFinite hn.2 with hy | hy
  · exact .inl (isNaN_fdiv_of_isInf hx hy)
  · exact .inr (by rw [fdiv_of_isInf_of_isFinite hx hy, signBit_packF64 hinf])
  · exact .inr (by rw [fdiv_of_isFinite_of_isInf hx hy, signBit_packF64 (by norm_num)])
  · cases hy0 : isZero y with
    | false =>
      exact .inr (by rw [fdiv_of_isFinite hx hy hy0, signBit_packF64 (lt_two_pow_of_le_infBits (roundBits_le _ _))])
    | true =>
      rw [fdiv_of_isZero hx hy0]
      split
      · exact .inl (isNaN_nanOf d)
      · exact .inr (signBit_packF64 hinf)

end Sys2Proof.Machine
end

section
open Sys2Proof.Machine

namespace Sys2Proof.Claims

/-! Signed results. -/

theorem signed_packF64 (x y : F64) {b : Nat} (h : b < 2 ^ 63) :
    signed x y (packF64 false b) = packF64 (signBit x != signBit y) b := by
  rw [signed, fneg_packF64 h]
  cases signBit x <;> cases signBit y <;> rfl

theorem signed_posInf (x y : F64) : signed x y posInf = packF64 (signBit x != signBit y) infBits :=
  signed_packF64 x y (lt_two_pow_of_le_infBits le_rfl)

theorem signed_posZero (x y : F64) : signed x y posZero = packF64 (signBit x != signBit y) 0 :=
  signed_packF64 x y (Nat.two_pow_pos 63)

/-! The clauses on special operands (R65, R66). -/

section Special
variable (d : BitVec 64) {x y : F64}

theorem infinity_and_finite (hx : isInf x = true) (hy : isFinite y = true) :
    fadd d x y = x ∧ fadd d y x = x ∧ fsub d x y = x ∧ fsub d y x = fneg x ∧
      fdiv d x y = signed x y posInf ∧ fdiv d y x = signed x y posZero := by
  refine ⟨fadd_of_isInf_of_isFinite hx hy, fadd_of_isFinite_of_isInf hy hx,
    fadd_of_isInf_of_isFinite hx (by rwa [isFinite_fneg]), fadd_of_isFinite_of_isInf hy (by rwa [isInf_fneg]), ?_, ?_⟩
  · rw [fdiv_of_isInf_of_isFinite hx hy, signed_posInf]
  · rw [fdiv_of_isFinite_of_isInf hy hx, signed_posZero, bne_comm]

theorem infinity_and_infinity (hx : isInf x = true) (hy : isInf y = true) :
    (signBit x = signBit y → fadd d x y = x ∧ isNaN (fsub d x y) = true) ∧
      (signBit x ≠ signBit y → isNaN (fadd d x y) = true ∧ fsub d x y = x) ∧ isNaN (fdiv d x y) = true := by
  rw [fsub, fadd_of_isInf_of_isInf hx hy, fadd_of_isInf_of_isInf hx (by rwa [isInf_fneg]), signBit_fneg]
  refine ⟨fun h => ?_, fun h => ?_, isNaN_fdiv_of_isInf hx hy⟩
  · simp [h]
  · simp [Bool.eq_not_of_ne h]

theorem infinity_times_nonzero (hx : isInf x = true) (hy : isNaN y = false) (h0 : isZero y = false) :
    fmul d x y = signed x y posInf ∧ fmul d y x = signed x y posInf := by
  rw [fmul_of_isInf hx hy, fmul_of_isInf_right hy hx, signed_posInf, bne_comm (a := signBit y), h0]
  exact ⟨rfl, rfl⟩

theorem infinity_times_zero (hx : isInf x = true) (h0 : isZero y = true) :
    isNaN (fmul d x y) = true ∧ isNaN (fmul d y x) = true := by
  have hy := isNaN_of_isFinite (isFinite_of_isZero h0)
  rw [fmul_of_isInf hx hy, fmul_of_isInf_right hy hx, h0]
  exact ⟨isNaN_nanOf d, isNaN_nanOf d⟩

theorem zero_divisor (hx : isFinite x = true) (hx0 : isZero x = false) (hy : isZero y = true) :
    fdiv d x y = signed x y posInf := by
  rw [fdiv_of_isZero hx hy, signed_posInf, hx0]
  rfl

theorem zero_over_zero (hx : isZero x = true) (hy : isZero y = true) : isNaN (fdiv d x y) = true := by
  rw [fdiv_of_isZero (isFinite_of_isZero hx) hy, hx]
  exact isNaN_nanOf d

end Special

/-- Settles O49, by the classes of the operands: a NaN, an infinity, a zero. -/
theorem naNsStayNaNs : Obligations.NaNsStayNaNs := fun d x _ =>
  ⟨fun h => ⟨isNaN_fadd_of_isNaN h, isNaN_fsub_of_isNaN h, isNaN_fmul_of_isNaN h, isNaN_fdiv_of_isNaN h⟩,
    infinity_and_finite d, infinity_and_infinity d, infinity_times_zero d, infinity_times_nonzero d, zero_over_zero d,
    zero_divisor d, signBit_fneg x, expField_fneg x, fracField_fneg x⟩

/-! The conjugate-twiddle product (R74). -/

theorem SameUpToNaN.symm {x y : F64} (h : SameUpToNaN x y) : SameUpToNaN y x :=
  h.imp Eq.symm And.symm

/-- A product does not depend, unless it is a NaN, on the free value. -/
theorem fmul_upToNaN (d d' : BitVec 64) (x y : F64) : SameUpToNaN (fmul d x y) (fmul d' x y) :=
  (fmul_comm_upToNaN d d x y).trans (fmul_comm_upToNaN d d' y x)

/-- Negating a factor negates the product (R66). -/
theorem fmul_fneg_right_upToNaN (d d' : BitVec 64) (x y : F64) :
    SameUpToNaN (fmul d x (fneg y)) (fneg (fmul d' x y)) := by
  have hneg : ∀ b ≤ infBits, packF64 (signBit x != !signBit y) b = fneg (packF64 (signBit x != signBit y) b) :=
    fun b hb => by rw [fneg_packF64 (lt_two_pow_of_le_infBits hb), ← Bool.bne_not]
  unfold fmul
  simp only [isNaN_fneg, isInf_fneg, isZero_fneg, magUnits_fneg, signBit_fneg]
  split_ifs
  · exact .of_isNaN (isNaN_nanOf d) (by simp)
  · exact .of_isNaN (isNaN_nanOf d) (by simp)
  · exact .inl (hneg _ le_rfl)
  · exact .inl (hneg _ (roundBits_le _ _))

theorem fmul_fneg_left_upToNaN (d d' : BitVec 64) (x y : F64) :
    SameUpToNaN (fmul d (fneg x) y) (fneg (fmul d' x y)) :=
  (fmul_comm_upToNaN d d (fneg x) y).trans
    ((fmul_fneg_right_upToNaN d d y x).trans (fmul_comm_upToNaN d d' y x).fneg)

/-- Settles O51: two negations cancel in the real part, and in the imaginary part the other factor takes the sign. -/
theorem conjugateTwiddleIsAProduct : Obligations.ConjugateTwiddleIsAProduct := by
  intro κ κ' a t
  constructor
  · refine (fmul_upToNaN _ (κ' [1]) a.re t.c).fadd ?_ _ _
    have h := (fmul_fneg_right_upToNaN (κ' [2]) (κ [2]) a.im t.s).fneg
    rw [fneg_fneg] at h
    exact h.symm
  · have h := (fmul_fneg_left_upToNaN (κ [4]) (κ [4]) a.re t.s).trans
      (fmul_fneg_right_upToNaN (κ' [4]) (κ [4]) a.re t.s).symm
    exact h.fadd (fmul_upToNaN _ _ a.im t.c) _ _

end Sys2Proof.Claims
end

section
/-! `CMAC` reports its errors, and completes as the sequence of its elements (R78, R109 to R111). -/

open Sys2Proof.Machine

namespace Sys2Proof.Claims

/-! The first check that fails. -/

theorem firstFailing_nil {e : Err} : ¬ FirstFailing [] e := by
  rintro ⟨before, p, after, h, -⟩
  cases before <;> cases h

theorem firstFailing_cons (q : Prop × Err) (checks : List (Prop × Err)) {e : Err} :
    FirstFailing (q :: checks) e ↔ (q.1 ∧ q.2 = e) ∨ (¬ q.1 ∧ FirstFailing checks e) := by
  constructor
  · rintro ⟨before, p, after, h, hp, hbefore⟩
    cases before with
    | nil =>
      cases h
      exact .inl ⟨hp, rfl⟩
    | cons r before =>
      cases h
      exact .inr ⟨hbefore _ (.head _), before, p, after, rfl, hp, fun r hr => hbefore r (.tail _ hr)⟩
  · rintro (⟨hq, rfl⟩ | ⟨hq, before, p, after, rfl, hp, hbefore⟩)
    · exact ⟨[], q.1, checks, rfl, hq, fun r hr => by cases hr⟩
    · exact ⟨q :: before, p, after, rfl, hp, List.forall_mem_cons.2 ⟨hq, hbefore⟩⟩

/-- A chain of checks reports its first error when its first check fails, else what the rest reports. -/
theorem check_eq_some_iff {p : Prop} [Decidable p] {e e' : Err} {rest : Option Err} :
    (if p then some e' else rest) = some e ↔ (p ∧ e' = e) ∨ (¬ p ∧ rest = some e) := by
  by_cases hp : p <;> simp [hp]

/-- An illegal word ends its command whatever its opcode, so a command reports its errors when it reports those of its checks. -/
theorem reportsItsErrors_of {i : Instr} (h : ∀ s e, FirstFailing (checksOf i s) e → exec i s = .next (s.finish e)) :
    ReportsItsErrors i :=
  ⟨fun s hr _ hw => illegalWordRaisesIllegalCommand s hr hw, h⟩

theorem checkCmac_eq_some_iff {s : State} {e : Err} : checkCmac s = some e ↔ FirstFailing (checksOf .cmac s) e := by
  simp only [checkCmac, checksOf, check_eq_some_iff, firstFailing_cons, firstFailing_nil, Bool.not_eq_true', ← Bool.not_eq_true,
    Bool.and_eq_true, inRangeComplex_iff, and_assoc, and_false, reduceCtorEq]

theorem execCmac_of_firstFailing {s : State} {e : Err} (h : FirstFailing (checksOf .cmac s) e) :
    execCmac s = .next (s.finish e) := by
  simp [execCmac, cmac, checkCmac_eq_some_iff.2 h]

/-! The elements. -/

/-- `m'` is `m` after element `i` of a `CMAC`: all three elements are read from `m`, and the accumulator is on
the left of the sum. -/
def AccumulatesElement (p a b i : Nat) (m m' : Memory) : Prop :=
  ∃ acc x y κ κ', m.readC (p + 2 * i) = some acc ∧ m.readC (a + 2 * i) = some x ∧ m.readC (b + 2 * i) = some y ∧
    m' = m.writeC (p + 2 * i) (cadd κ acc (cmul κ' x y))

/-- `CMAC`'s loop goes over its elements in ascending order, each from the memory that the elements before it left. -/
theorem cmacLoop_memories {κ : Draws} {p a b n t : Nat} {m m' : Memory} (h : cmacLoop κ p a b n t m = some m') :
    ∃ mem : Nat → Memory, mem 0 = m ∧ mem n = m' ∧
      ∀ i, i < n → AccumulatesElement p a b (t + i) (mem i) (mem (i + 1)) := by
  induction n generalizing t m with
  | zero =>
    cases h
    exact ⟨fun _ => m', rfl, rfl, fun i hi => by omega⟩
  | succ n ih =>
    rw [cmacLoop] at h
    split at h
    · next x y acc hx hy hacc =>
      obtain ⟨mem, hfirst, hlast, hmem⟩ := ih h
      refine ⟨fun | 0 => m | i + 1 => mem i, rfl, hlast, fun i hi => ?_⟩
      cases i with
      | zero => exact ⟨acc, x, y, _, _, hacc, hx, hy, hfirst⟩
      | succ i =>
        have hi' := hmem i (by omega)
        rwa [Nat.add_right_comm] at hi'
    · cases h

theorem readC_isSome_of_readable {m : Memory} {base n i : Nat} (h : Readable m base (2 * n)) (hi : i < n) :
    (m.readC (base + 2 * i)).isSome :=
  readC_isSome.2 ⟨h _ (by omega) (by omega), h _ (by omega) (by omega)⟩

/-- On readable buffers, with the check passed, `CMAC` succeeds with the memory that its loop leaves (R78). -/
theorem execCmac_succeeds {s : State} (hc : NoneFails (checksOf .cmac s)) (hp : Readable s.dmem (s.arg 0) (2 * s.arg 3))
    (ha : Readable s.dmem (s.arg 1) (2 * s.arg 3)) (hb : Readable s.dmem (s.arg 2) (2 * s.arg 3)) :
    ∃ m, cmacLoop (s.supply Config.units) (s.arg 0) (s.arg 1) (s.arg 2) (s.arg 3) 0 s.dmem = some m ∧
      execCmac s = .next (State.finish { s with dmem := m } .ok) := by
  obtain ⟨m, hm⟩ := Option.isSome_iff_exists.1
    (cmacLoop_isSome (s.supply Config.units) (s.arg 0) (s.arg 1) (s.arg 2) (s.arg 3) 0 s.dmem
      (fun i _ hi => readC_isSome_of_readable hp (by omega)) (fun i _ hi => readC_isSome_of_readable ha (by omega))
      fun i _ hi => readC_isSome_of_readable hb (by omega))
  exact ⟨m, hm, by simp [execCmac, cmac, checkCmac_eq_none_iff.2 hc, hm, State.succeed]⟩

/-- Settles O24: on readable buffers the loop ends, and its memories are those between its elements. -/
theorem cmacAccumulatesInAscendingOrder : Obligations.CmacAccumulatesInAscendingOrder := by
  refine ⟨decode_encode (i := .cmac) rfl, reportsItsErrors_of fun _ _ => execCmac_of_firstFailing, ?_⟩
  intro s hpin hain hbin hp ha hb
  have hc : NoneFails (checksOf .cmac s) := by simp [checksOf, noneFails_cons, noneFails_nil, hpin, hain, hbin]
  obtain ⟨m, hm, hexec⟩ := execCmac_succeeds hc hp ha hb
  obtain ⟨mem, hfirst, hlast, hmem⟩ := cmacLoop_memories hm
  refine ⟨_, mem, hexec, rfl, exec_sameOutside (i := .cmac) hexec, hfirst, hlast, fun i hi => ?_⟩
  have h := hmem i hi
  rwa [Nat.zero_add] at h

end Sys2Proof.Claims
end

section
/-! The forward transform, stage by stage (R75, R80, R82). -/

open Sys2Proof.Machine

namespace Sys2Proof.Machine

/-- What the first `p` passes of the forward pipeline leave of a sequence: the bit reversal, then a pass of each size (R82). -/
def fwdStage {α : Type} (bf : Nat → List Nat → α → α → α × α) (v : List α) (p : Nat) : List α :=
  (List.range p).foldl (fun w q => fwdPass bf v.length q w) (reorder v)

section Stages
variable {α : Type} (bf : Nat → List Nat → α → α → α × α) (v : List α)

theorem fwdStage_succ (p : Nat) : fwdStage bf v (p + 1) = fwdPass bf v.length p (fwdStage bf v p) := by
  rw [fwdStage, List.range_succ, List.foldl_concat, ← fwdStage]

@[simp] theorem fwdStage_length (p : Nat) : (fwdStage bf v p).length = v.length := by
  rw [fwdStage, foldl_length _ fun w q => fwdPass_length bf _ q w, reorder_length]

/-- But for the length 2 the pipeline is all its stages (R82). -/
theorem fwdNetwork_eq_fwdStage {e : Nat} (he : e ≠ 1) (hv : v.length = 2 ^ e) : fwdNetwork bf v = fwdStage bf v e := by
  have h2 : v.length ≠ 2 := fun h => he (Nat.pow_right_injective le_rfl (hv.symm.trans h))
  rw [fwdNetwork, if_neg h2, hv, log2_two_pow, fwdStage, hv]

/-- The bit reversal moves element `i` to place `reverseBits(i)` (R80). -/
theorem getElem?_reorder_reverseBits {e i : Nat} (hv : v.length = 2 ^ e) (hi : i < 2 ^ e) :
    (reorder v)[reverseBits i e]? = v[i]? := by
  rw [getElem?_reorder v e hv _ (hv ▸ reverseBits_lt i e), reverseBits_reverseBits i e hi]

/-- Each pass makes each pair its butterfly of the values before the pass (R82). -/
theorem getElem?_fwdStage_succ {e p b i : Nat} (hv : v.length = 2 ^ e) (hp : p < e) (hb : b < 2 ^ (e - p - 1)) (hi : i < 2 ^ p) :
    let j := b * 2 ^ (p + 1) + i
    let l := j + 2 ^ p
    ∃ x y, (fwdStage bf v p)[j]? = some x ∧ (fwdStage bf v p)[l]? = some y ∧
      (fwdStage bf v (p + 1))[j]? = some (bf (i * 2 ^ (e - p - 1)) [p, j] x y).1 ∧
      (fwdStage bf v (p + 1))[l]? = some (bf (i * 2 ^ (e - p - 1)) [p, j] x y).2 := by
  rw [fwdStage_succ, hv]
  exact getElem?_fwdPass bf e p hp _ ((fwdStage_length bf v p).trans hv) b i hb hi

end Stages

/-- The butterfly of `fwd` on a sequence of length `n`: at ROM index `k`, with the free values of its position `path` (R82). -/
def fwdButterfly (u : Units) (κ : Draws) (n k : Nat) (path : List Nat) : Cplx → Cplx → Cplx × Cplx :=
  butterfly (fun q => κ (path ++ q)) (romEntry u n k)

theorem fwd_eq_fwdStage (u : Units) (κ : Draws) {e : Nat} {v : List Cplx} (he : e ≠ 1) (hv : v.length = 2 ^ e) :
    fwd u κ v = fwdStage (fwdButterfly u κ (2 ^ e)) v e := by
  rw [← fwdNetwork_eq_fwdStage _ v he hv, ← hv]
  rfl

end Sys2Proof.Machine

namespace Sys2Proof.Claims

/-- Settles O60: the stages are those of the pipeline, and a pass makes each pair its butterfly. -/
theorem forwardTransformIsItsButterflies : Obligations.ForwardTransformIsItsButterflies := by
  refine ⟨fun u N => ⟨rfl, fun k hk => if_neg hk⟩, fun u κ e v he hv => ?_⟩
  refine ⟨fwdStage (fwdButterfly u κ (2 ^ e)) v, fwd_eq_fwdStage u κ he hv, fun p _ => (fwdStage_length _ v p).trans hv,
    fun i hi => getElem?_reorder_reverseBits v hv hi, fun p b i hp hb hi => ?_⟩
  obtain ⟨x, y, hx, hy, hlower, hupper⟩ := getElem?_fwdStage_succ (fwdButterfly u κ (2 ^ e)) v hv hp hb hi
  exact ⟨x, y, _, _, _, hx, hy, hlower, hupper⟩

end Sys2Proof.Claims
end

section
/-! The modulus is within `HYPOT_OK` (R76), counted in units of 2^-1074 and over the reals. -/

namespace Sys2Proof.Machine

/-! The gap above an encoding. -/

/-- The units of the encoding with exponent part `k` and significand `q`; without a hidden bit the exponent part is 0. -/
theorem unitsOfBits_eq_mul {k q : Nat} (hq : q ≤ 2 ^ 53) (hk : k = 0 ∨ 2 ^ 52 ≤ q) :
    unitsOfBits (k * 2 ^ 52 + q) = q * 2 ^ k := by
  rcases Nat.lt_or_ge q (2 ^ 52) with h | h
  · obtain rfl : k = 0 := by omega
    rw [Nat.zero_mul, Nat.zero_add, pow_zero, Nat.mul_one, unitsOfBits_low h]
  · exact unitsOfBits_carry h hq

/-- `ulpUnits` is the distance to the next larger encoding. -/
theorem unitsOfBits_succ (b : Nat) : unitsOfBits (b + 1) = unitsOfBits b + ulpUnits b := by
  obtain ⟨q, hb⟩ : ∃ q, b = (b / 2 ^ 52 - 1) * 2 ^ 52 + q := ⟨b - (b / 2 ^ 52 - 1) * 2 ^ 52, by omega⟩
  have h := unitsOfBits_eq_mul (k := b / 2 ^ 52 - 1) (q := q) (by omega) (by omega)
  have h' := unitsOfBits_eq_mul (k := b / 2 ^ 52 - 1) (q := q + 1) (by omega) (by omega)
  rw [← hb] at h
  rw [← Nat.add_assoc, ← hb] at h'
  rw [h, h', ulpUnits, Nat.add_mul, Nat.one_mul]

theorem ulpUnits_mono {b c : Nat} (h : b ≤ c) : ulpUnits b ≤ ulpUnits c :=
  Nat.pow_le_pow_right two_pos (Nat.sub_le_sub_right (Nat.div_le_div_right h) 1)

/-! The root. -/

/-- The significand that `roundSqrtBits` works with: the scaled root rounded down, with its hidden bit unless the scale is 1. -/
theorem isqrt_significand (s : Nat) :
    let k := Nat.log2 s / 2 - 52
    let q := isqrt (s / 4 ^ k) 54
    q < 2 ^ 53 ∧ (k = 0 ∨ 2 ^ 52 ≤ q) ∧ (q * 2 ^ k) * (q * 2 ^ k) ≤ s ∧ s < ((q + 1) * 2 ^ k) * ((q + 1) * 2 ^ k) := by
  intro k q
  have h4 : 4 ^ k = 2 ^ (2 * k) := by rw [pow_mul]; norm_num
  have hlt : s / 4 ^ k < 2 ^ 53 * 2 ^ 53 := by
    rw [Nat.div_lt_iff_lt_mul (by positivity), h4, ← pow_add, ← pow_add]
    exact Nat.lt_log2_self.trans_le (Nat.pow_le_pow_right two_pos (by omega))
  obtain ⟨hlo, hhi⟩ := isqrt_spec (s / 4 ^ k) 54 (hlt.trans (by norm_num))
  refine ⟨lt_of_mul_self_lt_mul_self₀ (Nat.zero_le _) (hlo.trans_lt hlt), ?_, ?_, ?_⟩
  · refine or_iff_not_imp_left.2 fun hk => ?_
    have hs : s ≠ 0 := fun h0 => hk (by simp [k, h0])
    have hge : 2 ^ 52 * 2 ^ 52 ≤ s / 4 ^ k := by
      rw [Nat.le_div_iff_mul_le (by positivity), h4, ← pow_add, ← pow_add]
      exact (Nat.pow_le_pow_right two_pos (by omega)).trans (Nat.log2_self_le hs)
    exact Nat.le_of_lt_succ (lt_of_mul_self_lt_mul_self₀ (Nat.zero_le _) (hge.trans_lt hhi))
  · have := (Nat.le_div_iff_mul_le (by positivity)).1 hlo
    rwa [mul_mul_mul_comm, ← mul_pow]
  · have := (Nat.div_lt_iff_lt_mul (by positivity)).1 hhi
    rwa [mul_mul_mul_comm, ← mul_pow]

/-- `roundSqrtBits` gives one of the two neighbouring encodings of the root. -/
theorem roundSqrtBits_neighbours (s : Nat) :
    ∃ b, unitsOfBits b * unitsOfBits b ≤ s ∧ s < unitsOfBits (b + 1) * unitsOfBits (b + 1) ∧
      (roundSqrtBits s = min b infBits ∨ roundSqrtBits s = min (b + 1) infBits) := by
  obtain ⟨hq, hk, hlo, hhi⟩ := isqrt_significand s
  have hb := unitsOfBits_eq_mul hq.le hk
  have hb' := unitsOfBits_eq_mul (Nat.succ_le_of_lt hq) (hk.imp_right Nat.le_succ_of_le)
  refine ⟨_, by rwa [hb], by rwa [Nat.add_assoc, hb'], ?_⟩
  unfold roundSqrtBits
  dsimp only
  split_ifs
  · exact .inr (by rw [Nat.add_assoc])
  · rcases Nat.mod_two_eq_zero_or_one (isqrt (s / 4 ^ (Nat.log2 s / 2 - 52)) 54) with h | h
    · exact .inl (by rw [h, Nat.add_zero])
    · exact .inr (by rw [h, Nat.add_assoc])
  · exact .inl rfl

theorem roundSqrtBits_le (s : Nat) : roundSqrtBits s ≤ infBits := Nat.min_le_right _ _

/-! `HYPOT_OK`. -/

/-- The exact sum of squares, in squares of units. -/
def sumOfSquares (x y : F64) : Nat := magUnits x * magUnits x + magUnits y * magUnits y

/-- The root of `s` is within one ulp of the magnitude `b`. -/
def WithinUlp (s b : Nat) : Prop :=
  (unitsOfBits b - ulpUnits b) * (unitsOfBits b - ulpUnits b) ≤ s ∧
    s ≤ (unitsOfBits b + ulpUnits b) * (unitsOfBits b + ulpUnits b)

theorem hypotOk_iff {x y r : F64} : hypotOk x y r = true ↔ signBit r = false ∧ isNaN r = false ∧
    (isInf r = true → unitsOfBits (infBits - 1) * unitsOfBits (infBits - 1) ≤ sumOfSquares x y) ∧
    (isInf r = false → WithinUlp (sumOfSquares x y) (r.toNat % 2 ^ 63)) := by
  have hmag : unitsOfBits (r.toNat % 2 ^ 63) = magUnits r := rfl
  rw [WithinUlp, hmag]
  unfold hypotOk
  cases signBit r <;> cases isNaN r <;> cases isInf r <;> simp [sumOfSquares]

theorem withinUlp_lower {s b : Nat} (hlo : unitsOfBits b * unitsOfBits b ≤ s)
    (hhi : s < unitsOfBits (b + 1) * unitsOfBits (b + 1)) : WithinUlp s b := by
  rw [unitsOfBits_succ] at hhi
  exact ⟨(Nat.mul_le_mul (Nat.sub_le _ _) (Nat.sub_le _ _)).trans hlo, hhi.le⟩

theorem withinUlp_upper {s b : Nat} (hlo : unitsOfBits b * unitsOfBits b ≤ s)
    (hhi : s < unitsOfBits (b + 1) * unitsOfBits (b + 1)) : WithinUlp s (b + 1) := by
  have hsub : unitsOfBits (b + 1) - ulpUnits (b + 1) ≤ unitsOfBits b := by
    have := ulpUnits_mono (Nat.le_add_right b 1)
    rw [unitsOfBits_succ]
    omega
  exact ⟨(Nat.mul_le_mul hsub hsub).trans hlo,
    hhi.le.trans (Nat.mul_le_mul (Nat.le_add_right _ _) (Nat.le_add_right _ _))⟩

theorem square_maxFinite_le {s b : Nat} (hb : infBits - 1 ≤ b) (hlo : unitsOfBits b * unitsOfBits b ≤ s) :
    unitsOfBits (infBits - 1) * unitsOfBits (infBits - 1) ≤ s :=
  have h := unitsOfBits_strictMono.monotone hb
  (Nat.mul_le_mul h h).trans hlo

/-- The reference modulus meets `HYPOT_OK` (R76). -/
theorem hypotOk_hypotRef (x y : F64) : hypotOk x y (hypotRef x y) = true := by
  have hle := roundSqrtBits_le (sumOfSquares x y)
  have h63 := lt_two_pow_of_le_infBits hle
  obtain ⟨b, hlo, hhi, hb⟩ := roundSqrtBits_neighbours (sumOfSquares x y)
  have href : hypotRef x y = packF64 false (roundSqrtBits (sumOfSquares x y)) := rfl
  rw [hypotOk_iff, href, isInf_packF64 hle, packF64_low h63, decide_eq_true_eq, decide_eq_false_iff_not]
  refine ⟨signBit_packF64 h63, isNaN_packF64 hle, fun hinf => square_maxFinite_le (b := b) (by omega) hlo, fun hfin => ?_⟩
  rcases hb with hb | hb
  · rw [show roundSqrtBits (sumOfSquares x y) = b by omega]
    exact withinUlp_lower hlo hhi
  · rw [show roundSqrtBits (sumOfSquares x y) = b + 1 by omega]
    exact withinUlp_upper hlo hhi

/-! The cases of the modulus. -/

theorem modulus_of_isInf (u : Units) (d : BitVec 64) {x y : F64} (h : isInf x = true ∨ isInf y = true) :
    modulus u d x y = posInf := by
  rw [modulus, if_pos (by simpa using h)]

theorem isNaN_modulus_of_isNaN (u : Units) (d : BitVec 64) {x y : F64} (hx : isInf x = false) (hy : isInf y = false)
    (h : isNaN x = true ∨ isNaN y = true) : isNaN (modulus u d x y) = true := by
  rw [modulus, if_neg (by simp [hx, hy]), if_pos (by simpa using h), isNaN_nanOf]

/-- Every device's modulus of finite operands meets `HYPOT_OK` (R76). -/
theorem hypotOk_modulus (u : Units) (d : BitVec 64) {x y : F64} (hx : isFinite x = true) (hy : isFinite y = true) :
    hypotOk x y (modulus u d x y) = true := by
  rw [modulus, if_neg (by simp [isInf_of_isFinite, hx, hy]), if_neg (by simp [isNaN_of_isFinite, hx, hy])]
  split
  · assumption
  · exact hypotOk_hypotRef x y

/-- No modulus is negative (R76). -/
theorem isNaN_or_signBit_modulus (u : Units) (d : BitVec 64) (x y : F64) :
    isNaN (modulus u d x y) = true ∨ signBit (modulus u d x y) = false := by
  by_cases hi : isInf x = true ∨ isInf y = true
  · rw [modulus_of_isInf u d hi]
    exact .inr (by decide)
  simp only [not_or, Bool.not_eq_true] at hi
  by_cases hn : isNaN x = true ∨ isNaN y = true
  · exact .inl (isNaN_modulus_of_isNaN u d hi.1 hi.2 hn)
  simp only [not_or, Bool.not_eq_true] at hn
  have hx := (isInf_or_isFinite hn.1).resolve_left (by simp [hi.1])
  have hy := (isInf_or_isFinite hn.2).resolve_left (by simp [hi.2])
  obtain ⟨hsign, -⟩ := hypotOk_iff.1 (hypotOk_modulus u d hx hy)
  exact .inr hsign

theorem signBit_f64 (n : Nat) : signBit (f64 n) = false := signBit_packF64 (lt_two_pow_of_le_infBits (roundBits_le _ _))

/-! Over the reals. -/

theorem toRat_of_signBit {r : F64} (h : signBit r = false) :
    ((toRat r : ℚ) : ℝ) = unitsOfBits (r.toNat % 2 ^ 63) / unitsPerOne := by
  rw [toRat_eq, h, signFactor, if_neg Bool.false_ne_true, one_mul, Rat.cast_div, Rat.cast_natCast, Rat.cast_natCast]
  rfl

theorem toRat_sq (z : F64) : ((toRat z : ℚ) : ℝ) ^ 2 = (magUnits z * magUnits z : ℕ) / (unitsPerOne : ℝ) ^ 2 := by
  have h : toRat z ^ 2 = (magUnits z * magUnits z : ℕ) / (unitsPerOne : ℚ) ^ 2 := by
    rw [toRat_eq, mul_pow, sq (signFactor _), signFactor_mul_self, one_mul, div_pow, Nat.cast_mul, ← sq]
  rw [← Rat.cast_pow, h, Rat.cast_div, Rat.cast_pow, Rat.cast_natCast, Rat.cast_natCast]

theorem sqrt_toRat_eq (x y : F64) :
    √(((toRat x : ℚ) : ℝ) ^ 2 + ((toRat y : ℚ) : ℝ) ^ 2) = √(sumOfSquares x y : ℝ) / unitsPerOne := by
  rw [toRat_sq, toRat_sq, ← add_div, ← Nat.cast_add, Real.sqrt_div (Nat.cast_nonneg _), Real.sqrt_sq (Nat.cast_nonneg _)]
  rfl

/-- A magnitude within one ulp of the root, over the reals. -/
theorem WithinUlp.abs_sub_sqrt_le {s b : Nat} (h : WithinUlp s b) : |(unitsOfBits b : ℝ) - √(s : ℝ)| ≤ ulpUnits b := by
  obtain ⟨hlo, hhi⟩ := h
  have hlow : ((unitsOfBits b - ulpUnits b : ℕ) : ℝ) ≤ √(s : ℝ) := Real.le_sqrt_of_sq_le (by rw [sq]; exact_mod_cast hlo)
  have hhigh : √(s : ℝ) ≤ (unitsOfBits b + ulpUnits b : ℕ) :=
    Real.sqrt_le_iff.2 ⟨Nat.cast_nonneg _, by rw [sq]; exact_mod_cast hhi⟩
  have hsub : (unitsOfBits b : ℝ) ≤ (unitsOfBits b - ulpUnits b : ℕ) + ulpUnits b := by
    exact_mod_cast le_tsub_add
  rw [Nat.cast_add] at hhigh
  exact abs_sub_le_iff.2 ⟨by linarith, by linarith⟩

theorem unitsPerOne_pos_real : (0 : ℝ) < unitsPerOne := by exact_mod_cast unitsPerOne_pos

/-- The largest finite value is `2^1024 - 2^971`. -/
theorem maxFinite_value : (unitsOfBits (infBits - 1) : ℝ) / unitsPerOne = 2 ^ 1024 - 2 ^ 971 := by
  have h1 : (2 : ℝ) ^ 1024 = 2 ^ 53 * 2 ^ 971 := by rw [← pow_add]
  have h2 : (2 : ℝ) ^ 2045 = 2 ^ 971 * 2 ^ 1074 := by rw [← pow_add]
  rw [div_eq_iff unitsPerOne_pos_real.ne', unitsOfBits_maxFinite, unitsPerOne, Nat.cast_mul, Nat.cast_pred (by norm_num)]
  simp only [Nat.cast_pow, Nat.cast_ofNat]
  rw [h1, h2]
  generalize (2 : ℝ) ^ 971 = p, (2 : ℝ) ^ 1074 = u
  ring

end Sys2Proof.Machine

end

section
open Sys2Proof.Machine

namespace Sys2Proof.Claims

/-- Settles O23: the sign of the quotient is that of the modulus, since `f64 n` has a clear sign bit. -/
theorem magnitudesAreNeverNegative : Obligations.MagnitudesAreNeverNegative := by
  intro u κ n x y
  rcases isNaN_or_signBit_modulus u (κ [1]) x y with hnan | hsign
  · exact .inl (isNaN_fdiv_of_isNaN (.inl hnan))
  · have h := isNaN_or_signBit_fdiv (κ [0]) (modulus u (κ [1]) x y) (f64 n)
    rwa [hsign, signBit_f64] at h

/-- Settles O52: `hypotOk` bounds the root in units, and the root of the sum of squares is its root in units over `unitsPerOne`. -/
theorem modulusMeetsHypotOk : Obligations.ModulusMeetsHypotOk := by
  refine fun u d x y => ⟨modulus_of_isInf u d, isNaN_modulus_of_isNaN u d, fun hx hy => ?_⟩
  obtain ⟨hsign, hnan, hinf, hfin⟩ := hypotOk_iff.1 (hypotOk_modulus u d hx hy)
  refine ⟨hsign, hnan, ?_⟩
  rw [sqrt_toRat_eq]
  generalize modulus u d x y = r at *
  refine ⟨fun hr => ?_, fun hr => ?_⟩
  · rw [toRat_of_signBit hsign, ← sub_div, abs_div, abs_of_pos unitsPerOne_pos_real, expField_eq_low]
    exact div_le_div_of_nonneg_right (hfin hr).abs_sub_sqrt_le unitsPerOne_pos_real.le
  · rw [← maxFinite_value]
    refine div_le_div_of_nonneg_right (Real.le_sqrt_of_sq_le ?_) unitsPerOne_pos_real.le
    rw [sq]
    exact_mod_cast hinf hr

end Sys2Proof.Claims
end

section
/-! The discrete Fourier transform over the complex numbers, and its halving (R82, R88). -/

namespace Sys2Proof.Machine

/-- `e^{-2πia/n}`, the twiddle factor of R12. -/
noncomputable def unitRoot (n a : ℕ) : ℂ := Complex.exp (-2 * Real.pi * Complex.I * a / n)

theorem unitRoot_zero (n : ℕ) : unitRoot n 0 = 1 := by simp [unitRoot]

theorem unitRoot_add (n a b : ℕ) : unitRoot n (a + b) = unitRoot n a * unitRoot n b := by
  rw [unitRoot, unitRoot, unitRoot, ← Complex.exp_add, Nat.cast_add]
  ring_nf

theorem unitRoot_mul_mul {c : ℕ} (hc : c ≠ 0) (n a : ℕ) : unitRoot (c * n) (c * a) = unitRoot n a := by
  rw [unitRoot, unitRoot, Nat.cast_mul, Nat.cast_mul, mul_left_comm, mul_div_mul_left _ _ (Nat.cast_ne_zero.2 hc)]

theorem unitRoot_self_mul {n : ℕ} (hn : n ≠ 0) (a : ℕ) : unitRoot n (n * a) = 1 := by
  have h := unitRoot_mul_mul hn 1 a
  rw [mul_one] at h
  rw [h, unitRoot, ← Complex.exp_int_mul_two_pi_mul_I (-a)]
  push_cast
  ring_nf

/-- Half a turn. -/
theorem unitRoot_half {n : ℕ} (hn : n ≠ 0) : unitRoot (2 * n) n = -1 := by
  have h := unitRoot_mul_mul hn 2 1
  rw [mul_one, mul_comm n 2] at h
  rw [h, unitRoot, ← Complex.exp_neg_pi_mul_I]
  push_cast
  ring_nf

/-- Bin `m` of the discrete Fourier transform of the first `n` values of `f`. -/
noncomputable def dft (n : ℕ) (f : ℕ → ℂ) (m : ℕ) : ℂ := ∑ j ∈ Finset.range n, f j * unitRoot n (j * m)

theorem dft_one (f : ℕ → ℂ) (m : ℕ) : dft 1 f m = f 0 := by simp [dft, unitRoot_zero]

/-- The bins repeat after `n`. -/
theorem dft_add_length {n : ℕ} (hn : n ≠ 0) (f : ℕ → ℂ) (m : ℕ) : dft n f (m + n) = dft n f m := by
  refine Finset.sum_congr rfl fun j _ => ?_
  rw [mul_add, unitRoot_add, mul_comm j n, unitRoot_self_mul hn, mul_one]

theorem sum_range_two_mul (n : ℕ) (g : ℕ → ℂ) :
    ∑ j ∈ Finset.range (2 * n), g j = ∑ j ∈ Finset.range n, g (2 * j) + ∑ j ∈ Finset.range n, g (2 * j + 1) := by
  induction n with
  | zero => simp
  | succ n ih =>
    rw [Nat.mul_succ, Finset.sum_range_succ, Finset.sum_range_succ, ih, Finset.sum_range_succ, Finset.sum_range_succ]
    ring

/-- A transform of length `2n` comes from those of its even and of its odd values. -/
theorem dft_two_mul (n : ℕ) (f : ℕ → ℂ) (m : ℕ) :
    dft (2 * n) f m = dft n (fun j => f (2 * j)) m + dft n (fun j => f (2 * j + 1)) m * unitRoot (2 * n) m := by
  have heven : ∀ j, unitRoot (2 * n) (2 * (j * m)) = unitRoot n (j * m) := fun j => unitRoot_mul_mul two_ne_zero n _
  simp only [dft, sum_range_two_mul, Finset.sum_mul, add_mul, one_mul, unitRoot_add, mul_assoc, heven]

/-- Its upper half has the difference where its lower half has the sum. -/
theorem dft_two_mul_add_half {n : ℕ} (hn : n ≠ 0) (f : ℕ → ℂ) (m : ℕ) :
    dft (2 * n) f (m + n) = dft n (fun j => f (2 * j)) m - dft n (fun j => f (2 * j + 1)) m * unitRoot (2 * n) m := by
  rw [dft_two_mul, dft_add_length hn, dft_add_length hn, unitRoot_add, unitRoot_half hn]
  ring

end Sys2Proof.Machine
end

section
/-! The stages of the exact network (R82, R88): block `b` of stage `p` holds the transform of the values that the bit reversal brings
to it. -/

open Sys2Proof.Machine

namespace Sys2Proof.Claims

theorem exactButterfly_eq (n k : ℕ) (a b : ℂ) : exactButterfly n k a b = (a + b * unitRoot n k, a - b * unitRoot n k) := rfl

/-- The values of `v` that the bit reversal brings to block `b` of stage `e - q`, in their order: every `2^q`-th from
`reverseBits(b, q)` on. -/
def blockValues (v : List ℂ) (q b j : ℕ) : ℂ := v.getD (reverseBits b q + 2 ^ q * j) 0

/-- The values of an even block are the even ones of the block of the next stage. -/
theorem blockValues_even (v : List ℂ) (q b : ℕ) :
    blockValues v (q + 1) (2 * b) = fun j => blockValues v q b (2 * j) := by
  funext j
  rw [blockValues, blockValues, reverseBits, Nat.mul_mod_right, Nat.mul_div_cancel_left _ two_pos, zero_mul, zero_add, pow_succ,
    mul_assoc]

/-- The values of an odd block are the odd ones of the block of the next stage. -/
theorem blockValues_odd (v : List ℂ) (q b : ℕ) :
    blockValues v (q + 1) (2 * b + 1) = fun j => blockValues v q b (2 * j + 1) := by
  funext j
  have hmod : (2 * b + 1) % 2 = 1 := by omega
  have hdiv : (2 * b + 1) / 2 = b := by omega
  rw [blockValues, blockValues, reverseBits, hmod, hdiv]
  congr 1
  ring

/-- The exact network on sequences of length `2^e`, after `p` passes. -/
noncomputable def exactStage (e : ℕ) (v : List ℂ) (p : ℕ) : List ℂ :=
  fwdStage (fun t _ a b => exactButterfly (2 ^ e) t a b) v p

/-- The twiddle factor of stage `p` at entry `i * 2^(e-p-1)` of the table of length `2^e` (R82). -/
theorem unitRoot_stage {e p : ℕ} (hp : p < e) (i : ℕ) : unitRoot (2 ^ e) (i * 2 ^ (e - p - 1)) = unitRoot (2 * 2 ^ p) i := by
  have hlen : 2 ^ e = 2 ^ (e - p - 1) * (2 * 2 ^ p) := by
    rw [← pow_succ', ← pow_add]
    congr 1
    omega
  rw [hlen, mul_comm i, unitRoot_mul_mul (by positivity)]

/-- The butterfly of bin `t` of an even block and of the odd block after it gives the bins `t` and `t + 2^p` of their block of the next
stage. -/
theorem getElem?_exactStage_succ {e p b t : ℕ} {v : List ℂ} (hv : v.length = 2 ^ e) (hp : p < e) (hb : b < 2 ^ (e - (p + 1)))
    (ht : t < 2 ^ p)
    (heven : (exactStage e v p)[2 * b * 2 ^ p + t]? = some (dft (2 ^ p) (blockValues v (e - p) (2 * b)) t))
    (hodd : (exactStage e v p)[(2 * b + 1) * 2 ^ p + t]? = some (dft (2 ^ p) (blockValues v (e - p) (2 * b + 1)) t)) :
    (exactStage e v (p + 1))[b * 2 ^ (p + 1) + t]? = some (dft (2 ^ (p + 1)) (blockValues v (e - (p + 1)) b) t) ∧
    (exactStage e v (p + 1))[b * 2 ^ (p + 1) + (t + 2 ^ p)]? =
      some (dft (2 ^ (p + 1)) (blockValues v (e - (p + 1)) b) (t + 2 ^ p)) := by
  have hq : e - p = e - (p + 1) + 1 := by omega
  obtain ⟨x, y, hx, hy, hlower, hupper⟩ :=
    getElem?_fwdStage_succ (fun t _ a b => exactButterfly (2 ^ e) t a b) v hv hp (by rwa [Nat.sub_sub]) ht
  rw [hq, blockValues_even, show 2 * b * 2 ^ p + t = b * 2 ^ (p + 1) + t by ring] at heven
  rw [hq, blockValues_odd, show (2 * b + 1) * 2 ^ p + t = b * 2 ^ (p + 1) + t + 2 ^ p by ring] at hodd
  obtain rfl := Option.some.inj (hx.symm.trans heven)
  obtain rfl := Option.some.inj (hy.symm.trans hodd)
  rw [exactButterfly_eq, unitRoot_stage hp, pow_succ' 2 p] at hlower hupper
  rw [pow_succ' 2 p, dft_two_mul, dft_two_mul_add_half (by positivity), ← add_assoc]
  exact ⟨hlower, hupper⟩

/-- After `p` passes block `b` holds the transform of its values. -/
theorem getElem?_exactStage {e p : ℕ} {v : List ℂ} (hv : v.length = 2 ^ e) (hp : p ≤ e) {b i : ℕ} (hb : b < 2 ^ (e - p))
    (hi : i < 2 ^ p) :
    (exactStage e v p)[b * 2 ^ p + i]? = some (dft (2 ^ p) (blockValues v (e - p) b) i) := by
  induction p generalizing b i with
  | zero =>
    obtain rfl : i = 0 := by simpa using hi
    have hrev : reverseBits b e < v.length := hv ▸ reverseBits_lt b e
    have hstage : (exactStage e v 0)[b]? = v[reverseBits b e]? := getElem?_reorder v e hv b (hv ▸ hb)
    rw [pow_zero, mul_one, dft_one, blockValues, mul_zero, add_zero, add_zero, Nat.sub_zero, hstage, List.getElem?_eq_getElem hrev,
      List.getD_eq_getElem v 0 hrev]
  | succ p ih =>
    have hpow : 2 ^ (e - p) = 2 * 2 ^ (e - (p + 1)) := by
      rw [← pow_succ']
      congr 1
      omega
    have pair : ∀ t, t < 2 ^ p → _ := fun t ht => getElem?_exactStage_succ hv hp hb ht
      (ih (b := 2 * b) (by omega) (by omega) ht) (ih (b := 2 * b + 1) (by omega) (by omega) ht)
    rcases Nat.lt_or_ge i (2 ^ p) with h | h
    · exact (pair i h).1
    · obtain ⟨t, rfl⟩ := Nat.exists_eq_add_of_le' h
      exact (pair t (by rw [pow_succ] at hi; omega)).2

/-- Settles O56: the one block of the last stage is the whole sequence, in its own order. -/
theorem exactNetworkIsTheFourierTransform : Obligations.ExactNetworkIsTheFourierTransform := by
  intro k v hk hv m hm
  have hlast := getElem?_exactStage hv le_rfl (b := 0) (by simp) hm
  rw [zero_mul, zero_add] at hlast
  rw [fwdNetwork_eq_fwdStage _ v hk hv, ← exactStage, hlast, dft]
  refine congrArg some (Finset.sum_congr rfl fun j _ => ?_)
  simp [blockValues, reverseBits, unitRoot, mul_assoc]

/-- Settles O57: length 2 skips the network, and length 1 has no pass and no pair to swap. -/
theorem shortTransforms : Obligations.ShortTransforms := by
  intro u κ a b
  have hone : fwd u κ [a] = [a] := fwd_eq_fwdStage u κ (e := 0) (by decide) rfl
  exact ⟨rfl, hone, _, _, rfl⟩

end Sys2Proof.Claims
end

section
/-! The commands of the FFT engine report their errors, and complete on readable buffers (R81, R83, R85, R87, R109 to R111). -/

open Sys2Proof.Machine

namespace Sys2Proof.Claims

/-! The first check that fails. -/

section Errors
variable {s : State} {e : Err}

theorem checkBitrev_eq_some_iff : checkBitrev s = some e ↔ FirstFailing (checksOf .bitrev s) e := by
  simp only [checkBitrev, checksOf, check_eq_some_iff, firstFailing_cons, firstFailing_nil, Bool.not_eq_true', ← Bool.not_eq_true,
    isPowerOfTwo_iff, inRangeComplex_iff, and_false, or_false, reduceCtorEq]

theorem checkFftFwd_eq_some_iff : checkFftFwd s = some e ↔ FirstFailing (checksOf .fftFwd s) e := by
  by_cases h2 : s.arg 1 = 2
  · simp [checkFftFwd, checksOf, h2, firstFailing_cons, firstFailing_nil]
  · simp only [checkFftFwd, checksOf, h2, if_false, check_eq_some_iff, firstFailing_cons, firstFailing_nil, Bool.not_eq_true',
      ← Bool.not_eq_true, isPowerOfTwo_iff, inRangeComplex_iff, ne_eq, not_false_eq_true, true_and, and_false, or_false,
      reduceCtorEq]

theorem checkFftInv_eq_some_iff : checkFftInv s = some e ↔ FirstFailing (checksOf .fftInv s) e := by
  simp only [checkFftInv, checksOf, check_eq_some_iff, firstFailing_cons, firstFailing_nil, Bool.not_eq_true', ← Bool.not_eq_true,
    Bool.and_eq_true, decide_eq_true_eq, isPowerOfTwo_iff, inRangeComplex_iff, and_false, or_false, reduceCtorEq]

theorem checkFftMag_eq_some_iff : checkFftMag s = some e ↔ FirstFailing (checksOf .fftMag s) e := by
  simp only [checkFftMag, checksOf, check_eq_some_iff, firstFailing_cons, firstFailing_nil, Bool.not_eq_true', ← Bool.not_eq_true,
    Bool.and_eq_true, inRangeReal_iff, inRangeComplex_iff, and_false, or_false, reduceCtorEq]

theorem execBitrev_of_firstFailing (h : FirstFailing (checksOf .bitrev s) e) : execBitrev s = .next (s.finish e) := by
  simp [execBitrev, bitrev, checkBitrev_eq_some_iff.2 h]

theorem execFftFwd_of_firstFailing (h : FirstFailing (checksOf .fftFwd s) e) : execFftFwd s = .next (s.finish e) := by
  simp [execFftFwd, fftFwd, checkFftFwd_eq_some_iff.2 h]

theorem execFftInv_of_firstFailing (h : FirstFailing (checksOf .fftInv s) e) : execFftInv s = .next (s.finish e) := by
  simp [execFftInv, fftInv, checkFftInv_eq_some_iff.2 h]

theorem execFftMag_of_firstFailing (h : FirstFailing (checksOf .fftMag s) e) : execFftMag s = .next (s.finish e) := by
  simp [execFftMag, fftMag, checkFftMag_eq_some_iff.2 h]

end Errors

/-! Completion. -/

section Completion
variable {s : State} {v : List Cplx}

/-- `BITREV` stores the reordered buffer (R81). -/
theorem execBitrev_succeeds (hc : NoneFails (checksOf .bitrev s)) (hv : loadC s.dmem (s.arg 0) (s.arg 1) = some v) :
    execBitrev s = .next (State.finish { s with dmem := storeC s.dmem (s.arg 0) (reorder v) } .ok) := by
  simp [execBitrev, bitrev, checkBitrev_eq_none_iff.2 hc, hv]

/-- `FFT_FWD` stores the transform, but for the length 2 (R83). -/
theorem execFftFwd_succeeds (hc : NoneFails (checksOf .fftFwd s)) (h2 : s.arg 1 ≠ 2)
    (hv : loadC s.dmem (s.arg 0) (s.arg 1) = some v) :
    execFftFwd s = .next (State.finish
      { s with dmem := storeC s.dmem (s.arg 0) (fwd Config.units (s.supply Config.units) v) } .ok) := by
  simp [execFftFwd, fftFwd, checkFftFwd_eq_none_iff.2 hc, h2, hv]

/-- With the length 2 `FFT_FWD` fails no check and makes no access (R83). -/
theorem execFftFwd_two (h2 : s.arg 1 = 2) : execFftFwd s = .next (s.finish .ok) := by
  simp [execFftFwd, fftFwd, checkFftFwd, h2]

/-- `FFT_INV` stores the inverse transform, also of length 2 (R85). -/
theorem execFftInv_succeeds (hc : NoneFails (checksOf .fftInv s)) (hv : loadC s.dmem (s.arg 0) (s.arg 1) = some v) :
    execFftInv s = .next (State.finish
      { s with dmem := storeC s.dmem (s.arg 0) (inv Config.units (s.supply Config.units) v) } .ok) := by
  simp [execFftInv, fftInv, checkFftInv_eq_none_iff.2 hc, hv]

end Completion

/-- `read_storeC` for an element that is known. -/
theorem read_storeC_of_getElem? {zs : List Cplx} {t : Nat} {z : Cplx} (h : zs[t]? = some z) (m : Memory) (base : Nat) :
    (storeC m base zs).read (base + 2 * t) = some z.re ∧ (storeC m base zs).read (base + 2 * t + 1) = some z.im := by
  obtain ⟨ht, -⟩ := List.getElem?_eq_some_iff.1 h
  simpa [h] using read_storeC zs m base t ht

/-- A readable buffer of words is one of complex elements. -/
theorem exists_loadC_of_readable {m : Memory} {base n : Nat} (h : Readable m base (2 * n)) : ∃ v, loadC m base n = some v :=
  Option.isSome_iff_exists.1 (loadC_isSome.2 fun t ht => h _ (by omega) (by omega))

/-- An element of `inv` is the real part of the transformed conjugate over the length, with imaginary part `+0.0` (R84). -/
theorem getElem?_inv {u : Units} {κ : Draws} {v : List Cplx} {i : Nat} {z : Cplx}
    (h : (fwd u (κ.sub 0) (v.map conjC))[i]? = some z) :
    (inv u κ v)[i]? = some { re := fdiv (κ [1, i]) z.re (f64 v.length), im := posZero } := by
  rw [inv, List.getElem?_mapIdx, h]
  rfl

/-- Settles O18: the buffer stored is the reordered one, and a reordering moves whole elements. -/
theorem bitrevMovesEveryElement : Obligations.BitrevMovesEveryElement := by
  refine ⟨decode_encode (i := .bitrev) rfl, reportsItsErrors_of fun _ _ => execBitrev_of_firstFailing, ?_⟩
  intro s k hk hcap hin hread
  have hc : NoneFails (checksOf .bitrev s) := by
    simp [checksOf, noneFails_cons, noneFails_nil, hcap, hin, show ∃ k, s.arg 1 = 2 ^ k from ⟨k, hk⟩]
  obtain ⟨v, hv⟩ := exists_loadC_of_readable hread
  have hexec := execBitrev_succeeds hc hv
  refine ⟨_, hexec, rfl, exec_sameOutside (i := .bitrev) hexec, fun i hi => ?_⟩
  obtain ⟨hlen, helem⟩ := loadC_eq_some.1 hv
  obtain ⟨z, hz⟩ : ∃ z, v[i]? = some z := ⟨_, List.getElem?_eq_getElem (hlen ▸ hi)⟩
  obtain ⟨hre, him⟩ := Memory.readC_eq_some.1 ((helem i hi).trans hz)
  rw [hre, him]
  exact read_storeC_of_getElem? ((getElem?_reorder_reverseBits v (hlen.trans hk) (hk ▸ hi)).trans hz) _ _

/-- Settles O19: what was stored is loaded back. -/
theorem fftFwdStoresTheTransform : Obligations.FftFwdStoresTheTransform := by
  refine ⟨decode_encode (i := .fftFwd) rfl, reportsItsErrors_of fun _ _ => execFftFwd_of_firstFailing,
    fun _ => execFftFwd_two, ?_⟩
  intro s v hpow h2 hcap hin hv
  have hc : NoneFails (checksOf .fftFwd s) := by simp [checksOf, noneFails_cons, noneFails_nil, hcap, hin, hpow]
  have hexec := execFftFwd_succeeds hc h2 hv
  have hout := exec_sameOutside (i := .fftFwd) hexec
  rw [storeWords, if_neg h2] at hout
  have hlen : (fwd Config.units (s.supply Config.units) v).length = s.arg 1 := (fwd_length _ _ v).trans (loadC_eq_some.1 hv).1
  exact ⟨_, hexec, rfl, hout, hlen ▸ loadC_storeC _ s.dmem (s.arg 0)⟩

/-- Settles O20: the buffer stored is the inverse transform, element by element. -/
theorem fftInvStoresScaledRealParts : Obligations.FftInvStoresScaledRealParts := by
  refine ⟨decode_encode (i := .fftInv) rfl, reportsItsErrors_of fun _ _ => execFftInv_of_firstFailing, ?_⟩
  intro s v hpow hcap hin hv
  have hc : NoneFails (checksOf .fftInv s) := by simp [checksOf, noneFails_cons, noneFails_nil, hcap, hin, hpow]
  have hexec := execFftInv_succeeds hc hv
  refine ⟨_, hexec, rfl, exec_sameOutside (i := .fftInv) hexec, fun i hi => ?_⟩
  have hlen : v.length = s.arg 1 := (loadC_eq_some.1 hv).1
  obtain ⟨z, hz⟩ : ∃ z, (fwd Config.units ((s.supply Config.units).sub 0) (v.map conjC))[i]? = some z :=
    ⟨_, List.getElem?_eq_getElem (by simpa [hlen] using hi)⟩
  obtain ⟨hre, him⟩ := read_storeC_of_getElem? (getElem?_inv hz) s.dmem (s.arg 0)
  exact ⟨him, z, _, hz, hlen ▸ hre⟩

/-! The magnitudes. -/

/-- `m'` is `m` after element `i` of an `FFT_MAG` of `n` elements: the element is read from `m`, and its scaled magnitude is stored. -/
def StoresMagnitude (u : Units) (d s n i : Nat) (m m' : Memory) : Prop :=
  ∃ x y κ, m.read (s + 2 * i) = some x ∧ m.read (s + 2 * i + 1) = some y ∧ m' = m.write (d + i) (scaledMag u κ n x y)

/-- `FFT_MAG`'s loop goes over its elements in ascending order, each from the memory that the elements before it left. -/
theorem magLoop_memories {u : Units} {κ : Draws} {d s n k t : Nat} {m m' : Memory} (h : magLoop u κ d s n k t m = some m') :
    ∃ mem : Nat → Memory, mem 0 = m ∧ mem k = m' ∧ ∀ i, i < k → StoresMagnitude u d s n (t + i) (mem i) (mem (i + 1)) := by
  induction k generalizing t m with
  | zero =>
    cases h
    exact ⟨fun _ => m', rfl, rfl, fun i hi => by omega⟩
  | succ k ih =>
    rw [magLoop] at h
    split at h
    · next x y hx hy =>
      obtain ⟨mem, hfirst, hlast, hmem⟩ := ih h
      refine ⟨fun | 0 => m | i + 1 => mem i, rfl, hlast, fun i hi => ?_⟩
      cases i with
      | zero => exact ⟨x, y, _, hx, hy, hfirst⟩
      | succ i =>
        have hi' := hmem i (by omega)
        rwa [Nat.add_right_comm] at hi'
    · cases h

/-- Settles O21: on a readable source the loop ends, and its memories are those between its elements. -/
theorem fftMagGoesInAscendingOrder : Obligations.FftMagGoesInAscendingOrder := by
  refine ⟨decode_encode (i := .fftMag) rfl, reportsItsErrors_of fun _ _ => execFftMag_of_firstFailing, ?_⟩
  intro s hlen hdst hsrc hread
  have hc : NoneFails (checksOf .fftMag s) := by simp [checksOf, noneFails_cons, noneFails_nil, hlen, hlen ▸ hdst, hsrc]
  obtain ⟨m, hm, hexec⟩ := execFftMag_succeeds hc hread
  obtain ⟨mem, hfirst, hlast, hmem⟩ := magLoop_memories hm
  refine ⟨_, mem, hexec, rfl, exec_sameOutside (i := .fftMag) hexec, hfirst, hlast, fun i hi => ?_⟩
  obtain ⟨x, y, κ, hx, hy, hmag⟩ := hmem i hi
  rw [Nat.zero_add] at hx hy hmag
  exact ⟨x, y, _, _, hx, hy, hmag⟩

end Sys2Proof.Claims
end

section
/-! The convolver's plan, its lanes, and each step of a pass, bin by bin and sample by sample (R89, R90, R97 to R102). -/

namespace Sys2Proof.Machine

/-! The plan. -/

/-- The stride is 3 for small blocks and 1 for large ones (R90, R99). -/
theorem planK_div {B M : Nat} (hM : 1 ≤ M) : planK B M / M = if 128 < B then 1 else 3 := by
  unfold planK
  split
  · exact Nat.div_self hM
  · exact Nat.mul_div_left 3 hM

/-- The strides of all impulse segments but the first stay inside the ring. -/
theorem stride_lt_planK {B M i : Nat} (hi : i < M) : i * (planK B M / M) < planK B M := by
  rw [planK_div (by omega), planK]
  split <;> omega

theorem nextPowerOfTwo_eq {v B : Nat} (hB : ∃ k, B = 2 ^ k) (hle : v ≤ B) (hleast : ∀ j, v ≤ 2 ^ j → B ≤ 2 ^ j) :
    nextPowerOfTwo v = B := by
  obtain ⟨k, rfl⟩ := hB
  obtain ⟨j, hj⟩ := isPowerOfTwo_iff.1 (isPowerOfTwo_next v)
  refine Nat.le_antisymm (nextPowerOfTwo_le hle) ?_
  rw [hj]
  exact hleast j (hj ▸ le_nextPowerOfTwo v)

/-- Going round a ring by less than its length ends at another slot. -/
theorem add_mod_ne_self {p d K : Nat} (hp : p < K) (h0 : 0 < d) (hd : d < K) : (p + d) % K ≠ p := by
  rcases Nat.lt_or_ge (p + d) K with h | h
  · rw [Nat.mod_eq_of_lt h]
    omega
  · rw [Nat.mod_eq_sub_mod h, Nat.mod_eq_of_lt (by omega)]
    omega

/-! Lanes. -/

theorem laneIndex_mod {c : Context} (h : c.channel < c.numChannels) (t : Nat) : laneIndex c t % c.numChannels = c.channel := by
  rw [laneIndex, Nat.add_mul_mod_self_right, Nat.mod_eq_of_lt h]

theorem laneIndex_lt {c : Context} (h : c.channel < c.numChannels) {i j : Nat} (hij : i < j) : laneIndex c i < laneIndex c j :=
  Nat.add_lt_add_left (Nat.mul_lt_mul_of_pos_right hij (Nat.zero_lt_of_lt h)) c.channel

/-- The word of an emitted sample (R101): no later sample of the pass has the same lane index. -/
theorem read_emit {κ : Draws} {a : RunArgs} {c : Context} (hc : c.channel < c.numChannels) {k pos t i : Nat} {m : Memory}
    (hi : i < k) (hlane : laneIndex c (t + i) < a.outlen) :
    (emit κ a c k pos t m).read (a.outbase + laneIndex c (t + i)) = some (outSample κ c (pos + i)) := by
  induction k generalizing pos t i m with
  | zero => omega
  | succ k ih =>
    rw [emit]
    cases i with
    | zero =>
      have hlater : ∀ b, b / 8 = a.outbase + laneIndex c t → OutsideLane a c k (t + 1) b := fun b hb j hj _ _ => by
        have := laneIndex_lt hc hj
        omega
      rw [Nat.add_zero] at hlane
      rw [if_pos hlane, Nat.add_zero, Nat.add_zero]
      calc _ = (m.write (a.outbase + laneIndex c t) (outSample κ c pos)).read (a.outbase + laneIndex c t) :=
              Memory.read_congr _ _ _ fun b hb => get_emit_other κ a c k (pos + 1) (t + 1) _ b (hlater b hb)
        _ = some (outSample κ c pos) := Memory.read_write_self _ _ _
    | succ i =>
      rw [show t + (i + 1) = t + 1 + i by omega, show pos + (i + 1) = pos + 1 + i by omega]
      exact ih (by omega) (by rwa [show t + 1 + i = t + (i + 1) by omega])

/-! The frequency-domain sums. -/

/-- Bin `k` of `sum` is that of `acc` plus the product of ring slot `p` and impulse segment `i`, the accumulator on the left. -/
def BinAccumulates (acc : List Cplx) (ring imps : List (List Cplx)) (p i k : Nat) (sum : List Cplx) : Prop :=
  ∃ z a b κa κb seg imp, acc[k]? = some z ∧ ring[p]? = some seg ∧ imps[i]? = some imp ∧ seg[k]? = some a ∧ imp[k]? = some b ∧
    sum[k]? = some (cadd κa z (cmul κb a b))

/-- The multiply-accumulate accumulates every bin (R99, R100). -/
theorem macSegment_accumulates {κ : Draws} {acc : List Cplx} {ring imps : List (List Cplx)} {F p i k : Nat} (hacc : acc.length = F)
    (hring : ∀ v ∈ ring, v.length = F) (himps : ∀ v ∈ imps, v.length = F) (hp : p < ring.length) (hi : i < imps.length)
    (hk : k < F) : BinAccumulates acc ring imps p i k (macSegment κ acc (ring.getD p []) (imps.getD i [])) := by
  have hseg := hring _ (List.getElem_mem hp)
  have himp := himps _ (List.getElem_mem hi)
  refine ⟨acc[k], ring[p][k], imps[i][k], (κ.sub k).sub 0, (κ.sub k).sub 1, ring[p], imps[i], ?_⟩
  simp [macSegment, hp, hi, hk, hacc, hseg, himp]

/-- The tail sum after impulse segments `1 .. n` (R99). -/
def tailPrefix (κ : Draws) (c : Context) (ring : List (List Cplx)) (n : Nat) : List Cplx := tailSum κ { c with M := n + 1 } ring

theorem tailPrefix_zero (κ : Draws) (c : Context) (ring : List (List Cplx)) : tailPrefix κ c ring 0 = List.replicate c.F zeroC := rfl

theorem tailPrefix_succ (κ : Draws) (c : Context) (ring : List (List Cplx)) (n : Nat) :
    tailPrefix κ c ring (n + 1) = macSegment (κ.sub (n + 1)) (tailPrefix κ c ring n)
      (ring.getD ((c.inputSegmentPos + (n + 1) * c.STEP) % c.K) []) (c.impulseSegments.getD (n + 1) []) := by
  simp [tailPrefix, tailSum, List.range_succ]

theorem tailPrefix_length (κ : Draws) (c : Context) (ring : List (List Cplx)) (n : Nat) : (tailPrefix κ c ring n).length = c.F :=
  tailSum_length _ _ _

theorem tailSum_eq_tailPrefix (κ : Draws) (c : Context) (ring : List (List Cplx)) :
    tailSum κ c ring = tailPrefix κ c ring (c.M - 1) := rfl

/-! One pass. -/

section Transform
variable (u : Units) (κ : Draws) (c : Context) (xs : List F64)

theorem transformBlock_inputSegments : (transformBlock u κ c xs).inputSegments =
    c.inputSegments.set c.inputSegmentPos
      (fwd u (κ.sub 0) ((transformBlock u κ c xs).inputBuf.map fun x => { re := x, im := posZero })) := rfl

theorem transformBlock_tempBuf : (transformBlock u κ c xs).tempBuf =
    if c.inputPos = 0 then tailSum (κ.sub 1) c (transformBlock u κ c xs).inputSegments else c.tempBuf := rfl

theorem transformBlock_outputBuf : (transformBlock u κ c xs).outputBuf =
    inv u (κ.sub 3) (macSegment (κ.sub 2) (transformBlock u κ c xs).tempBuf
      ((transformBlock u κ c xs).inputSegments.getD c.inputSegmentPos []) (c.impulseSegments.getD 0 [])) := rfl

end Transform

/-- An older block is a stride or more away from the newest slot, and less than the ring's length. -/
theorem Context.Shaped.olderSlot_ne {caps : Caps} {c : Context} (h : c.Shaped caps) {i : Nat} (h1 : 1 ≤ i) (hi : i < c.M) :
    (c.inputSegmentPos + i * c.STEP) % c.K ≠ c.inputSegmentPos := by
  have hstep : 1 ≤ c.STEP := by
    rw [h.ringStride, h.ringLength, planK_div h.someSegment]
    split <;> omega
  have hlt : i * c.STEP < c.K := by
    rw [h.ringStride, h.ringLength]
    exact stride_lt_planK hi
  exact add_mod_ne_self h.ringPosition (Nat.mul_pos h1 hstep) hlt

/-- A block fits its frame twice (R89). -/
theorem Context.Shaped.twoBlocks_le {caps : Caps} {c : Context} (h : c.Shaped caps) : 2 * c.B ≤ c.F := by
  rw [h.fftSize]
  exact (planF_ge (isPowerOfTwo_pos h.blockSize)).2

/-- The block's output beyond `B` gets the deferred overlap below `F - B` (R102). -/
theorem getElem?_addDeferred {κ : Draws} {c : Context} {t : Nat} {z : Cplx} (h : c.outputBuf[c.B + t]? = some z) :
    (addDeferred κ c)[c.B + t]? = some (if t < c.F - 2 * c.B then
      { re := fadd (κ [c.B + t]) z.re (c.overlapBuf.getD (c.B + t) posZero), im := z.im } else z) := by
  have hcond : (c.B ≤ c.B + t ∧ c.B + t < c.F - c.B) ↔ t < c.F - 2 * c.B := by omega
  simp only [addDeferred, List.getElem?_mapIdx, h, Option.map_some, hcond]

/-- The saved tail below `F - B` (R102). -/
theorem getElem?_overlapBuf_advance {κ : Draws} {c : Context} {cnt t : Nat} {z : Cplx} (hb : c.inputPos + cnt = c.B)
    (ht : t < c.F - c.B) (hlen : c.overlapBuf.length = c.F) (hz : c.outputBuf[c.B + t]? = some z) :
    (advance κ c cnt).overlapBuf[t]? = some (if t < c.F - 2 * c.B then
      fadd (κ [c.B + t]) z.re (c.overlapBuf.getD (c.B + t) posZero) else z.re) := by
  rw [advance, if_pos hb]
  simp only [getElem?_writeAt, List.length_map, List.length_range]
  rw [if_pos (by omega)]
  simp only [Nat.sub_zero, List.getElem?_map, List.getElem?_range ht, Option.map_some, List.getD_eq_getElem?_getD,
    getElem?_addDeferred hz, Option.getD_some, apply_ite Cplx.re]

/-- What is not below `F - B` is never written (R105). -/
theorem getElem?_overlapBuf_advance_upper {κ : Draws} {c : Context} {cnt t : Nat} (ht : c.F - c.B ≤ t) :
    (advance κ c cnt).overlapBuf[t]? = c.overlapBuf[t]? := by
  unfold advance
  split
  · simp only [getElem?_writeAt, List.length_map, List.length_range]
    rw [if_neg (by omega)]
  · rfl

/-! The impulse loader (R92). -/

/-- What a cell holds before a coefficient overwrites it: the direct-path marker in the first cell, else zero. -/
def irMarker (i t : Nat) : Cplx := if i = 0 ∧ t = 0 then { re := oneF64, im := posZero } else zeroC

theorem irMarker_im (i t : Nat) : (irMarker i t).im = posZero := by
  unfold irMarker
  split <;> rfl

/-- The first cell of the loader is cell 0 of segment 0. -/
theorem firstCell_iff {SEG i j : Nat} (hj : j < SEG) : j + i * SEG = 0 ↔ i = 0 ∧ j = 0 := by
  rw [Nat.add_eq_zero_iff, Nat.mul_eq_zero]
  omega

section IrCell
variable {u : Units} {h : List F64} {SEG i j : Nat}

theorem irCell_of_none (hj : j < SEG → h[j + i * SEG]? = none) : irCell u h SEG i j = irMarker i j := by
  unfold irCell irMarker
  by_cases hlt : j < SEG
  · simp only [if_pos hlt, hj hlt]
  · simp only [if_neg hlt]

/-- A coefficient overwrites its cell, a NaN as `+0.0`; under `MARKER_RESIDUAL` a zero first one does not. -/
theorem irCell_of_some {x y : F64} (hj : j < SEG) (hx : h[j + i * SEG]? = some x) (hy : y = if isNaN x then posZero else x) :
    irCell u h SEG i j =
      if j + i * SEG = 0 ∧ isZero y ∧ u.markerResidual then irMarker i j else { re := y, im := posZero } := by
  subst hy
  simp [irCell, irMarker, hj, hx, and_assoc]

theorem irCell_im : (irCell u h SEG i j).im = posZero := by
  by_cases hj : j < SEG ∧ j + i * SEG < h.length
  · rw [irCell_of_some hj.1 (List.getElem?_eq_getElem hj.2) rfl, apply_ite Cplx.im, irMarker_im, ite_self]
  · rw [irCell_of_none fun hlt => List.getElem?_eq_none (not_lt.1 fun hlt' => hj ⟨hlt, hlt'⟩), irMarker_im]

theorem irCell_re_of_some {x : F64} (hj : j < SEG) (hx : h[j + i * SEG]? = some x) :
    (irCell u h SEG i j).re = if isNaN x then (if j + i * SEG = 0 ∧ u.markerResidual then oneF64 else posZero)
      else if j + i * SEG = 0 ∧ isZero x ∧ u.markerResidual then oneF64 else x := by
  have hmark : j + i * SEG = 0 → (irMarker i j).re = oneF64 := fun h0 => by rw [irMarker, if_pos ((firstCell_iff hj).1 h0)]
  rw [irCell_of_some hj hx rfl, apply_ite Cplx.re, ite_congr rfl (fun h0 => hmark h0.1) fun _ => rfl]
  by_cases hn : isNaN x = true
  · simp only [if_pos hn, show isZero posZero = true from rfl, true_and]
  · rw [if_neg hn, if_neg hn]

/-- A cell beyond the segment's part or beyond the impulse response is not the first one. -/
theorem irCell_re_of_none (hlen : 0 < h.length) (hseg : 0 < SEG) (hj : SEG ≤ j ∨ h.length ≤ j + i * SEG) :
    (irCell u h SEG i j).re = posZero := by
  have hnone : j < SEG → h[j + i * SEG]? = none := fun hlt => List.getElem?_eq_none (by omega)
  have hne : ¬ (i = 0 ∧ j = 0) := by
    rintro ⟨rfl, rfl⟩
    omega
  rw [irCell_of_none hnone, irMarker, if_neg hne]
  rfl

end IrCell

theorem getElem?_loadImpulse {u : Units} {κ : Draws} {h : List F64} {SEG F M i : Nat} (hi : i < M) :
    (loadImpulse u κ h SEG F M)[i]? = some (fwd u (κ.sub i) ((List.range F).map (irCell u h SEG i))) := by
  simp [loadImpulse, hi]

end Sys2Proof.Machine
end

section
/-! The steps of a pass, the plan and the impulse loader (R89, R90, R92, R97 to R104). -/

open Sys2Proof.Machine

namespace Sys2Proof.Claims

/-- Settles O30: the lane index modulo the number of channels is the channel. -/
theorem lanesAreDisjoint : Obligations.LanesAreDisjoint := by
  intro c d i j hn hc hd hne heq
  refine hne ?_
  rw [← laneIndex_mod hc i, ← laneIndex_mod hd j, heq, hn]

/-- Settles O35: the position is not at the block's end. -/
theorem insideTheBlockOnlyThePositionMoves : Obligations.InsideTheBlockOnlyThePositionMoves :=
  fun _ _ _ h => if_neg h

/-- Settles O55: `L' / SEG` segments are full, and `planK_div` gives the stride. -/
theorem plannerBounds : Obligations.PlannerBounds := by
  intro bs L' _ B F SEG M K
  have hB : 0 < B := nextPowerOfTwo_pos bs
  obtain ⟨hF4, hF2⟩ := planF_ge hB
  have hSEG : B ≤ SEG := Nat.le_sub_of_add_le (by omega)
  have hM : 1 ≤ M := Nat.le_add_left 1 _
  have hstride : K / M = if 128 < B then 1 else 3 := planK_div hM
  refine ⟨hF4, hF2, hSEG, hB, planM_covers (by omega), Nat.div_mul_le_self L' SEG, fun h => ?_, fun h => ?_,
    stride_lt_planK (Nat.sub_lt hM Nat.one_pos)⟩
  · rw [hstride, if_neg (by omega)]
  · rw [hstride, if_pos h]

/-- Settles O31: the samples are written into the frame buffer at the position, and its transform into the ring at the newest slot. -/
theorem passTransformsTheFrameBuffer : Obligations.PassTransformsTheFrameBuffer := by
  intro u κ c caps a m cnt nsp xs h hcnt hxs d
  have hlen : xs.length = cnt := gather_length _ _ _ _ _ _ hxs
  have hblocks := h.twoBlocks_le
  have hslot : c.inputSegmentPos < c.inputSegments.length := h.ringSegments ▸ h.ringPosition
  refine ⟨rfl, fun i hi => ?_, fun t ht => ?_, ⟨κ.sub 0, ?_⟩, fun p hp => ?_⟩
  · rw [transformBlock_inputBuf, getElem?_writeAt, h.inputLength, if_pos (by omega), Nat.add_sub_cancel_left]
    exact gather_getElem? a c m cnt nsp xs hxs i hi
  · rw [transformBlock_inputBuf, getElem?_writeAt, if_neg (by omega)]
  · rw [transformBlock_inputSegments, List.getElem?_set_self hslot]
  · rw [transformBlock_inputSegments, List.getElem?_set_ne hp.symm]

/-- Settles O32: the sum is the multiply-accumulate of the tail sum, whose buffers have the frame's length. -/
theorem blockSumIsInverted : Obligations.BlockSumIsInverted := by
  intro u κ caps c xs h d
  have hd : d.Shaped caps := transformBlock_shaped h u κ xs
  have hout := transformBlock_outputBuf u κ c xs
  refine ⟨⟨_, _, hout, (macSegment_length _ _ _ _).trans hd.tempLength, fun k hk => ?_⟩, fun z hz => inv_im _ _ _ z (hout ▸ hz)⟩
  exact macSegment_accumulates hd.tempLength hd.ringSegmentLength h.irSegmentLength (hd.ringSegments ▸ h.ringPosition)
    (h.irSegments ▸ h.someSegment) hk

/-- Settles O33: the accumulators are the tail sums of the first impulse segments, and the slots they meet are not the newest, which
alone the pass has changed. -/
theorem tailSumMeetsOlderBlocks : Obligations.TailSumMeetsOlderBlocks := by
  intro u κ caps c xs h d
  have hd : d.Shaped caps := transformBlock_shaped h u κ xs
  have htemp := transformBlock_tempBuf u κ c xs
  refine ⟨fun h0 => by rw [htemp, if_neg h0], fun h0 => ?_⟩
  rw [if_pos h0, tailSum_eq_tailPrefix] at htemp
  refine ⟨tailPrefix (κ.sub 1) c d.inputSegments, tailPrefix_zero _ _ _, htemp, tailPrefix_length _ _ _, fun i h1 hi => ?_⟩
  have hne := h.olderSlot_ne h1 hi
  refine ⟨hne, fun k hk => ?_⟩
  obtain ⟨j, rfl⟩ : ∃ j, i = j + 1 := ⟨i - 1, by omega⟩
  have hslot : (c.inputSegmentPos + (j + 1) * c.STEP) % c.K < d.inputSegments.length :=
    (Nat.mod_lt _ (Nat.zero_lt_of_lt h.ringPosition)).trans_eq hd.ringSegments.symm
  have hbin := macSegment_accumulates (κ := (κ.sub 1).sub (j + 1)) (tailPrefix_length (κ.sub 1) c d.inputSegments j)
    hd.ringSegmentLength h.irSegmentLength hslot (h.irSegments ▸ hi) hk
  rw [← tailPrefix_succ] at hbin
  have hold : d.inputSegments[(c.inputSegmentPos + (j + 1) * c.STEP) % c.K]? =
      c.inputSegments[(c.inputSegmentPos + (j + 1) * c.STEP) % c.K]? := by
    rw [transformBlock_inputSegments, List.getElem?_set_ne hne.symm]
  rw [← hold]
  exact hbin

/-- Settles O34, by the two ranges of the saved tail. -/
theorem blockBoundarySavesTheTail : Obligations.BlockBoundarySavesTheTail := by
  intro κ caps c cnt h hb d
  have hblocks := h.twoBlocks_le
  have hK := h.ringPosition
  have hpos : d.inputSegmentPos = (c.inputSegmentPos + c.K - 1) % c.K := by rw [advance_inputSegmentPos, if_pos hb]
  refine ⟨?_, fun t => getElem?_overlapBuf_advance_upper, ?_, fun t ht => ?_⟩
  · simp only [d, advance, if_pos hb]
  · rw [hpos, Int.natCast_mod, Nat.cast_sub (by omega), Nat.cast_add, Nat.cast_one, add_sub_right_comm, Int.add_emod_right]
  · obtain ⟨z, hz⟩ : ∃ z, c.outputBuf[c.B + t]? = some z := ⟨_, List.getElem?_eq_getElem (by rw [h.outputLength]; omega)⟩
    obtain ⟨o, ho⟩ : ∃ o, c.overlapBuf[c.B + t]? = some o := ⟨_, List.getElem?_eq_getElem (by rw [h.overlapLength]; omega)⟩
    have hsaved := getElem?_overlapBuf_advance (κ := κ) hb ht h.overlapLength hz
    rw [List.getD_eq_getElem?_getD, ho, Option.getD_some] at hsaved
    exact ⟨z, hz, _, hsaved, fun hlt => ⟨o, _, ho, if_pos hlt⟩, fun hge => if_neg (by omega)⟩

/-- Settles O36: later samples go to greater lane indices, and the frame is that of `emit`. -/
theorem passEmitsItsLane : Obligations.PassEmitsItsLane := by
  intro κ caps c a m cnt nsp h hcnt
  have hblocks := h.twoBlocks_le
  refine ⟨fun i hi hlane => ?_, fun b hb => ?_⟩
  · obtain ⟨z, hz⟩ : ∃ z, c.outputBuf[c.inputPos + i]? = some z := ⟨_, List.getElem?_eq_getElem (by rw [h.outputLength]; omega)⟩
    obtain ⟨o, ho⟩ : ∃ o, c.overlapBuf[c.inputPos + i]? = some o := ⟨_, List.getElem?_eq_getElem (by rw [h.overlapLength]; omega)⟩
    have hread := read_emit (κ := κ) (pos := c.inputPos) (m := m) h.lane hi hlane
    simp only [outSample, List.getD_eq_getElem?_getD, hz, ho, Option.getD_some] at hread
    exact ⟨z, o, _, hz, ho, hread⟩
  · refine get_emit_other _ _ _ _ _ _ _ _ fun j hj hj' hlane => ?_
    obtain ⟨i, rfl⟩ := Nat.exists_eq_add_of_le hj
    exact hb i (by omega) hlane

/-- Settles O38, cell by cell. -/
theorem impulseSegmentsHoldTheCoefficients : Obligations.ImpulseSegmentsHoldTheCoefficients := by
  intro u κ h SEG F M i hlen hseg hi
  refine ⟨_, _, getElem?_loadImpulse hi, by simp, fun j hj => ?_⟩
  exact ⟨irCell u h SEG i j, by simp [hj], irCell_im, fun x hjs hx => irCell_re_of_some hjs hx,
    irCell_re_of_none hlen hseg⟩

end Sys2Proof.Claims
end

section
/-! The convolver's commands report their errors and complete (R93 to R96, R109 to R111). -/

namespace Sys2Proof.Machine

/-- Storing back a context that a state holds changes nothing. -/
theorem setCtx_self (s : State) (x : Nat) : s.setCtx x (s.ctx x) = s := by
  have hctxs : s.ctxs.setIfInBounds x (s.ctx x) = s.ctxs := by
    ext i hi
    by_cases hxi : x = i
    · subst hxi
      simp [State.ctx, hi]
    · rw [Vector.getElem_setIfInBounds_ne hi hxi]
  rw [State.setCtx, hctxs]

theorem lt_sixteen_of_lt_nctx {caps : Caps} {x : Nat} (h : x < caps.nctx) : x < 16 := h.trans_le caps.nctxLast.isLt

/-- A context with the configuration of `c` is `c` but for its buffers and positions. -/
theorem SameConfig.eq_update {c d : Context} (h : SameConfig c d) :
    d = { c with
      inputBuf := d.inputBuf, outputBuf := d.outputBuf, tempBuf := d.tempBuf, overlapBuf := d.overlapBuf
      inputSegments := d.inputSegments, inputPos := d.inputPos, inputSegmentPos := d.inputSegmentPos } := by
  rw [← h.configured, ← h.B, ← h.F, ← h.SEG, ← h.M, ← h.K, ← h.STEP, ← h.channel, ← h.numChannels, ← h.impulseSegments]

/-- A pass gathers, transforms, emits and advances (R95). -/
theorem convPass_eq_some_iff {u : Units} {κ : Draws} {a : RunArgs} {c c' : Context} {m m' : Memory} {nsp : Nat} :
    convPass u κ a c m nsp = some (c', m') ↔ ∃ xs, gather a c m (passCount a c nsp) nsp = some xs ∧
      c' = advance (κ.sub 2) (transformBlock u (κ.sub 0) c xs) (passCount a c nsp) ∧
      m' = emit (κ.sub 1) a (transformBlock u (κ.sub 0) c xs) (passCount a c nsp) c.inputPos nsp m := by
  unfold convPass
  simp only
  cases gather a c m (passCount a c nsp) nsp with
  | none => simp
  | some xs => simp [eq_comm]

/-- With no samples left the loop has ended. -/
theorem convLoop_of_le {u : Units} {κ : Draws} {a : RunArgs} {fuel nsp : Nat} {c : Context} {m : Memory} (h : a.ns ≤ nsp) :
    convLoop u κ a fuel nsp c m = .ok (c, m) := by
  cases fuel <;> rw [convLoop, if_neg (not_lt.2 h)]

/-- With samples left the loop makes a pass. -/
theorem convLoop_of_pass {u : Units} {κ : Draws} {a : RunArgs} {fuel nsp : Nat} {c c' : Context} {m m' : Memory} (h : nsp < a.ns)
    (hpass : convPass u (κ.sub nsp) a c m nsp = some (c', m')) :
    convLoop u κ a (fuel + 1) nsp c m = convLoop u κ a fuel (nsp + passCount a c nsp) c' m' := by
  rw [convLoop, if_pos h, hpass]

end Sys2Proof.Machine

open Sys2Proof.Machine

namespace Sys2Proof.Claims

/-! The words and the errors. -/

/-- The word of an opcode with a context in `CTX` (R52) decodes to the instruction. -/
theorem decode_ofNat_of_wellFormed {i : Instr} (h : i.wellFormed = true) :
    decode (BitVec.ofNat 32 (ctxIndex i * 2 ^ 8 + i.opcode)) = .ok i := by
  have hctx := wellFormed_iff.1 h
  have hopc := opcode_lt i
  have hw : (BitVec.ofNat 32 (ctxIndex i * 2 ^ 8 + i.opcode)).toNat = 256 * ctxIndex i + i.opcode := by
    rw [BitVec.toNat_ofNat, Nat.mod_eq_of_lt] <;> omega
  obtain ⟨hopc', hctx', hrsv'⟩ := fields_of_toNat hw hopc
  exact decode_eq_ok_iff.2 ⟨by omega, hopc', by omega⟩

section Errors
variable {s : State} {x : Nat} {e : Err}

theorem checkConvNew_eq_some_iff : checkConvNew x s = some e ↔ FirstFailing (checksOf (.convNew x) s) e := by
  simp only [checkConvNew, checksOf, check_eq_some_iff, firstFailing_cons, firstFailing_nil, Bool.not_eq_true', ← Bool.not_eq_true,
    decide_eq_true_eq, inRangeReal_iff, and_false, or_false, reduceCtorEq]
  rfl

theorem checkConvSetir_eq_some_iff : checkConvSetir x s = some e ↔ FirstFailing (checksOf (.convSetir x) s) e := by
  simp only [checkConvSetir, checksOf, check_eq_some_iff, firstFailing_cons, firstFailing_nil, Bool.not_eq_true', ← Bool.not_eq_true,
    inRangeReal_iff, and_false, or_false, reduceCtorEq]
  rfl

theorem execConvNew_of_firstFailing (h : FirstFailing (checksOf (.convNew x) s) e) : execConvNew x s = .next (s.finish e) := by
  simp [execConvNew, convNew, checkConvNew_eq_some_iff.2 h]

theorem execConvSetir_of_firstFailing (h : FirstFailing (checksOf (.convSetir x) s) e) :
    execConvSetir x s = .next (s.finish e) := by
  simp [execConvSetir, convSetir, checkConvSetir_eq_some_iff.2 h]

end Errors

/-! Completion. -/

section Completion
variable {s : State} {x : Nat}

theorem execConvNew_succeeds {h : List F64} (hc : NoneFails (checksOf (.convNew x) s))
    (hh : loadR s.dmem (s.arg 3) (truncatedIr (s.arg 4)) = some h) :
    execConvNew x s = .next ((s.setCtx x (newContext Config.units s h)).finish .ok) := by
  simp [execConvNew, convNew, checkConvNew_eq_none_iff.2 hc, hh]

theorem execConvSetir_succeeds {h : List F64} (hc : NoneFails (checksOf (.convSetir x) s))
    (hh : loadR s.dmem (s.arg 3) (truncatedIr (s.arg 4)) = some h) :
    execConvSetir x s =
      .next (((markPartialBlock s (s.ctx x)).setCtx x (setirContext Config.units s (s.ctx x) h)).finish .ok) := by
  simp [execConvSetir, convSetir, checkConvSetir_eq_none_iff.2 hc, hh]

theorem execConvRun_succeeds {c : Context} {m : Memory} (hc : NoneFails (checksOf (.convRun x) s))
    (hloop : convLoop Config.units (s.supply Config.units) (runArgs s) (s.arg 4) 0 (s.ctx x) s.dmem = .ok (c, m)) :
    execConvRun x s = .next ((State.setCtx { s with dmem := m } x c).finish .ok) := by
  simp [execConvRun, convRun, checkConvRun_eq_none_iff.2 hc, hloop]

/-- A `CONV_RUN` whose checks pass names a context that exists. -/
theorem lt_nctx_of_noneFails (hc : NoneFails (checksOf (.convRun x) s)) : x < s.caps.nctx := not_le.1 (hc _ (.head _))

theorem noneFails_convRun (hx : x < s.caps.nctx) (hconf : (s.ctx x).configured = true) (hout : Inside s (s.arg 0) (s.arg 1))
    (hin : Inside s (s.arg 2) (s.arg 3)) : NoneFails (checksOf (.convRun x) s) := by
  simp [checksOf, noneFails_cons, noneFails_nil, hx, hconf, hout, hin]

theorem exec_ctx_ne {i : Instr} {t : State} (hi : contextOf i = some x) (h : exec i s = .next t) (y : Nat) (hy : y ≠ x) :
    t.ctx y = s.ctx y :=
  exec_ctx_other h fun hy' => hy (Option.some.inj (hy'.symm.trans hi))

/-- The lane's words of `in` that a `CONV_RUN` reads hold values when each of them does. -/
theorem laneReadable_runArgs (h : ∀ t, t < s.arg 4 → (s.ctx x).channel + t * (s.ctx x).numChannels < s.arg 3 →
    (s.dmem.read (s.arg 2 + ((s.ctx x).channel + t * (s.ctx x).numChannels))).isSome) :
    LaneReadable (runArgs s) (s.ctx x) s.dmem (s.arg 4) 0 :=
  fun j _ hj => h j (by rwa [Nat.zero_add] at hj)

end Completion

/-- Settles O10: only a command's effect adds to `UNDEF`, and the one command that marks had a configured context. -/
theorem onlyPartialBlockSwapSetsUndef : Obligations.OnlyPartialBlockSwapSetsUndef := by
  intro s t h hs ht
  rcases step_next h with rfl | ⟨-, rfl⟩ | ⟨hr, i, hi, hexec⟩ | ⟨a, rest, -, ha⟩
  · simp [hs] at ht
  · simp [hs] at ht
  · obtain ⟨r, rfl, hmarks, -⟩ := exec_next hexec
    have hm : r.marks = true := by simpa [Effect.apply, hs] using ht
    obtain ⟨hok, x, rfl, hpos⟩ := hmarks.1 hm
    refine ⟨hr, x, hi, ?_, hpos, hok⟩
    rcases execConvSetir_next hexec with ⟨e, he, hfail⟩ | ⟨hc, -⟩
    · exact absurd (hok.symm.trans (congrArg (fun t => t.status.err) hfail)) he.symm
    · simpa using checkConvSetir_eq_none_iff.1 hc _ (.tail _ (.head _))
  · cases hostAccess_next ha with
    | resets =>
      rw [assertReset_status] at ht
      cases ht
    | powersOn => cases ht
    | _ => simp [hs] at ht

/-- Settles O26: the block size is the planned one, and what is stored is the new context. -/
theorem convNewConfiguresTheContext : Obligations.ConvNewConfiguresTheContext := by
  refine ⟨fun x hx => ⟨decode_ofNat_of_wellFormed (i := .convNew x) (by simpa [Instr.wellFormed, ctxFits] using hx),
    reportsItsErrors_of fun _ _ => execConvNew_of_firstFailing⟩, ?_⟩
  intro s x B F L' M K h hx h0 hpow hle hleast hF hch hch' h4 hL hM hK hFcap hMcap hKcap hin hh
  have hB : nextPowerOfTwo (s.arg 0) = B := nextPowerOfTwo_eq hpow hle hleast
  have hstep : planK B M / M = if 128 < B then 1 else 3 := planK_div (hM ▸ Nat.le_add_left 1 _)
  have hc : NoneFails (checksOf (.convNew x) s) := by
    simp only [checksOf, noneFails_cons, noneFails_nil, hB, ← hF, ← hL, ← hM, ← hK]
    exact ⟨not_le.2 hx, h0, by omega, h4, by simp [hFcap, hMcap, hKcap], not_not.2 hin, trivial⟩
  have hexec := execConvNew_succeeds hc (by rwa [truncatedIr, maxIr, ← hL])
  refine ⟨_, hexec, ⟨rfl, exec_ctx_ne (i := .convNew x) rfl hexec⟩, ?_⟩
  rw [finish_ctx, setCtx_ctx_self _ _ _ (lt_sixteen_of_lt_nctx hx), ← hstep]
  subst hF hM hK hL hB
  rfl

/-- Settles O27: what is stored is the context with the new impulse response, after the mark of a partial block. -/
theorem convSetirReplacesTheImpulseResponse : Obligations.ConvSetirReplacesTheImpulseResponse := by
  refine ⟨fun x hx => ⟨decode_ofNat_of_wellFormed (i := .convSetir x) (by simpa [Instr.wellFormed, ctxFits] using hx),
    reportsItsErrors_of fun _ _ => execConvSetir_of_firstFailing⟩, ?_⟩
  intro s x L' M K h hx hconf h4 hL hM hK hMcap hKcap hin hh
  have hstep : planK (s.ctx x).B M / M = if 128 < (s.ctx x).B then 1 else 3 := planK_div (hM ▸ Nat.le_add_left 1 _)
  have hc : NoneFails (checksOf (.convSetir x) s) := by
    simp only [checksOf, noneFails_cons, noneFails_nil, ← hL, ← hM, ← hK]
    exact ⟨not_le.2 hx, by simp [hconf], h4, by simp [hMcap, hKcap], not_not.2 hin, trivial⟩
  have hexec := execConvSetir_succeeds hc (by rwa [truncatedIr, maxIr, ← hL])
  refine ⟨_, hexec, ?_, exec_ctx_ne (i := .convSetir x) rfl hexec, rfl, rfl, ?_, ?_⟩
  · rw [finish_ctx, setCtx_ctx_self _ _ _ (lt_sixteen_of_lt_nctx hx), ← hstep]
    subst hM hK hL
    rfl
  · simp [markPartialBlock_undef]
  · unfold markPartialBlock
    split <;> rfl

/-! `CONV_RUN`. -/

/-- Settles O29: the loop ends before its first pass, and the context stored back is the one taken. -/
theorem convRunOfNoSamples : Obligations.ConvRunOfNoSamples := by
  intro s x hc h0
  have hexec := execConvRun_succeeds hc (convLoop_of_le (Nat.le_of_eq h0))
  rw [setCtx_self] at hexec
  exact ⟨_, hexec, rfl, rfl, fun y => rfl⟩

/-- Settles O28, by what a whole loop can do. -/
theorem convRunProcessesItsLane : Obligations.ConvRunProcessesItsLane := by
  intro s x hx hconf hshape hout hin hread
  obtain ⟨c, m, hloop, -, hcfg, -, hpos, hring, hframe, -, -⟩ :=
    convLoop_ok Config.units (s.supply Config.units) (runArgs s) (s.arg 4) 0
    (s.ctx x) s.dmem hshape (Nat.le_add_left _ _) (laneReadable_runArgs hread)
  have hexec := execConvRun_succeeds (noneFails_convRun hx hconf hout hin) hloop
  have hctx := setCtx_ctx_self { s with dmem := m } x c (lt_sixteen_of_lt_nctx hx)
  refine ⟨_, hexec, rfl, exec_ctx_ne (i := .convRun x) rfl hexec, ?_, ?_, ?_,
    fun b hb => hframe b fun j _ hj hlane => hb j (by rwa [Nat.zero_add] at hj) hlane⟩
  · rw [finish_ctx, hctx]
    exact hpos
  · rw [finish_ctx, hctx]
    exact hring
  · rw [finish_ctx, hctx]
    exact hcfg.eq_update

/-- Settles O37: the pass takes every sample, so the loop ends after it. -/
theorem convRunInsideOneBlock : Obligations.ConvRunInsideOneBlock := by
  intro s x xs hc h0 hle hxs
  have hcnt : passCount (runArgs s) (s.ctx x) 0 = s.arg 4 := Nat.min_eq_left hle
  have hpass := (convPass_eq_some_iff (u := Config.units) (κ := (s.supply Config.units).sub 0)).2 ⟨xs, by rwa [hcnt], rfl, rfl⟩
  obtain ⟨n, hn⟩ : ∃ n, s.arg 4 = n + 1 := ⟨s.arg 4 - 1, by omega⟩
  have hloop := (convLoop_of_pass (fuel := n) h0 hpass).trans (convLoop_of_le (by rw [hcnt]; exact Nat.le_add_left _ _))
  rw [← hn, hcnt] at hloop
  refine ⟨_, ((s.supply Config.units).sub 0).sub 0, _, ((s.supply Config.units).sub 0).sub 2, execConvRun_succeeds hc hloop, ?_, rfl⟩
  rw [finish_ctx, setCtx_ctx_self _ _ _ (lt_sixteen_of_lt_nctx (lt_nctx_of_noneFails hc))]

/-- Settles O59, by the passes of the loop. -/
theorem convRunIsTheSequenceOfItsPasses : Obligations.ConvRunIsTheSequenceOfItsPasses := by
  intro s x hx hconf hshape hout hin hread
  obtain ⟨n, nsp, c, m, hloop, hnsp0, hc0, hm0, hlast, hpasses⟩ := convLoop_passes Config.units (s.supply Config.units) (runArgs s)
    (s.arg 4) 0 (s.ctx x) s.dmem hshape (Nat.zero_le _) (Nat.le_add_left _ _) (laneReadable_runArgs hread)
  have hexec := execConvRun_succeeds (noneFails_convRun hx hconf hout hin) hloop
  refine ⟨_, n, nsp, c, m, hexec, hnsp0, hc0, hm0, hlast, ?_, rfl, fun j hj => ?_⟩
  · rw [finish_ctx, setCtx_ctx_self _ _ _ (lt_sixteen_of_lt_nctx hx)]
  · obtain ⟨hcnt, hnext, hpass⟩ := hpasses j hj
    obtain ⟨xs, hxs, hctx, hmem⟩ := convPass_eq_some_iff.1 hpass
    exact ⟨hcnt, hnext, xs, _, _, _, hxs, hctx, hmem⟩

end Sys2Proof.Claims
end

section
/-! Every command answers its checks: it ends with the error of the first one that fails and no other effect, and with no error when
none fails (R107, R109 to R111). -/

open Sys2Proof.Machine

namespace Sys2Proof.Claims

/-- Some check of a list fails first, or none fails. -/
theorem noneFails_or_firstFailing (checks : List (Prop × Err)) : NoneFails checks ∨ ∃ e, FirstFailing checks e := by
  induction checks with
  | nil => exact .inl (noneFails_nil.2 trivial)
  | cons q checks ih =>
    by_cases hq : q.1
    · exact .inr ⟨q.2, (firstFailing_cons q checks).2 (.inl ⟨hq, rfl⟩)⟩
    · rcases ih with hnone | ⟨e, he⟩
      · exact .inl ((noneFails_cons q checks).2 ⟨hq, hnone⟩)
      · exact .inr ⟨e, (firstFailing_cons q checks).2 (.inr ⟨hq, he⟩)⟩

section Commands
variable {s : State} {e : Err}

theorem checkConvRun_eq_some_iff {x : Nat} : checkConvRun x s = some e ↔ FirstFailing (checksOf (.convRun x) s) e := by
  simp only [checkConvRun, checksOf, check_eq_some_iff, firstFailing_cons, firstFailing_nil, Bool.not_eq_true', ← Bool.not_eq_true,
    Bool.and_eq_true, inRangeReal_iff, and_false, or_false, reduceCtorEq]

theorem execConvRun_of_firstFailing {x : Nat} (h : FirstFailing (checksOf (.convRun x) s) e) :
    execConvRun x s = .next (s.finish e) := by
  simp [execConvRun, convRun, checkConvRun_eq_some_iff.2 h]

/-- A command with a failing check only reports the error of the first one (R107, R110). -/
theorem exec_of_firstFailing {i : Instr} (h : FirstFailing (checksOf i s) e) : exec i s = .next (s.finish e) := by
  cases i with
  | nop => exact absurd h firstFailing_nil
  | bitrev => exact execBitrev_of_firstFailing h
  | fftFwd => exact execFftFwd_of_firstFailing h
  | fftInv => exact execFftInv_of_firstFailing h
  | fftMag => exact execFftMag_of_firstFailing h
  | cmac => exact execCmac_of_firstFailing h
  | convNew x => exact execConvNew_of_firstFailing h
  | convSetir x => exact execConvSetir_of_firstFailing h
  | convRun x => exact execConvRun_of_firstFailing h

/-- A command whose checks all pass answers a next state only by succeeding; a word without a value makes it fault instead. -/
theorem err_of_exec_of_noneFails {i : Instr} {t : State} (hc : NoneFails (checksOf i s)) (h : exec i s = .next t) :
    t.status.err = .ok := by
  cases i with
  | nop => cases h; rfl
  | bitrev =>
    simp only [exec, execBitrev, bitrev, checkBitrev_eq_none_iff.2 hc] at h
    split at h <;> cases h; rfl
  | fftFwd =>
    simp only [exec, execFftFwd, fftFwd, checkFftFwd_eq_none_iff.2 hc] at h
    split at h
    · cases h; rfl
    · split at h <;> cases h; rfl
  | fftInv =>
    simp only [exec, execFftInv, fftInv, checkFftInv_eq_none_iff.2 hc] at h
    split at h <;> cases h; rfl
  | fftMag =>
    simp only [exec, execFftMag, fftMag, checkFftMag_eq_none_iff.2 hc] at h
    split at h <;> cases h; rfl
  | cmac =>
    simp only [exec, execCmac, cmac, checkCmac_eq_none_iff.2 hc] at h
    split at h <;> cases h; rfl
  | convNew x =>
    simp only [exec, execConvNew, convNew, checkConvNew_eq_none_iff.2 hc] at h
    split at h <;> cases h; rfl
  | convSetir x =>
    simp only [exec, execConvSetir, convSetir, checkConvSetir_eq_none_iff.2 hc] at h
    split at h <;> cases h; rfl
  | convRun x =>
    simp only [exec, execConvRun, convRun, checkConvRun_eq_none_iff.2 hc] at h
    split at h <;> cases h; rfl

/-- Every command ends with `BUSY` clear (R107). -/
theorem busy_of_exec {i : Instr} {t : State} (h : exec i s = .next t) : t.status.busy = false := by
  obtain ⟨r, rfl, -⟩ := exec_next h
  rfl

/-- A command that ends with an error has a failing check, so it has no other effect (R111). -/
theorem eq_finish_of_exec_of_err_ne_ok {i : Instr} {t : State} (h : exec i s = .next t) (herr : t.status.err ≠ .ok) :
    t = s.finish t.status.err := by
  rcases noneFails_or_firstFailing (checksOf i s) with hnone | ⟨e, he⟩
  · exact absurd (err_of_exec_of_noneFails hnone h) herr
  · rw [exec_of_firstFailing he] at h
    cases h
    rfl

end Commands

/-- Settles O12: the latched word is illegal, or its command runs and answers its checks. -/
theorem firstFailingCheckIsReported : Obligations.FirstFailingCheckIsReported := by
  refine fun s hr => ⟨illegalWordRaisesIllegalCommand s hr, fun i hi => ?_⟩
  rw [stepRunsTheLatchedCommand s i hr hi]
  exact ⟨fun _ => exec_of_firstFailing, fun hnone _ => err_of_exec_of_noneFails hnone⟩

/-- Settles O13: a word that does not decode only reports its error, and so does a command with a failing check. -/
theorem failingCommandsChangeOnlyErr : Obligations.FailingCommandsChangeOnlyErr := by
  intro s t hr h
  rw [step_of_runsNext hr, runCommand] at h
  split at h
  · next i _ => exact ⟨busy_of_exec h, eq_finish_of_exec_of_err_ne_ok h⟩
  · cases h
    exact ⟨rfl, fun _ => rfl⟩

end Sys2Proof.Claims
end

section
/-! Reset while busy: what a scrambled buffer reads as, and which buffer an abandoned command leaves open (R119, R120). -/

namespace Sys2Proof.Machine

/-- Word `w` of a scrambled buffer holds the free value at its position (R120). -/
theorem read_scramble (κ : Draws) (m : Memory) (base n j w : Nat) (hlo : base + j ≤ w) (hhi : w < base + j + n) :
    (scramble κ m base n j).read w = some (κ [w - base]) := by
  induction n generalizing m j with
  | zero => omega
  | succ n ih =>
    rw [scramble]
    rcases hlo.eq_or_lt with rfl | hlt
    · have hlater : ∀ x, x / 8 = base + j →
          (scramble κ (m.write (base + j) (κ [j])) base n (j + 1)).get x = (m.write (base + j) (κ [j])).get x :=
        fun x hx => get_scramble_other κ _ base n (j + 1) x (by omega)
      rw [Memory.read_congr _ _ _ hlater, Memory.read_write_self, Nat.add_sub_cancel_left]
    · exact ih _ _ hlt (by omega)

end Sys2Proof.Machine

open Sys2Proof.Machine

namespace Sys2Proof.Claims

section
variable {s : State} {i : Instr}

/-- A command that no check ends leaves open the words it may store to (R120). -/
theorem storeBuffer_of_noneFails (hc : NoneFails (checksOf i s)) : storeBuffer i s = storeWords i s := by
  cases i with
  | nop => rfl
  | bitrev => simp [storeBuffer, storeWords, checkBitrev_eq_none_iff.2 hc]
  | fftFwd => simp [storeBuffer, storeWords, checkFftFwd_eq_none_iff.2 hc]
  | fftInv => simp [storeBuffer, storeWords, checkFftInv_eq_none_iff.2 hc]
  | fftMag => simp [storeBuffer, storeWords, checkFftMag_eq_none_iff.2 hc]
  | cmac => simp [storeBuffer, storeWords, checkCmac_eq_none_iff.2 hc]
  | convNew x => rfl
  | convSetir x => rfl
  | convRun x => simp [storeBuffer, storeWords, checkConvRun_eq_none_iff.2 hc]

/-- A command that a check ends leaves no word open (log 13). -/
theorem storeBuffer_of_firstFailing {e : Err} (h : FirstFailing (checksOf i s) e) : storeBuffer i s = (0, 0) := by
  cases i with
  | nop => rfl
  | bitrev => simp [storeBuffer, checkBitrev_eq_some_iff.2 h]
  | fftFwd => simp [storeBuffer, checkFftFwd_eq_some_iff.2 h]
  | fftInv => simp [storeBuffer, checkFftInv_eq_some_iff.2 h]
  | fftMag => simp [storeBuffer, checkFftMag_eq_some_iff.2 h]
  | cmac => simp [storeBuffer, checkCmac_eq_some_iff.2 h]
  | convNew x => rfl
  | convSetir x => rfl
  | convRun x => simp [storeBuffer, checkConvRun_eq_some_iff.2 h]

theorem abandonedBuffer_of_decode_ok (h : decode s.cmd = .ok i) : abandonedBuffer s = storeBuffer i s := by
  rw [abandonedBuffer, h]

theorem abandonedBuffer_of_decode_error {e : DecodeError} (h : decode s.cmd = .error e) : abandonedBuffer s = (0, 0) := by
  rw [abandonedBuffer, h]

end

theorem sameOutside_scramble (κ : Draws) (m : Memory) (base n : Nat) : SameOutside m (scramble κ m base n 0) base n :=
  fun x hx => get_scramble_other κ m base n 0 x hx

theorem readable_scramble (κ : Draws) (m : Memory) (base n : Nat) : Readable (scramble κ m base n 0) base n :=
  fun w hlo hhi => by rw [read_scramble κ m base n 0 w hlo hhi, Option.isSome_some]

/-- Reset leaves the data memory alone when the abandoned command leaves no word open. -/
theorem assertReset_dmem_of_nothing_abandoned (u : Units) {s : State} (hb : s.status.busy = true) (h : abandonedBuffer s = (0, 0)) :
    (assertReset u s).dmem = s.dmem := by
  rw [assertReset_dmem_of_busy u hb, h, scramble]

/-- Settles O47: reset scrambles the abandoned buffer, which is `storeWords` when no check fails and empty otherwise. -/
theorem resetWhileBusyScramblesTheOutputBuffer : Obligations.ResetWhileBusyScramblesTheOutputBuffer := by
  refine fun u s hb => ⟨assertReset u s, rfl, fun i hi hc => ?_, fun i e hi he => ?_, fun e he => ?_⟩
  · rw [assertReset_dmem_of_busy u hb, abandonedBuffer_of_decode_ok hi, storeBuffer_of_noneFails hc]
    exact ⟨sameOutside_scramble _ _ _ _, readable_scramble _ _ _ _⟩
  · exact assertReset_dmem_of_nothing_abandoned u hb ((abandonedBuffer_of_decode_ok hi).trans (storeBuffer_of_firstFailing he))
  · exact assertReset_dmem_of_nothing_abandoned u hb (abandonedBuffer_of_decode_error he)

end Sys2Proof.Claims
end
